-- ==== Sys2Proof/Word.lean ====
section
/-! DEFINITION. The engine's word types: bytes, 32-bit command words and registers, 64-bit responses, 256-bit digests. -/

namespace Sys2Proof

/-- A byte is 8 bits (R11). -/
abbrev Byte := BitVec 8

/-- A 32-bit word: a command word (R100), a readable register (R30), a SHA-256 word (R180). -/
abbrev Word := BitVec 32

/-- The 64-bit response word (R113). -/
abbrev Response := BitVec 64

/-- A digest: `D[0] .. D[31]`, 32 bytes in digest order (R9, R160). -/
abbrev Digest := Vector Byte 32

/-- `pow2(x)`: true iff `x > 0` and `(x AND (x − 1)) = 0` (R12). -/
def pow2 (x : Nat) : Bool := decide (0 < x) && (x &&& (x - 1)) == 0

end Sys2Proof
end

