-- ==== Sys2Proof/Config.lean ====
section
/-! DEFINITION. The engine's fixed parameters (R8), the parameter `DIGEST_FN` (R9) and the free values. This build's value of
`DIGEST_FN` is `Sys2Proof.Machine.digestFn`, in Machine/Operands.lean, where a repair can mend it. -/

namespace Sys2Proof.Config

/-- `SIZE_MIN_BYTES` (R8). -/
def sizeMinBytes : Nat := 1
/-- `SIZE_MAX_BYTES` (R8). -/
def sizeMaxBytes : Nat := 8192
/-- `K_MIN` (R8). -/
def kMin : Nat := 1
/-- `K_MAX` (R8). -/
def kMax : Nat := 16
/-- `LANES`, the candidate lanes of the index deriver (R8). -/
def lanes : Nat := 16
/-- `DIGEST_BYTES` (R8). -/
def digestBytes : Nat := 32
/-- `MAX_ITEM_LEN` = 2^24 − 1 (R8). -/
def maxItemLen : Nat := 16777215
/-- `STAGING_BYTES`: the decode staging buffer (R8). -/
def stagingBytes : Nat := 8193

/-- The parameters in which one build of the engine differs from another (R9, R33). The commands, the step and the machine
take it (`execFor`, `stepFor`, `coreFor`), and may assume of `digestFn` only what its type says (R161). -/
structure Build where
  /-- `DIGEST_FN`: a total, deterministic function of the item bytes with a 32-byte result (R9). -/
  digestFn : List Byte → Digest
  /-- `DIGEST_ID`, the name of that function in CAPS (R33). -/
  digestId : BitVec 8

/-- FREE VALUE (DESIGN CHOICE, log 10). The command word transferred when the host changed `cmd_data` or dropped `cmd_valid` before
the transfer (R77, U8: "any value for the transferred word or byte"). The argument is State's `freeCount`. -/
opaque unstableWord : Nat → Word

/-- FREE VALUE (DESIGN CHOICE, log 10). The payload byte transferred when the host broke the hold rule on `din` (R77, U8). -/
opaque unstableByte : Nat → Byte

end Sys2Proof.Config
end

