-- ==== Sys2Proof/Syntax.lean ====
section
/-! DEFINITION. The nine commands of the opcode map (R106), one constructor per row of spec/opcode_table.json. -/

namespace Sys2Proof

/-- A command with its operands. Every operand is an unsigned number with no offset (R105); `Instr.wf` says which
numbers fit their fields. The payload is not part of the word (R100). -/
inductive Instr where
  /-- NOP, format Z (R101, R250). -/
  | nop
  /-- CONSTRUCT, format C: `SZ`, the requested size in bytes, and `KF`, the requested k (R102, R200). -/
  | construct (sz kf : Nat)
  /-- INSERT, format L: `LEN` item bytes follow (R103, R202). -/
  | insert (len : Nat)
  /-- QUERY, format L: `LEN` item bytes follow (R103, R203). -/
  | query (len : Nat)
  /-- INSERT_DIGEST, format Z: 32 digest bytes follow (R101, R204). -/
  | insertDigest
  /-- QUERY_DIGEST, format Z: 32 digest bytes follow (R101, R205). -/
  | queryDigest
  /-- ENCODE, format Z (R101, R230). -/
  | encode
  /-- DECODE, format L: `LEN` blob bytes follow (R103, R231). -/
  | decode (len : Nat)
  /-- READ_REG, format S: the register selector `SEL` (R104, R251). -/
  | readReg (sel : Nat)
deriving DecidableEq, Repr

end Sys2Proof
end

