-- ==== Sys2Proof/WellFormed.lean ====
section
/-! DEFINITION. Which commands can be written as a command word: each operand fits its field (R102–R105). -/

namespace Sys2Proof

/-- Each operand fits its field: `SZ` 16 bits and `KF` 8 bits (R102), `LEN` 24 bits (R103), `SEL` 8 bits (R104).
"Values of the source's int operands outside a field's range … cannot be written" (R105), and the assembler refuses
an operand that does not fit its field (R116). -/
def Instr.wf : Instr → Bool
  | .nop => true
  | .construct sz kf => decide (sz < 65536) && decide (kf < 256)
  | .insert len => decide (len < 16777216)
  | .query len => decide (len < 16777216)
  | .insertDigest => true
  | .queryDigest => true
  | .encode => true
  | .decode len => decide (len < 16777216)
  | .readReg sel => decide (sel < 256)

end Sys2Proof
end

