-- ==== Sys2Proof/Decode.lean ====
section
/-! DEFINITION. Command words: fields, payload length, the decoder, the opcode table as data, and the encoder. -/

namespace Sys2Proof

/-- Why a word is not a command: the two rejections of R109 and R110. -/
inductive DecodeError where
  /-- `OP` in 0x9..0xF (R110). -/
  | undefinedOpcode
  /-- A defined opcode with a reserved bit set (R109). -/
  | reservedBits
deriving DecidableEq, Repr

/-! ### The fields of the formats (R101–R104), each an unsigned number taken straight from its bits (R105) -/

/-- `OP = w[31:28]` (R100), as the 4 bits that the response echoes (R113). -/
def opField (w : Word) : BitVec 4 := w.extractLsb' 28 4

/-- `OP` as a number. -/
def opNum (w : Word) : Nat := (opField w).toNat

/-- `RSV = w[27:0]` of format Z (R101). -/
def rsvZ (w : Word) : Nat := (w.extractLsb' 0 28).toNat

/-- `RSV = w[27:24]` of formats C and L (R102, R103). -/
def rsvCL (w : Word) : Nat := (w.extractLsb' 24 4).toNat

/-- `RSV = w[27:8]` of format S (R104). -/
def rsvS (w : Word) : Nat := (w.extractLsb' 8 20).toNat

/-- `KF = w[23:16]` of format C (R102). -/
def kfField (w : Word) : Nat := (w.extractLsb' 16 8).toNat

/-- `SZ = w[15:0]` of format C (R102). -/
def szField (w : Word) : Nat := (w.extractLsb' 0 16).toNat

/-- `LEN = w[23:0]` of format L (R103). -/
def lenField (w : Word) : Nat := (w.extractLsb' 0 24).toNat

/-- `SEL = w[7:0]` of format S (R104). -/
def selField (w : Word) : Nat := (w.extractLsb' 0 8).toNat

/-- `payload_len(w)`, a total function of the command word (R107). The reserved bits do not enter it. -/
def payloadLen (w : Word) : Nat :=
  match opNum w with
  | 2 => lenField w
  | 3 => lenField w
  | 7 => lenField w
  | 4 => 32
  | 5 => 32
  | _ => 0

/-- Accept the command `i` when the reserved field is 0, and reject the word otherwise (R109). -/
def checkReserved (rsv : Nat) (i : Instr) : Except DecodeError Instr :=
  if rsv = 0 then .ok i else .error .reservedBits

/-- The decoder: it picks the command from `OP` alone (R106), then checks the format's reserved field (R101–R104,
R109). Total on all 2^32 words (R111). -/
def decodeWord (w : Word) : Except DecodeError Instr :=
  match opNum w with
  | 0 => checkReserved (rsvZ w) .nop
  | 1 => checkReserved (rsvCL w) (.construct (szField w) (kfField w))
  | 2 => checkReserved (rsvCL w) (.insert (lenField w))
  | 3 => checkReserved (rsvCL w) (.query (lenField w))
  | 4 => checkReserved (rsvZ w) .insertDigest
  | 5 => checkReserved (rsvZ w) .queryDigest
  | 6 => checkReserved (rsvZ w) .encode
  | 7 => checkReserved (rsvCL w) (.decode (lenField w))
  | 8 => checkReserved (rsvS w) (.readReg (selField w))
  | _ => .error .undefinedOpcode

/-- The opcode of each command (R106). -/
def Instr.opcode : Instr → BitVec 4
  | .nop => 0x0
  | .construct _ _ => 0x1
  | .insert _ => 0x2
  | .query _ => 0x3
  | .insertDigest => 0x4
  | .queryDigest => 0x5
  | .encode => 0x6
  | .decode _ => 0x7
  | .readReg _ => 0x8

/-- The operand bits of each command's word, in the fields of its format (R101–R104). -/
def Instr.operandBits : Instr → Word
  | .nop => 0
  | .construct sz kf => BitVec.ofNat 32 kf <<< 16 ||| BitVec.ofNat 32 sz
  | .insert len => BitVec.ofNat 32 len
  | .query len => BitVec.ofNat 32 len
  | .insertDigest => 0
  | .queryDigest => 0
  | .encode => 0
  | .decode len => BitVec.ofNat 32 len
  | .readReg sel => BitVec.ofNat 32 sel

/-- The encoder: `OP << 28` with the operand fields below it (R100–R104, R116). -/
def encode (i : Instr) : Word := i.opcode.setWidth 32 <<< 28 ||| i.operandBits

/-- One row of the opcode table: a word `w` matches it iff `w AND mask = match` (30_encoding.md, introduction). -/
structure OpcodeRow where
  /-- The row's mnemonic. -/
  mnemonic : String
  /-- The fixed bits' values. -/
  bits : Word
  /-- The OP field and every reserved bit. -/
  mask : Word
deriving DecidableEq, Repr

/-- The opcode table (R106, spec/opcode_table.json), as data. -/
def opcodeTable : List OpcodeRow :=
  [⟨"NOP", 0x00000000, 0xFFFFFFFF⟩, ⟨"CONSTRUCT", 0x10000000, 0xFF000000⟩,
   ⟨"INSERT", 0x20000000, 0xFF000000⟩, ⟨"QUERY", 0x30000000, 0xFF000000⟩,
   ⟨"INSERT_DIGEST", 0x40000000, 0xFFFFFFFF⟩, ⟨"QUERY_DIGEST", 0x50000000, 0xFFFFFFFF⟩,
   ⟨"ENCODE", 0x60000000, 0xFFFFFFFF⟩, ⟨"DECODE", 0x70000000, 0xFF000000⟩,
   ⟨"READ_REG", 0x80000000, 0xFFFFFF00⟩]

/-- A word matches a row of the opcode table. -/
def OpcodeRow.accepts (r : OpcodeRow) (w : Word) : Bool := w &&& r.mask == r.bits

/-- The mnemonic of each command (R106). -/
def Instr.mnemonic : Instr → String
  | .nop => "NOP"
  | .construct _ _ => "CONSTRUCT"
  | .insert _ => "INSERT"
  | .query _ => "QUERY"
  | .insertDigest => "INSERT_DIGEST"
  | .queryDigest => "QUERY_DIGEST"
  | .encode => "ENCODE"
  | .decode _ => "DECODE"
  | .readReg _ => "READ_REG"

/-- The command my decoder reads from a word whose bits are `w`, of `nbits` bits as the opcode table counts them. A
command word travels as one parallel word, so no byte order applies (R63). -/
def decodeTableWord (nbits w : Nat) : Option Instr :=
  match decodeWord (BitVec.ofNat 32 (w % 2 ^ nbits)) with
  | .ok i => some i
  | .error _ => none

end Sys2Proof
end

