-- ==== Sys2Proof/Machine/State.lean ====
section
/-! DEFINITION. The engine's state (10_state.md R20–R36), the host's side of its ports (R67), the reasons a step can
stop, and the state right after reset (R300). -/

namespace Sys2Proof.Machine

/-- The bytes of the bit store in canonical form: addresses strictly rising, and no byte listed that equals what an
unlisted address reads as (DESIGN CHOICE, log 2). -/
abbrev Memory := List Host.Cell

/-- What an unlisted byte of the bit store reads as: 0x00, the fill of CONSTRUCT (R200; DESIGN CHOICE, log 2). -/
def Memory.unlisted : Byte := 0

/-- The canonical form of `Memory`. -/
def Memory.wf : Memory → Bool
  | [] => true
  | [c] => c.2 != Memory.unlisted
  | c :: d :: rest => c.2 != Memory.unlisted && decide (c.1 < d.1) && Memory.wf (d :: rest)

/-- The architectural state `(READY, SIZE_BYTES, K, STORE)` (R20): everything a later command can observe of earlier
commands. -/
structure Arch where
  /-- `READY`: false is "unconfigured", true is "ready" (R21). -/
  ready : Bool
  /-- `SIZE_BYTES`, the length of the bit store in bytes (R22). -/
  sizeBytes : BitVec 14
  /-- `K`, the number of hash values per operation (R23). -/
  k : BitVec 5
  /-- `STORE`: byte `j` for `0 <= j < SIZE_BYTES` (R24). -/
  store : Memory
deriving DecidableEq, Repr

/-- `PHASE`: where the current command is (R35, R68). -/
inductive Phase where
  | idle
  | payload
  | execute
  | output
  | respond
deriving DecidableEq, Repr

/-- One word or byte that the host offers on a channel. `held` says whether the host keeps `valid` and the data
unchanged until the transfer, as R67 asks. Where it does not, the transferred value is a free value (U8; DESIGN CHOICE, log 10). -/
structure Offer (α : Type) where
  /-- What the host offers. -/
  value : α
  /-- Whether the host keeps to the hold rule (R67, R77). -/
  held : Bool
deriving DecidableEq, Repr

/-- The whole state: the architectural state (R20), the controller's hidden state (R35), and the host's side of the
ports of R67 (the model's own fields; DESIGN CHOICE, log 4, 5, 10). The lane file is not state (R34). -/
structure State where
  /-- `(READY, SIZE_BYTES, K, STORE)` (R20). -/
  arch : Arch
  /-- `PHASE` (R35). -/
  phase : Phase
  /-- `CUR_CMD`, the accepted command word (R35). -/
  curCmd : Word
  /-- `REMAIN`, payload bytes still to take (R35). -/
  remain : BitVec 24
  /-- The digest accumulator (R35), held as the payload bytes it has absorbed, oldest first (DESIGN CHOICE, log 7). -/
  digestAcc : List Byte
  /-- `STAGE`, the DECODE staging buffer (R35, R233); when it is emptied: log 23 (DESIGN CHOICE). -/
  stage : List Byte
  /-- The output counter: ENCODE bytes still to emit (R35). -/
  outCount : BitVec 14
  /-- The pending response, held until transferred (R35), or none. -/
  pendingRsp : Option Response
  /-- The reset input `rst` at the next clock edge (R67, R300; DESIGN CHOICE, log 5). -/
  rst : Bool
  /-- The command words the host offers on `cmd`, next first (R67; DESIGN CHOICE, log 4). -/
  cmdIn : List (Offer Word)
  /-- The payload bytes the host offers on `din`, next first (R67, R69; DESIGN CHOICE, log 4). -/
  dinIn : List (Offer Byte)
  /-- How many more output bytes the host takes on `dout` (R67, R77; DESIGN CHOICE, log 4). -/
  doutTakes : Nat
  /-- How many more responses the host takes on `rsp` (R67, R77; DESIGN CHOICE, log 4). -/
  rspTakes : Nat
  /-- The `(dout_data, dout_last)` pairs transferred so far, oldest first (R70; DESIGN CHOICE, log 4). -/
  doutSent : List (Byte × Bool)
  /-- The responses transferred so far, oldest first (R68; DESIGN CHOICE, log 4). -/
  rspSent : List Response
  /-- How many free values the transfers have used (DESIGN CHOICE, log 10). -/
  freeCount : Nat
deriving DecidableEq, Repr

/-- Why a step can stop. The first four are the engine waiting for the host, "the engine having no step (stuck)" (R77,
U11). The others are unreachable from reset. -/
inductive Fault where
  /-- Raised by `step` in IDLE when the host offers no command word. Safe: an IDLE engine with no command offered changes
  no state (R286). -/
  | awaitingCommand
  /-- Raised by `step` in PAYLOAD when the host offers no payload byte (R77). Safe: stuck, never a completion. -/
  | awaitingPayload
  /-- Raised by `step` in OUTPUT when the host does not take the output byte (R77). Safe: stuck. -/
  | awaitingOutputTaken
  /-- Raised by `step` in RESPOND when the host does not take the response (R77). Safe: stuck. -/
  | awaitingResponseTaken
  /-- Raised by BitRead and BitSet for a bit address outside the store (R142, U2). Safe: unreachable. -/
  | bitOutOfRange
  /-- Raised by `step` in EXECUTE while payload bytes are still to take, and by INSERT, QUERY, INSERT_DIGEST, QUERY_DIGEST
  and DECODE when the bytes taken are not the whole payload (R69, R77). Safe: unreachable, and the command is never
  completed. -/
  | payloadIncomplete
  /-- Raised by `step` in RESPOND with no response held (R35). Safe: unreachable. -/
  | noPendingResponse
deriving DecidableEq, Repr

/-- Why an instruction can be refused. -/
inductive Refusal where
  /-- Raised only by an arm of `exec` for an instruction that has no meaning yet. Safe. No arm raises it. -/
  | notModelled (mnemonic : String)
deriving DecidableEq, Repr

/-- The architectural state after reset, the source's "unconstructed (zero) filter" (R21–R24, R300). -/
def Arch.reset : Arch := { ready := false, sizeBytes := 0, k := 0, store := [] }

/-- The state right after reset (R300): the architectural reset values (R21–R24), PHASE IDLE and no pending response
(R35, R300). The discarded hidden state is 0 or empty (DESIGN CHOICE, log 3), and the host offers and takes nothing yet
(DESIGN CHOICE, log 4, 5, 10). -/
def State.reset : State :=
  { arch := Arch.reset
    phase := .idle
    curCmd := 0
    remain := 0
    digestAcc := []
    stage := []
    outCount := 0
    pendingRsp := none
    rst := false
    cmdIn := []
    dinIn := []
    doutTakes := 0
    rspTakes := 0
    doutSent := []
    rspSent := []
    freeCount := 0 }

end Sys2Proof.Machine
end

