-- ==== Sys2Proof/Machine/Flags.lean ====
section
/-! DEFINITION. The engine has no flag register (R29): its condition outputs are the CODE, DETAIL and RESULT fields of
each command's response word (R113–R115). -/

namespace Sys2Proof.Machine

/-- The errors a command can report, one per row of R115, and NOT_READY (R114). -/
inductive CommandError where
  /-- CONFIG_ERROR / SIZE_NOT_POW2. -/
  | sizeNotPow2
  /-- CONFIG_ERROR / SIZE_RANGE. -/
  | sizeRange
  /-- CONFIG_ERROR / K_RANGE. -/
  | kRange
  /-- FORMAT_ERROR / EMPTY. -/
  | blobEmpty
  /-- FORMAT_ERROR / SIZE. -/
  | blobSize
  /-- FORMAT_ERROR / K. -/
  | blobK
  /-- NOT_READY. -/
  | notReady
  /-- ILLEGAL_COMMAND / UNDEFINED_OPCODE. -/
  | undefinedOpcode
  /-- ILLEGAL_COMMAND / RESERVED_BITS. -/
  | reservedBits
  /-- ILLEGAL_COMMAND / BAD_SELECTOR. -/
  | badSelector
deriving DecidableEq, Repr

/-- CODE values (R114): CONFIG_ERROR 1, FORMAT_ERROR 2, NOT_READY 3, ILLEGAL_COMMAND 4. -/
def CommandError.code : CommandError → BitVec 4
  | .sizeNotPow2 => 1
  | .sizeRange => 1
  | .kRange => 1
  | .blobEmpty => 2
  | .blobSize => 2
  | .blobK => 2
  | .notReady => 3
  | .undefinedOpcode => 4
  | .reservedBits => 4
  | .badSelector => 4

/-- DETAIL values (R115); 0 for NOT_READY. -/
def CommandError.detail : CommandError → BitVec 4
  | .sizeNotPow2 => 1
  | .sizeRange => 2
  | .kRange => 3
  | .blobEmpty => 1
  | .blobSize => 2
  | .blobK => 3
  | .notReady => 0
  | .undefinedOpcode => 1
  | .reservedBits => 2
  | .badSelector => 3

/-- The CODE of a command that succeeds (R114). -/
def codeOk : BitVec 4 := 0

/-- `STATUS = zext_32(code[3:0]) | detail[3:0] << 4 | result[0] << 8 | OP << 12` (R113). -/
def statusWord (op code detail : BitVec 4) (result : Bool) : Word :=
  code.setWidth 32 ||| detail.setWidth 32 <<< 4 ||| (BitVec.ofBool result).setWidth 32 <<< 8 ||| op.setWidth 32 <<< 12

/-- `r = zext_64(value) << 32 | zext_64(STATUS)` (R113). -/
def responseWord (op code detail : BitVec 4) (result : Bool) (value : Word) : Response :=
  value.setWidth 64 <<< 32 ||| (statusWord op code detail result).setWidth 64

end Sys2Proof.Machine
end

