-- ==== Sys2Proof/Machine/Ops.lean ====
section
/-! DEFINITION. The named operations over the bit store (40_bit_store.md), the filter and the controller, and the ONE
operation that ends a command with an error (60_exceptions.md R275). -/

namespace Sys2Proof.Machine

/-! ### The bytes of the bit store (DESIGN CHOICE, log 2) -/

/-- The byte at address `a`. -/
def Memory.read : Memory → Nat → Byte
  | [], _ => Memory.unlisted
  | c :: m, a => if c.1 = a then c.2 else Memory.read m a

/-- The entry of `m` for address `a`, or none where the value is what an unlisted address reads as. -/
def Memory.cell (a : Nat) (v : Byte) (m : Memory) : Memory :=
  if v = Memory.unlisted then m else (a, v) :: m

/-- Write the byte `v` at address `a`, keeping the canonical form. -/
def Memory.write : Memory → Nat → Byte → Memory
  | [], a, v => Memory.cell a v []
  | c :: m, a, v =>
    if a < c.1 then Memory.cell a v (c :: m)
    else if a = c.1 then Memory.cell a v m
    else c :: Memory.write m a v

/-- The bytes of `bs` written at addresses `j`, `j + 1`, … of an empty memory. -/
def Memory.ofBytesFrom : Nat → List Byte → Memory
  | _, [] => []
  | j, b :: bs => Memory.cell j b (Memory.ofBytesFrom (j + 1) bs)

/-- The memory whose byte `j` is `B[j]`: what `StoreReplace(B)` writes (R146). -/
def Memory.ofBytes (bs : List Byte) : Memory := Memory.ofBytesFrom 0 bs

/-- `zeros(n)` (R11) as a memory, for every `n`: no byte differs from 0x00. -/
def Memory.zeros : Memory := []

/-! ### The primitives of 40_bit_store.md. `none` is an access outside the store, which R142 makes a fault. -/

/-- `MemRead(j, 1)` (R144), for `0 <= j < SIZE_BYTES`. -/
def Arch.memRead (a : Arch) (j : Nat) : Option Byte :=
  if j < a.sizeBytes.toNat then some (a.store.read j) else none

/-- `MemWrite(j, 1, v)` (R145), for `0 <= j < SIZE_BYTES`. -/
def Arch.memWrite (a : Arch) (j : Nat) (v : Byte) : Option Arch :=
  if j < a.sizeBytes.toNat then some { a with store := a.store.write j v } else none

/-- `BitRead(n)`: bit `n AND 7` of `STORE[n >> 3]` (R140, R61). -/
def Arch.bitRead (a : Arch) (n : Nat) : Option Bool :=
  match a.memRead (n >>> 3) with
  | none => none
  | some b => some (b.getLsbD (n &&& 7))

/-- `BitSet(n)`: `STORE[n >> 3] <- STORE[n >> 3] OR (1 << (n AND 7))` (R141). -/
def Arch.bitSet (a : Arch) (n : Nat) : Option Arch :=
  match a.memRead (n >>> 3) with
  | none => none
  | some b => a.memWrite (n >>> 3) (b ||| (1 : Byte) <<< (n &&& 7))

/-- `BitSet` at every address of a list, one at a time; equal to the merged form of R143. -/
def Arch.setBits (a : Arch) : List Nat → Option Arch
  | [] => some a
  | n :: ns =>
    match a.bitSet n with
    | none => none
    | some a' => a'.setBits ns

/-- The AND of `BitRead` over every address of a list; every bit is read (R206). -/
def Arch.allBits (a : Arch) : List Nat → Option Bool
  | [] => some true
  | n :: ns =>
    match a.bitRead n, a.allBits ns with
    | some b, some r => some (b && r)
    | _, _ => none

/-- The filter that a successful CONSTRUCT or DECODE leaves: `StoreReplace`, then SIZE_BYTES, K and READY (R146, R200,
R231). -/
def Arch.replaced (size k : Nat) (store : Memory) : Arch :=
  { ready := true, sizeBytes := BitVec.ofNat 14 size, k := BitVec.ofNat 5 k, store := store }

/-- Byte `j` of the blob `STORE[0] ++ … ++ STORE[SIZE_BYTES−1] ++ [K]` (R62). -/
def Arch.blobByte (a : Arch) (j : Nat) : Byte :=
  match a.memRead j with
  | some b => b
  | none => a.k.setWidth 8

/-- The blob of a filter (R62): `SIZE_BYTES + 1` bytes. -/
def Arch.blob (a : Arch) : List Byte := (List.range (a.sizeBytes.toNat + 1)).map a.blobByte

/-! ### Ending a command -/

/-- Hold the response `r` until the host takes it (R35) and go to RESPOND (R68). -/
def State.respond (s : State) (r : Response) : State := { s with phase := .respond, pendingRsp := some r }

/-- Hold the response `r` and go to OUTPUT with `n` bytes to emit (R68, R70). -/
def State.beginOutput (s : State) (n : Nat) (r : Response) : State :=
  { s with phase := .output, outCount := BitVec.ofNat 14 n, pendingRsp := some r }

/-- Replace the architectural state. -/
def State.withArch (s : State) (a : Arch) : State := { s with arch := a }

/-- `respond(OK, 0, result, value)` (R113, R12). -/
def succeed (op : BitVec 4) (result : Bool) (value : Word) (s : State) : Host.Outcome State Fault Refusal :=
  .next (s.respond (responseWord op codeOk 0 result value))

/-- `raise E(detail)` (R275): no architectural state changes, no byte is emitted, and the response is
`respond(E, detail, 0, 0)`. The payload has been consumed before EXECUTE (R69). There is no trap, and nothing is saved
(R277). -/
def raise (op : BitVec 4) (e : CommandError) (s : State) : Host.Outcome State Fault Refusal :=
  .next (s.respond (responseWord op e.code e.detail false 0))

end Sys2Proof.Machine
end

