-- ==== Sys2Proof/Machine/Sha256.lean ====
section
/-! DEFINITION. SHA-256 (42_digest_sha256.md R180–R186), the build's instance of the parameter `DIGEST_FN` (R9). The
spec marks this file's rules as general knowledge (PRESUMED, log 8). -/

namespace Sys2Proof.Machine.Sha256

/-- `ROTR(x, n) = (x >> n) OR (x << (32 − n))` (R180). -/
def rotr (x : Word) (n : Nat) : Word := x >>> n ||| x <<< (32 - n)

/-- A word formed from 4 bytes big-endian (R180). -/
def wordOf (b0 b1 b2 b3 : Byte) : Word :=
  b0.setWidth 32 <<< 24 ||| b1.setWidth 32 <<< 16 ||| b2.setWidth 32 <<< 8 ||| b3.setWidth 32

/-- The big-endian words of a byte sequence (R180). -/
def wordsOf : List Byte → List Word
  | b0 :: b1 :: b2 :: b3 :: rest => wordOf b0 b1 b2 b3 :: wordsOf rest
  | _ => []

/-- The low `n` bytes of a number, most significant first. -/
def bytesBE (n x : Nat) : List Byte := (List.range n).map fun i => BitVec.ofNat 8 (x >>> (8 * (n - 1 - i)))

/-- How many 0x00 bytes the padding takes: the fewest that make the length ≡ 56 (mod 64) after the 0x80 byte (R181). -/
def padZeros (len : Nat) : Nat := (119 - len % 64) % 64

/-- The padded message (R181). -/
def pad (m : List Byte) : List Byte :=
  m ++ [0x80] ++ List.replicate (padZeros m.length) 0x00 ++ bytesBE 8 (8 * m.length)

/-- The first `n` 64-byte blocks of a padded message (R181). -/
def blocks : Nat → List Byte → List (List Byte)
  | 0, _ => []
  | n + 1, m => m.take 64 :: blocks n (m.drop 64)

/-- The initial hash value `H0[0..7]` (R182). -/
def initialHash : List Word :=
  [0x6a09e667, 0xbb67ae85, 0x3c6ef372, 0xa54ff53a, 0x510e527f, 0x9b05688c, 0x1f83d9ab, 0x5be0cd19]

/-- The round constants `Kc[0..63]` (R183). -/
def roundConstants : List Word :=
  [0x428a2f98, 0x71374491, 0xb5c0fbcf, 0xe9b5dba5, 0x3956c25b, 0x59f111f1, 0x923f82a4, 0xab1c5ed5] ++
  [0xd807aa98, 0x12835b01, 0x243185be, 0x550c7dc3, 0x72be5d74, 0x80deb1fe, 0x9bdc06a7, 0xc19bf174] ++
  [0xe49b69c1, 0xefbe4786, 0x0fc19dc6, 0x240ca1cc, 0x2de92c6f, 0x4a7484aa, 0x5cb0a9dc, 0x76f988da] ++
  [0x983e5152, 0xa831c66d, 0xb00327c8, 0xbf597fc7, 0xc6e00bf3, 0xd5a79147, 0x06ca6351, 0x14292967] ++
  [0x27b70a85, 0x2e1b2138, 0x4d2c6dfc, 0x53380d13, 0x650a7354, 0x766a0abb, 0x81c2c92e, 0x92722c85] ++
  [0xa2bfe8a1, 0xa81a664b, 0xc24b8b70, 0xc76c51a3, 0xd192e819, 0xd6990624, 0xf40e3585, 0x106aa070] ++
  [0x19a4c116, 0x1e376c08, 0x2748774c, 0x34b0bcb5, 0x391c0cb3, 0x4ed8aa4a, 0x5b9cca4f, 0x682e6ff3] ++
  [0x748f82ee, 0x78a5636f, 0x84c87814, 0x8cc70208, 0x90befffa, 0xa4506ceb, 0xbef9a3f7, 0xc67178f2]

/-- `s0` of the message schedule (R184). -/
def smallSigma0 (x : Word) : Word := rotr x 7 ^^^ rotr x 18 ^^^ x >>> 3

/-- `s1` of the message schedule (R184). -/
def smallSigma1 (x : Word) : Word := rotr x 17 ^^^ rotr x 19 ^^^ x >>> 10

/-- Extend a message schedule, held newest word first, by `n` words (R184). -/
def extendSchedule : Nat → List Word → List Word
  | 0, ws => ws
  | n + 1, ws =>
    extendSchedule n
      ((ws.getD 15 0 + smallSigma0 (ws.getD 14 0) + ws.getD 6 0 + smallSigma1 (ws.getD 1 0)) :: ws)

/-- The message schedule `W[0..63]` of a 64-byte block (R184). -/
def schedule (block : List Byte) : List Word := (extendSchedule 48 (wordsOf block).reverse).reverse

/-- The eight working variables `a .. h` of the compression (R185). -/
structure Vars where
  a : Word
  b : Word
  c : Word
  d : Word
  e : Word
  f : Word
  g : Word
  h : Word
deriving DecidableEq, Repr

/-- The working variables of a hash state `H[0..7]` (R185). -/
def Vars.ofHash (hash : List Word) : Vars :=
  ⟨hash.getD 0 0, hash.getD 1 0, hash.getD 2 0, hash.getD 3 0,
   hash.getD 4 0, hash.getD 5 0, hash.getD 6 0, hash.getD 7 0⟩

/-- The hash state of eight words. -/
def Vars.toHash (v : Vars) : List Word := [v.a, v.b, v.c, v.d, v.e, v.f, v.g, v.h]

/-- One round of the compression, with its round constant and schedule word (R185). -/
def round (v : Vars) (kc w : Word) : Vars :=
  let s1 := rotr v.e 6 ^^^ rotr v.e 11 ^^^ rotr v.e 25
  let ch := (v.e &&& v.f) ^^^ (~~~v.e &&& v.g)
  let t1 := v.h + s1 + ch + kc + w
  let s0 := rotr v.a 2 ^^^ rotr v.a 13 ^^^ rotr v.a 22
  let maj := (v.a &&& v.b) ^^^ (v.a &&& v.c) ^^^ (v.b &&& v.c)
  let t2 := s0 + maj
  ⟨t1 + t2, v.a, v.b, v.c, v.d + t1, v.e, v.f, v.g⟩

/-- The compression of one block into the hash state (R185). -/
def compress (hash : List Word) (block : List Byte) : List Word :=
  let v := (roundConstants.zip (schedule block)).foldl (fun v kw => round v kw.1 kw.2) (Vars.ofHash hash)
  List.zipWith (· + ·) hash v.toHash

/-- The hash state after all blocks of the padded message, in block order (R185). -/
def hashOf (m : List Byte) : List Word :=
  (blocks ((pad m).length / 64) (pad m)).foldl compress initialHash

/-- Byte `i` of a hash state, each word big-endian (R186). -/
def hashByte (hash : List Word) (i : Nat) : Byte := (hash.getD (i / 4) 0).extractLsb' (24 - 8 * (i % 4)) 8

/-- SHA-256 of a message: the 32 bytes of `H[0] .. H[7]`, each word big-endian (R186). -/
def digest (m : List Byte) : Digest :=
  let hash := hashOf m
  Vector.ofFn fun i => hashByte hash i.val

end Sys2Proof.Machine.Sha256
end

