-- ==== Sys2Proof/Machine/Operands.lean ====
section
/-! DEFINITION. The operand forms: the payload of each command (R69), the index deriver (41_index_deriver.md) and the
readable registers (R30–R33). -/

namespace Sys2Proof.Machine

/-! ### The digest parameter -/

/-- This build's value of the parameter `DIGEST_FN` (R9): SHA-256 (42_digest_sha256.md; PRESUMED, log 8). Nothing in the model
but this definition and `digestId` names it. -/
def digestFn : List Byte → Digest := Sha256.digest

/-- This build's `CAPS.DIGEST_ID`: 0x01 is SHA-256 (R33). -/
def digestId : BitVec 8 := 0x01

/-- This build of the engine (R9). -/
def thisBuild : Config.Build := { digestFn := digestFn, digestId := digestId }

/-! ### Payloads -/

/-- `item = take(LEN)` of INSERT and QUERY (R160): the bytes the accumulator has absorbed (DESIGN CHOICE, log 7). `none` where the
payload is not whole (R77; DESIGN CHOICE, log 12). -/
def State.payloadItem (s : State) (len : Nat) : Option (List Byte) :=
  if s.digestAcc.length = len then some s.digestAcc else none

/-- A 32-byte sequence as a digest. -/
def digestOfBytes (bs : List Byte) : Option Digest :=
  if h : bs.length = 32 then some ⟨bs.toArray, by simpa using h⟩ else none

/-- `D = take(32)` of INSERT_DIGEST and QUERY_DIGEST (R160, R204, R205). -/
def State.payloadDigest (s : State) : Option Digest := digestOfBytes s.digestAcc

/-- A blob length that can succeed: `L − 1` is a power of two in [1, 8192] (R231), known when the word is accepted (R233). -/
def blobLenOk (len : Nat) : Bool := pow2 (len - 1) && decide (len - 1 ≤ Config.sizeMaxBytes)

/-- `blob = take(L)` of DECODE, from STAGE (R231, R233), as its first `L − 1` bytes and its last byte. -/
def State.payloadBlob (s : State) (len : Nat) : Option (List Byte × Byte) :=
  if s.stage.length = len then
    match s.stage[len - 1]? with
    | none => none
    | some kb => some (s.stage.take (len - 1), kb)
  else none

/-! ### The index deriver -/

/-- The lane file (R34): not architectural state, computed inside the command's step. -/
structure LaneFile where
  /-- `cand[0..15]` (R162). -/
  cand : Vector (BitVec 16) 16
  /-- `idx[0..15]` (R163). -/
  idx : Vector (BitVec 16) 16
  /-- The lane-enable mask (R164). -/
  en : BitVec 16
deriving DecidableEq, Repr

/-- `cand[i] = zext_16(D[2i]) << 8 | zext_16(D[2i+1])` (R162). -/
def candidate (d : Digest) (i : Fin 16) : BitVec 16 :=
  (d[2 * i.val]'(by omega)).setWidth 16 <<< 8 ||| (d[2 * i.val + 1]'(by omega)).setWidth 16

/-- `MASK = zext_16(SIZE_BYTES * 8 − 1)` (R163). -/
def Arch.indexMask (a : Arch) : BitVec 16 := BitVec.ofNat 16 (a.sizeBytes.toNat * 8 - 1)

/-- `idx[i] = cand[i] AND MASK` (R163). -/
def Arch.maskedIndex (a : Arch) (d : Digest) (i : Fin 16) : BitVec 16 := candidate d i &&& a.indexMask

/-- `en = (1 << K) − 1` (R164). -/
def Arch.laneEnable (a : Arch) : BitVec 16 := BitVec.ofNat 16 (1 <<< a.k.toNat - 1)

/-- All 16 lanes, whatever K is (R162, R166). -/
def Arch.laneFile (a : Arch) (d : Digest) : LaneFile :=
  { cand := Vector.ofFn (candidate d), idx := Vector.ofFn (a.maskedIndex d), en := a.laneEnable }

/-- The enabled lanes, in lane order (R164). -/
def Arch.enabledLanes (a : Arch) : List (Fin 16) :=
  (List.finRange 16).filter fun i => a.laneEnable.getLsbD i.val

/-- `Derive(D) = [idx[0], …, idx[K−1]]` (R165). -/
def Arch.derive (a : Arch) (d : Digest) : List Nat :=
  a.enabledLanes.map fun i => ((a.laneFile d).idx[i.val]).toNat

/-- The insert unit: set the bits that a digest derives (R202, R204). -/
def Arch.insertDigest (a : Arch) (d : Digest) : Option Arch := a.setBits (a.derive d)

/-- The query unit: the AND of the bits that a digest derives (R203, R205). -/
def Arch.queryDigest (a : Arch) (d : Digest) : Option Bool := a.allBits (a.derive d)

/-! ### The readable registers -/

/-- `ID` (R31): TAG "BLM" and REV 0x07. -/
def regId : Word := 0x424C4D07

/-- `CONFIG = READY << 31 | K << 16 | SIZE_BYTES` (R32). -/
def Arch.regConfig (a : Arch) : Word :=
  (BitVec.ofBool a.ready).setWidth 32 <<< 31 ||| a.k.setWidth 32 <<< 16 ||| a.sizeBytes.setWidth 32

/-- `CAPS` of a build (R33): MAX_SIZE_LOG2 13, MAX_K, DIGEST_ID and LANES. -/
def regCapsFor (b : Config.Build) : Word :=
  BitVec.ofNat 32 Config.lanes <<< 24 ||| b.digestId.setWidth 32 <<< 16 ||| BitVec.ofNat 32 Config.kMax <<< 8 ||| 13

/-- `CAPS` of this build (R33). -/
def regCaps : Word := regCapsFor thisBuild

/-- The register that `SEL` selects (R30): the one operation that reads registers. `none` is no register. -/
def Arch.readRegisterFor (b : Config.Build) (a : Arch) (sel : Nat) : Option Word :=
  match sel with
  | 0 => some regId
  | 1 => some a.regConfig
  | 2 => some (regCapsFor b)
  | _ => none

/-- The register that `SEL` selects in this build (R30). -/
def Arch.readRegister (a : Arch) (sel : Nat) : Option Word := a.readRegisterFor thisBuild sel

end Sys2Proof.Machine
end

