-- ==== Sys2Proof/Machine/Channels.lean ====
section
/-! DEFINITION. The channels (20_memory.md R67–R70), the phases that move data over them (R68), and the reset edge
(R300). -/

namespace Sys2Proof.Machine

/-! ### The ports of R67, as functions of the state

A transfer happens at an edge where `valid` and `ready` of its channel are 1 (R67). At a clock edge the engine makes its move
(`moves` = 1) or is still busy, and at a busy edge it takes no payload byte and offers no output byte: `din_ready` and
`dout_valid` are 0 there. Every `step` is an edge at which it moves, and `dinReady` and `doutValid` are the levels there.

While `rst` = 1 every valid and ready is 0 (R300). The spec gives a data port no level while its valid is 0, `rst` = 1 among
those cases: what `doutData`, `doutLast` and `rspData` are then is the model's (DESIGN CHOICE, log 22). -/

/-- `cmd_ready`: 1 only in PHASE IDLE (R67). -/
def State.cmdReady (s : State) : Bool := !s.rst && s.phase == .idle

/-- `din_ready` at a clock edge: 0 outside PHASE PAYLOAD (R67), and 0 where the engine holds it at 0 for a while, being busy
(R68; DEDUCED, log 14). -/
def State.dinReadyAt (s : State) (moves : Bool) : Bool := !s.rst && s.phase == .payload && moves

/-- `din_ready` at an edge at which the engine makes its move: 1 in every PAYLOAD state (R68; DEDUCED, log 14). -/
def State.dinReady (s : State) : Bool := s.dinReadyAt true

/-- `dout_valid` at a clock edge: only in PHASE OUTPUT (R67), and 0 where the engine is still busy with the byte. The spec does
not say at which cycles of OUTPUT it is 1 (R68, R308; DESIGN CHOICE, log 14). -/
def State.doutValidAt (s : State) (moves : Bool) : Bool := !s.rst && s.phase == .output && moves

/-- `dout_valid` at an edge at which the engine makes its move: 1 in every OUTPUT state (DESIGN CHOICE, log 14). -/
def State.doutValid (s : State) : Bool := s.doutValidAt true

/-- `dout_data`: the next byte of the blob, when the counter says how many are still to come (R70, R230). The same expression
where `dout_valid` is 0, where the spec gives no level (R67, R300; DESIGN CHOICE, log 22). -/
def State.doutData (s : State) : Byte := s.arch.blobByte (s.arch.sizeBytes.toNat + 1 - s.outCount.toNat)

/-- `dout_last`: 1 exactly on the final byte of the command's output (R70). The same expression where `dout_valid` is 0, where
the spec gives no level (R67, R300; DESIGN CHOICE, log 22). -/
def State.doutLast (s : State) : Bool := s.outCount == 1

/-- `rsp_valid`: only in PHASE RESPOND (R67). -/
def State.rspValid (s : State) : Bool := !s.rst && s.phase == .respond && s.pendingRsp.isSome

/-- `rsp_data`: the pending response (R67). The same expression where `rsp_valid` is 0, where the spec gives no level: already
the response in OUTPUT, `none` where none is pending (R67, R300; DESIGN CHOICE, log 22). -/
def State.rspData (s : State) : Option Response := s.pendingRsp

/-- `cmd_valid`: the host offers a command word (R67; DESIGN CHOICE, log 4). -/
def State.cmdValid (s : State) : Bool := !s.cmdIn.isEmpty

/-- `din_valid`: the host offers a payload byte (R67; DESIGN CHOICE, log 4). -/
def State.dinValid (s : State) : Bool := !s.dinIn.isEmpty

/-- `dout_ready`: the host takes an output byte (R67; DESIGN CHOICE, log 4). -/
def State.doutReady (s : State) : Bool := decide (0 < s.doutTakes)

/-- `rsp_ready`: the host takes a response (R67; DESIGN CHOICE, log 4). -/
def State.rspReady (s : State) : Bool := decide (0 < s.rspTakes)

/-! ### Transfers -/

/-- The word a `cmd` transfer delivers: the offered one, or a free value where the host broke the hold rule (U8; DESIGN CHOICE, log 10). -/
def transferredWord (o : Offer Word) (n : Nat) : Word := if o.held then o.value else Config.unstableWord n

/-- The byte a `din` transfer delivers (U8; DESIGN CHOICE, log 10). -/
def transferredByte (o : Offer Byte) (n : Nat) : Byte := if o.held then o.value else Config.unstableByte n

/-- The free-value counter after a transfer of an offer (DESIGN CHOICE, log 10). -/
def countAfter (held : Bool) (n : Nat) : Nat := if held then n else n + 1

/-- `CUR_CMD <- w; REMAIN <- payload_len(w); PHASE <- (REMAIN > 0) ? PAYLOAD : EXECUTE` (R68). The accumulator and STAGE are
emptied here, at the acceptance of any word, and not before: the spec says of neither when it is emptied (R35, R68, R233; DESIGN
CHOICE, log 23). -/
def State.acceptWord (s : State) (w : Word) : State :=
  { s with
    curCmd := w
    remain := BitVec.ofNat 24 (payloadLen w)
    digestAcc := []
    stage := []
    phase := if 0 < payloadLen w then .payload else .execute }

/-- Where a payload byte goes: STAGE for a DECODE whose length can succeed (its k byte too; DESIGN CHOICE, log 23), nowhere for
any other DECODE (R233), and the digest accumulator for the other commands with a payload (R35; DESIGN CHOICE, log 7). -/
def State.absorb (s : State) (b : Byte) : State :=
  match opNum s.curCmd with
  | 7 => if blobLenOk (payloadLen s.curCmd) then { s with stage := s.stage ++ [b] } else s
  | _ => { s with digestAcc := s.digestAcc ++ [b] }

/-- `REMAIN <- REMAIN - 1. When REMAIN = 0: PHASE <- EXECUTE` (R68). -/
def State.countByte (s : State) : State :=
  { s with remain := s.remain - 1, phase := if s.remain = 1 then .execute else .payload }

/-- IDLE (R68): accept the word the host offers, or wait. -/
def stepIdle (s : State) : Host.Outcome State Fault Refusal :=
  match s.cmdIn with
  | [] => .fault .awaitingCommand
  | o :: rest =>
    .next ({ s with cmdIn := rest, freeCount := countAfter o.held s.freeCount }.acceptWord
      (transferredWord o s.freeCount))

/-- PAYLOAD (R68, R69): take the byte the host offers, or wait. With nothing left to take the phase is over (DESIGN CHOICE, log 12). -/
def stepPayload (s : State) : Host.Outcome State Fault Refusal :=
  if s.remain = 0 then .next { s with phase := .execute }
  else
    match s.dinIn with
    | [] => .fault .awaitingPayload
    | o :: rest =>
      .next (({ s with dinIn := rest, freeCount := countAfter o.held s.freeCount }.absorb
        (transferredByte o s.freeCount)).countByte)

/-- OUTPUT (R68, R70): send the next byte to a host that takes it, or wait. With nothing left to send the phase is over
(DESIGN CHOICE, log 12). -/
def stepOutput (s : State) : Host.Outcome State Fault Refusal :=
  if s.outCount = 0 then .next { s with phase := .respond }
  else if s.doutTakes = 0 then .fault .awaitingOutputTaken
  else
    .next { s with
      doutSent := s.doutSent ++ [(s.doutData, s.doutLast)]
      doutTakes := s.doutTakes - 1
      outCount := s.outCount - 1
      phase := if s.outCount = 1 then .respond else .output }

/-- RESPOND (R68): send the pending response to a host that takes it, or wait. It is not kept afterwards (R29). -/
def stepRespond (s : State) : Host.Outcome State Fault Refusal :=
  match s.pendingRsp with
  | none => .fault .noPendingResponse
  | some r =>
    if s.rspTakes = 0 then .fault .awaitingResponseTaken
    else
      .next { s with
        rspSent := s.rspSent ++ [r]
        rspTakes := s.rspTakes - 1
        pendingRsp := none
        phase := .idle }

/-- A clock edge with `rst` = 1 (R300): the engine's state is the reset state, whatever it was doing; no response and no
output byte is sent. What the host offers and has received is the host's own, and `rst` has been seen (DESIGN CHOICE, log 5). -/
def State.resetEdge (s : State) : State :=
  { State.reset with
    cmdIn := s.cmdIn
    dinIn := s.dinIn
    doutTakes := s.doutTakes
    rspTakes := s.rspTakes
    doutSent := s.doutSent
    rspSent := s.rspSent
    freeCount := s.freeCount }

/-- The state in which the command word `w` has been accepted with a payload of zeros: EXECUTE is next (DESIGN CHOICE, log 11). -/
def State.placeWord (s : State) (w : Word) : State :=
  { s with
    phase := .execute
    curCmd := w
    remain := 0
    rst := false
    digestAcc := if opNum w = 7 then [] else List.replicate (payloadLen w) 0
    stage := if opNum w = 7 ∧ blobLenOk (payloadLen w) = true then List.replicate (payloadLen w) 0 else [] }

end Sys2Proof.Machine
end

