-- ==== Sys2Proof/Machine/Codec.lean ====
section
/-! DEFINITION. The codec (44_codec.md): ENCODE and DECODE. -/

namespace Sys2Proof.Machine

/-- ENCODE (R230): NOT_READY emits nothing. Otherwise `SIZE_BYTES + 1` bytes go out in the OUTPUT phase, before the
response, whose VALUE is that number. -/
def execEncode (s : State) : Host.Outcome State Fault Refusal :=
  if s.arch.ready = false then raise 0x6 .notReady s
  else
    let n := s.arch.sizeBytes.toNat + 1
    .next (s.beginOutput n (responseWord 0x6 codeOk 0 false (BitVec.ofNat 32 n)))

/-- DECODE (R231): EMPTY, SIZE and K in the order of R276, then the filter that the blob describes, all-or-nothing. -/
def execDecode (len : Nat) (s : State) : Host.Outcome State Fault Refusal :=
  if len = 0 then raise 0x7 .blobEmpty s
  else if blobLenOk len = false then raise 0x7 .blobSize s
  else
    match s.payloadBlob len with
    | none => .fault .payloadIncomplete
    | some (bits, kb) =>
      if kb.toNat < Config.kMin ∨ Config.kMax < kb.toNat then raise 0x7 .blobK s
      else succeed 0x7 false 0 (s.withArch (Arch.replaced (len - 1) kb.toNat (Memory.ofBytes bits)))

end Sys2Proof.Machine
end

