-- ==== Sys2Proof/Machine/Control.lean ====
section
/-! DEFINITION. The control commands NOP and READ_REG (45_control.md), and the answer to a word that is no command. -/

namespace Sys2Proof.Machine

/-- NOP (R250): do nothing and respond. -/
def execNop (s : State) : Host.Outcome State Fault Refusal := succeed 0x0 false 0 s

/-- READ_REG (R251): VALUE is the selected register; a selector above 0x02 is BAD_SELECTOR. -/
def execReadRegFor (b : Config.Build) (sel : Nat) (s : State) : Host.Outcome State Fault Refusal :=
  match s.arch.readRegisterFor b sel with
  | some v => succeed 0x8 false v s
  | none => raise 0x8 .badSelector s

/-- READ_REG in this build (R251). -/
def execReadReg (sel : Nat) (s : State) : Host.Outcome State Fault Refusal := execReadRegFor thisBuild sel s

/-- The answer to an accepted word that is no command: ILLEGAL_COMMAND with UNDEFINED_OPCODE (R252) or RESERVED_BITS
(R253). The response echoes `w[31:28]`, and the payload has been consumed and is discarded. -/
def rejectWord (e : DecodeError) (s : State) : Host.Outcome State Fault Refusal :=
  match e with
  | .undefinedOpcode => raise (opField s.curCmd) .undefinedOpcode s
  | .reservedBits => raise (opField s.curCmd) .reservedBits s

end Sys2Proof.Machine
end

