-- ==== Sys2Proof/Machine/FilterOps.lean ====
section
/-! DEFINITION. The filter operations (43_filter_ops.md): CONSTRUCT, INSERT, QUERY, INSERT_DIGEST and QUERY_DIGEST. The
reserved bits have been checked by the decoder before any of them runs (R276). -/

namespace Sys2Proof.Machine

/-- CONSTRUCT (R200): the checks in the order of R276, then an empty filter of `SZ` bytes and `KF` hash values. -/
def execConstruct (sz kf : Nat) (s : State) : Host.Outcome State Fault Refusal :=
  if pow2 sz = false then raise 0x1 .sizeNotPow2 s
  else if Config.sizeMaxBytes < sz then raise 0x1 .sizeRange s
  else if kf < Config.kMin ∨ Config.kMax < kf then raise 0x1 .kRange s
  else succeed 0x1 false 0 (s.withArch (Arch.replaced sz kf Memory.zeros))

/-- The insert unit's end of INSERT and INSERT_DIGEST: all K sets take effect together (R143, R202, R204). A bit outside
the store is a fault (R142). -/
def insertUnit (op : BitVec 4) (d : Digest) (s : State) : Host.Outcome State Fault Refusal :=
  match s.arch.insertDigest d with
  | some a => succeed op false 0 (s.withArch a)
  | none => .fault .bitOutOfRange

/-- The query unit's end of QUERY and QUERY_DIGEST: RESULT is the AND of the K bits (R203, R205, R206). -/
def queryUnit (op : BitVec 4) (d : Digest) (s : State) : Host.Outcome State Fault Refusal :=
  match s.arch.queryDigest d with
  | some r => succeed op r 0 s
  | none => .fault .bitOutOfRange

/-- INSERT (R202), for any `DIGEST_FN` (R161). -/
def execInsertFor (b : Config.Build) (len : Nat) (s : State) : Host.Outcome State Fault Refusal :=
  if s.arch.ready = false then raise 0x2 .notReady s
  else
    match s.payloadItem len with
    | none => .fault .payloadIncomplete
    | some item => insertUnit 0x2 (b.digestFn item) s

/-- INSERT in this build (R202). -/
def execInsert (len : Nat) (s : State) : Host.Outcome State Fault Refusal := execInsertFor thisBuild len s

/-- QUERY (R203), the source's MaybeContains, for any `DIGEST_FN` (R161). -/
def execQueryFor (b : Config.Build) (len : Nat) (s : State) : Host.Outcome State Fault Refusal :=
  if s.arch.ready = false then raise 0x3 .notReady s
  else
    match s.payloadItem len with
    | none => .fault .payloadIncomplete
    | some item => queryUnit 0x3 (b.digestFn item) s

/-- QUERY in this build (R203). -/
def execQuery (len : Nat) (s : State) : Host.Outcome State Fault Refusal := execQueryFor thisBuild len s

/-- INSERT_DIGEST (R204): INSERT with the digest stage bypassed. -/
def execInsertDigest (s : State) : Host.Outcome State Fault Refusal :=
  if s.arch.ready = false then raise 0x4 .notReady s
  else
    match s.payloadDigest with
    | none => .fault .payloadIncomplete
    | some d => insertUnit 0x4 d s

/-- QUERY_DIGEST (R205): QUERY with the digest stage bypassed. -/
def execQueryDigest (s : State) : Host.Outcome State Fault Refusal :=
  if s.arch.ready = false then raise 0x5 .notReady s
  else
    match s.payloadDigest with
    | none => .fault .payloadIncomplete
    | some d => queryUnit 0x5 d s

end Sys2Proof.Machine
end

