-- ==== Sys2Proof/Machine/Dispatch.lean ====
section
/-! DEFINITION. The EXECUTE phase of each command (R68), one arm per constructor. -/

namespace Sys2Proof.Machine

def exec (i : Instr) (s : State) : Host.Outcome State Fault Refusal :=
  match i with
  | .nop => Sys2Proof.Machine.execNop s
  | .construct sz kf => Sys2Proof.Machine.execConstruct sz kf s
  | .insert len => Sys2Proof.Machine.execInsert len s
  | .query len => Sys2Proof.Machine.execQuery len s
  | .insertDigest => Sys2Proof.Machine.execInsertDigest s
  | .queryDigest => Sys2Proof.Machine.execQueryDigest s
  | .encode => Sys2Proof.Machine.execEncode s
  | .decode len => Sys2Proof.Machine.execDecode len s
  | .readReg sel => Sys2Proof.Machine.execReadReg sel s

end Sys2Proof.Machine
end

