-- ==== Sys2Proof/Machine/Execute.lean ====
section
/-! DEFINITION. The EXECUTE phase (R68): decode CUR_CMD and apply the command's rule, or answer a word that is no
command. -/

namespace Sys2Proof.Machine

/-- EXECUTE (R68), with `run` as the commands' meanings. It is entered only with the whole payload taken (REMAIN = 0);
otherwise nothing is completed (R77; DESIGN CHOICE, log 12). -/
def stepExecuteBy (run : Instr → State → Host.Outcome State Fault Refusal) (s : State) :
    Host.Outcome State Fault Refusal :=
  if s.remain ≠ 0 then .fault .payloadIncomplete
  else
    match decodeWord s.curCmd with
    | .ok i => run i s
    | .error e => rejectWord e s

/-- One step of a phase (R68). -/
def stepPhaseBy (run : Instr → State → Host.Outcome State Fault Refusal) (s : State) :
    Host.Outcome State Fault Refusal :=
  match s.phase with
  | .idle => stepIdle s
  | .payload => stepPayload s
  | .execute => stepExecuteBy run s
  | .output => stepOutput s
  | .respond => stepRespond s

/-- One step: reset comes before everything else (R300), otherwise the phase's step (R68). -/
def stepBy (run : Instr → State → Host.Outcome State Fault Refusal) (s : State) : Host.Outcome State Fault Refusal :=
  if s.rst then .next s.resetEdge else stepPhaseBy run s

/-- EXECUTE in this build (R68). -/
def stepExecute (s : State) : Host.Outcome State Fault Refusal := stepExecuteBy exec s

end Sys2Proof.Machine
end

