-- ==== Sys2Proof/Machine/Step.lean ====
section
/-! DEFINITION. One step of the engine: a clock edge with `rst` = 1, or one channel transfer, or one EXECUTE (DEDUCED, log 1). -/

namespace Sys2Proof.Machine

/-- One step of this build of the engine: the reset edge (R300), or the phase's step with `exec` as the commands' meanings
(R68). -/
def step (s : State) : Host.Outcome State Fault Refusal := stepBy exec s

/-- `s` with the command word `w` accepted and its payload (zeros) taken, so that the very next step runs it (DESIGN CHOICE, log 11). -/
def State.withFetchWord (s : State) (nbits w : Nat) : State := s.placeWord (BitVec.ofNat 32 (w % 2 ^ nbits))

end Sys2Proof.Machine
end

