-- ==== Sys2Proof/Machine/Assembler.lean ====
section
/-! DEFINITION. The textual command syntax (R116, R117), and a host that offers a program's commands (R68, R69; DESIGN CHOICE, log 11,
log 17). -/

namespace Sys2Proof.Machine

/-- A command as the host sends it: the command word, and the payload bytes, first byte first (R100, R116). -/
structure HostCommand where
  /-- The 32-bit command word. -/
  word : Word
  /-- The bytes sent on din. -/
  payload : List Byte
deriving DecidableEq, Repr

/-- One line of the syntax, with its operands (R116). -/
inductive AsmLine where
  | nop
  | construct (size k : Nat)
  | insert (bytes : List Byte)
  | query (bytes : List Byte)
  | insertDigest (bytes : List Byte)
  | queryDigest (bytes : List Byte)
  | encode
  | decode (bytes : List Byte)
  | readReg (sel : Nat)
  /-- `.cmd <word>[, <bytes>]`: the word and the bytes as they are. -/
  | cmd (word : Nat) (bytes : List Byte)
deriving DecidableEq, Repr

/-- A command with its payload, or a refusal where an operand does not fit its field (R116). -/
def assembleInstr (i : Instr) (payload : List Byte) : Option HostCommand :=
  if i.wf then some ⟨encode i, payload⟩ else none

/-- A digest operand is exactly 32 bytes (R116). -/
def assembleDigest (i : Instr) (payload : List Byte) : Option HostCommand :=
  if payload.length = 32 then assembleInstr i payload else none

/-- The word and the payload of each line of R116. No mnemonic stands for more than one command (R117). -/
def AsmLine.assemble : AsmLine → Option HostCommand
  | .nop => assembleInstr .nop []
  | .construct size k => assembleInstr (.construct size k) []
  | .insert bytes => assembleInstr (.insert bytes.length) bytes
  | .query bytes => assembleInstr (.query bytes.length) bytes
  | .insertDigest bytes => assembleDigest .insertDigest bytes
  | .queryDigest bytes => assembleDigest .queryDigest bytes
  | .encode => assembleInstr .encode []
  | .decode bytes => assembleInstr (.decode bytes.length) bytes
  | .readReg sel => assembleInstr (.readReg sel) []
  | .cmd word bytes => if word < 2 ^ 32 then some ⟨BitVec.ofNat 32 word, bytes⟩ else none

/-! ### The text of a line, as the ASCII codes of its characters (DESIGN CHOICE, log 17) -/

/-- ASCII text. -/
abbrev Text := List Nat

/-- The ASCII codes of a string. -/
def textOf (s : String) : Text := s.toList.map Char.toNat

/-- Space, tab or carriage return. -/
def isBlank (c : Nat) : Bool := c == 0x20 || c == 0x09 || c == 0x0D

/-- The text after its leading blanks. -/
def skipBlanks : Text → Text
  | [] => []
  | c :: cs => if isBlank c then skipBlanks cs else c :: cs

/-- Nothing is left on the line but blanks and a comment, which `;` starts (R116). -/
def atLineEnd (cs : Text) : Bool :=
  match skipBlanks cs with
  | [] => true
  | c :: _ => c == 0x3B

/-- The value of a hexadecimal digit. -/
def hexDigit (c : Nat) : Option Nat :=
  if 0x30 ≤ c ∧ c ≤ 0x39 then some (c - 0x30)
  else if 0x41 ≤ c ∧ c ≤ 0x46 then some (c - 0x37)
  else if 0x61 ≤ c ∧ c ≤ 0x66 then some (c - 0x57)
  else none

/-- A character of a mnemonic, a register name or a number: a letter, a digit, `_` or `.`. -/
def isWordChar (c : Nat) : Bool :=
  (decide (0x30 ≤ c) && decide (c ≤ 0x39)) || (decide (0x41 ≤ c) && decide (c ≤ 0x5A)) ||
    (decide (0x61 ≤ c) && decide (c ≤ 0x7A)) || c == 0x5F || c == 0x2E

/-- The leading word characters of a text, and the rest. -/
def spanWord (cs : Text) : Text × Text := (cs.takeWhile isWordChar, cs.dropWhile isWordChar)

/-- The number that digits denote in a base, after the value `acc` of the digits before them. -/
def digitsValue (base acc : Nat) : Text → Option Nat
  | [] => some acc
  | c :: cs =>
    match hexDigit c with
    | some d => if d < base then digitsValue base (base * acc + d) cs else none
    | none => none

/-- "Numbers are decimal or 0x-prefixed hexadecimal" (R116). -/
def parseNumber : Text → Option Nat
  | [] => none
  | 0x30 :: 0x78 :: d :: ds => digitsValue 16 0 (d :: ds)
  | d :: ds => digitsValue 10 0 (d :: ds)

/-- `<sel>` is a number or one of `ID`, `CONFIG`, `CAPS` (R116). -/
def parseSelector (cs : Text) : Option Nat :=
  if cs = textOf "ID" then some 0
  else if cs = textOf "CONFIG" then some 1
  else if cs = textOf "CAPS" then some 2
  else parseNumber cs

/-- A byte before what a byte-sequence parser read. -/
def consByte (n : Nat) : Option (List Byte × Text) → Option (List Byte × Text)
  | some (bs, rest) => some (BitVec.ofNat 8 n :: bs, rest)
  | none => none

/-- The inside of `"text"` up to the closing quote: ASCII codes, with `\"`, `\\` and `\xNN` as escapes (R116). -/
def parseQuoted : Text → Option (List Byte × Text)
  | [] => none
  | 0x22 :: rest => some ([], rest)
  | 0x5C :: 0x22 :: rest => consByte 0x22 (parseQuoted rest)
  | 0x5C :: 0x5C :: rest => consByte 0x5C (parseQuoted rest)
  | 0x5C :: 0x78 :: h :: l :: rest =>
    match hexDigit h, hexDigit l with
    | some h, some l => consByte (16 * h + l) (parseQuoted rest)
    | _, _ => none
  | c :: rest => if c < 0x80 ∧ c ≠ 0x5C then consByte c (parseQuoted rest) else none

/-- The inside of `x"hex"` up to the closing quote: an even number of hexadecimal digits, first byte first (R116). -/
def parseHexBytes : Text → Option (List Byte × Text)
  | 0x22 :: rest => some ([], rest)
  | h :: l :: rest =>
    match hexDigit h, hexDigit l with
    | some h, some l => consByte (16 * h + l) (parseHexBytes rest)
    | _, _ => none
  | _ => none

/-- A `<bytes>` operand: `"text"` or `x"hex"` (R116). -/
def parseBytes : Text → Option (List Byte × Text)
  | 0x22 :: rest => parseQuoted rest
  | 0x78 :: 0x22 :: rest => parseHexBytes rest
  | _ => none

/-- A line with one `<bytes>` operand. -/
def lineOfBytes (mk : List Byte → AsmLine) (cs : Text) : Option AsmLine :=
  match parseBytes cs with
  | some (bs, rest) => if atLineEnd rest then some (mk bs) else none
  | none => none

/-- The operands of `CONSTRUCT <size>, <k>`. -/
def lineOfConstruct (cs : Text) : Option AsmLine :=
  let (size, rest) := spanWord cs
  match parseNumber size, skipBlanks rest with
  | some size, 0x2C :: rest =>
    let (k, rest) := spanWord (skipBlanks rest)
    match parseNumber k with
    | some k => if atLineEnd rest then some (.construct size k) else none
    | none => none
  | _, _ => none

/-- The operands of `.cmd <word>[, <bytes>]`. -/
def lineOfCmd (cs : Text) : Option AsmLine :=
  let (word, rest) := spanWord cs
  match parseNumber word with
  | none => none
  | some word =>
    if atLineEnd rest then some (.cmd word [])
    else
      match skipBlanks rest with
      | 0x2C :: rest => lineOfBytes (.cmd word) (skipBlanks rest)
      | _ => none

/-- The operand of `READ_REG <sel>`. -/
def lineOfReadReg (cs : Text) : Option AsmLine :=
  let (sel, rest) := spanWord cs
  match parseSelector sel with
  | some sel => if atLineEnd rest then some (.readReg sel) else none
  | none => none

/-- The text of one command (R116): a mnemonic, blanks, and its operands. -/
def parseLine (cs : Text) : Option AsmLine :=
  let (word, rest) := spanWord (skipBlanks cs)
  let args := skipBlanks rest
  if word = textOf "NOP" then (if atLineEnd args then some .nop else none)
  else if word = textOf "CONSTRUCT" then lineOfConstruct args
  else if word = textOf "INSERT" then lineOfBytes .insert args
  else if word = textOf "QUERY" then lineOfBytes .query args
  else if word = textOf "INSERT_DIGEST" then lineOfBytes .insertDigest args
  else if word = textOf "QUERY_DIGEST" then lineOfBytes .queryDigest args
  else if word = textOf "ENCODE" then (if atLineEnd args then some .encode else none)
  else if word = textOf "DECODE" then lineOfBytes .decode args
  else if word = textOf "READ_REG" then lineOfReadReg args
  else if word = textOf ".cmd" then lineOfCmd args
  else none

/-- Assemble one line: `none` where it is no line of the syntax or an operand does not fit (R116). -/
def assembleText (line : String) : Option HostCommand :=
  match parseLine (textOf line) with
  | some l => l.assemble
  | none => none

/-- Assemble a program, one command per line; a line of blanks or a comment alone is no command (R116; DESIGN CHOICE, log 17). -/
def assembleProgram : List String → Option (List HostCommand)
  | [] => some []
  | line :: lines =>
    if atLineEnd (textOf line) then assembleProgram lines
    else
      match assembleText line, assembleProgram lines with
      | some c, some cs => some (c :: cs)
      | _, _ => none

/-- A host that offers these commands after what it offers already, holding every value stable (R67), and that takes
`outs` more output bytes and one more response for each command (DESIGN CHOICE, log 11). -/
def State.offer (s : State) (cmds : List HostCommand) (outs : Nat) : State :=
  { s with
    cmdIn := s.cmdIn ++ cmds.map fun c => ⟨c.word, true⟩
    dinIn := s.dinIn ++ (cmds.flatMap HostCommand.payload).map fun b => ⟨b, true⟩
    doutTakes := s.doutTakes + outs
    rspTakes := s.rspTakes + cmds.length }

end Sys2Proof.Machine
end

