-- ==== Sys2Proof/Machine/Build.lean ====
section
/-! DEFINITION. The engine with its parameter `DIGEST_FN` free (R9, R161), and the engine at its clock, where it may take any
finite number of edges over a move (R68, R287, R308). -/

namespace Sys2Proof.Machine

/-! ### Every build of the engine (R9). `exec`, `step` and `Sys2Proof.core` are those of `thisBuild`. -/

/-- The EXECUTE phase of each command in a build: only the commands that use `DIGEST_FN` or its name differ from `exec`. -/
def execFor (b : Config.Build) (i : Instr) (s : State) : Host.Outcome State Fault Refusal :=
  match i with
  | .nop => execNop s
  | .construct sz kf => execConstruct sz kf s
  | .insert len => execInsertFor b len s
  | .query len => execQueryFor b len s
  | .insertDigest => execInsertDigest s
  | .queryDigest => execQueryDigest s
  | .encode => execEncode s
  | .decode len => execDecode len s
  | .readReg sel => execReadRegFor b sel s

/-- One step of a build of the engine. -/
def stepFor (b : Config.Build) (s : State) : Host.Outcome State Fault Refusal := stepBy (execFor b) s

/-- The machine whose commands have the meanings `run`. -/
def coreBy (run : Instr → State → Host.Outcome State Fault Refusal) : Host.Core :=
  { State := State, Fault := Fault, Refusal := Refusal, step := stepBy run, reset := State.reset }

/-- The machine of a build of the engine. -/
def coreFor (b : Config.Build) : Host.Core := coreBy (execFor b)

/-! ### The engine at its clock -/

/-- The phases in which the engine may let clock edges pass before its move: PAYLOAD, where it may hold `din_ready` at 0, and
EXECUTE and OUTPUT, whose latency is finite and not bounded (R68, R308; DEDUCED, log 14). In IDLE and RESPOND it may not:
`cmd_ready` and `rsp_valid` are 1 there (R68). -/
def State.mayBeBusy (s : State) : Bool :=
  match s.phase with
  | .idle => false
  | .payload => true
  | .execute => true
  | .output => true
  | .respond => false

/-- One clock edge, at which the engine makes its move or, where it may be, is still busy: then nothing is transferred, since
`dinReadyAt` and `doutValidAt` are 0 (R67). A reset edge does not wait for the engine (R300). -/
def edgeFor (b : Config.Build) (moves : Bool) (s : State) : Host.Outcome State Fault Refusal :=
  if s.rst || !s.mayBeBusy || moves then stepFor b s else .next s

/-- `n` clock edges from the edge numbered `k`; `moves j` says whether the engine makes its move at edge `j`. -/
def edgesFor (b : Config.Build) (moves : Nat → Bool) : Nat → Nat → State → Host.Outcome State Fault Refusal
  | _, 0, s => .next s
  | k, n + 1, s =>
    match edgeFor b (moves k) s with
    | .next t => edgesFor b moves (k + 1) n t
    | .fault f => .fault f
    | .refused r => .refused r

end Sys2Proof.Machine
end

