-- ==== Sys2Proof/Safety.lean ====
section
/-! DEFINITION. What claims are stated in: the invariant of R25 with the controller's own (R35, R68), the legal responses
(R113–R115), the unreachable faults, and a command as one atomic step (R71). -/

namespace Sys2Proof.Machine

/-! ### Legal filters -/

/-- The two lines of R25, with the bit store in canonical form and inside `SIZE_BYTES` (R24; DESIGN CHOICE, log 2). -/
def Arch.Legal (a : Arch) : Prop :=
  (a.ready = false ∧ a.sizeBytes = 0 ∧ a.k = 0 ∧ a.store = []) ∨
  (a.ready = true ∧ pow2 a.sizeBytes.toNat = true ∧ a.sizeBytes.toNat ≤ 8192 ∧ 1 ≤ a.k.toNat ∧ a.k.toNat ≤ 16 ∧
    Memory.wf a.store = true ∧ ∀ c ∈ a.store, c.1 < a.sizeBytes.toNat)

/-- The bit store is canonical and inside `SIZE_BYTES`: what every operation on it keeps (R24; DESIGN CHOICE, log 2). -/
def Arch.StoreOk (a : Arch) : Prop := Memory.wf a.store = true ∧ ∀ c ∈ a.store, c.1 < a.sizeBytes.toNat

/-- Bit `n` of the filter: "bit `n AND 7` of byte `STORE[n >> 3]`" (R61), "byte index = n div 8, bit offset = n mod 8". -/
def Arch.bit (a : Arch) (n : Nat) : Bool := (a.store.read (n / 8)).getLsbD (n % 8)

/-! ### Legal responses -/

/-- The (CODE, DETAIL) pairs that the engine produces (R114, R115): OK, CONFIG_ERROR, FORMAT_ERROR, NOT_READY and
ILLEGAL_COMMAND. -/
def legalOutcomes : List (BitVec 4 × BitVec 4) :=
  [(0, 0), (1, 1), (1, 2), (1, 3), (2, 1), (2, 2), (2, 3), (3, 0), (4, 1), (4, 2), (4, 3)]

/-- A response word that the engine may give to the command word `w` (R113–R115, U13): a listed outcome, reserved bits 0,
OP echoed, RESULT only from a successful QUERY or QUERY_DIGEST, VALUE only from a successful ENCODE or READ_REG. -/
def LegalResponse (w : Word) (r : Response) : Prop :=
  (r.extractLsb' 0 4, r.extractLsb' 4 4) ∈ legalOutcomes ∧
  r.extractLsb' 9 3 = 0 ∧
  r.extractLsb' 12 4 = w.extractLsb' 28 4 ∧
  r.extractLsb' 16 16 = 0 ∧
  (r.getLsbD 8 = true → r.extractLsb' 0 4 = 0 ∧ (w.extractLsb' 28 4 = 0x3 ∨ w.extractLsb' 28 4 = 0x5)) ∧
  (r.extractLsb' 32 32 ≠ 0 → r.extractLsb' 0 4 = 0 ∧ (w.extractLsb' 28 4 = 0x6 ∨ w.extractLsb' 28 4 = 0x8))

/-! ### The invariant -/

/-- The first `n` bytes of the current command's payload have been taken and are held where R233 and R35 say: in the
accumulator for INSERT, QUERY and their digest forms, in STAGE for a DECODE whose length can succeed, nowhere for any
other DECODE. -/
def State.PayloadTaken (s : State) (n : Nat) : Prop :=
  (opNum s.curCmd ∈ [2, 3, 4, 5] → s.digestAcc.length = n) ∧
  (opNum s.curCmd = 7 → s.stage.length = if blobLenOk (payloadLen s.curCmd) then n else 0)

/-- What the controller's hidden state satisfies in each phase (R35, R68). -/
def State.PhaseLegal (s : State) : Prop :=
  match s.phase with
  | .idle => s.pendingRsp = none
  | .payload =>
    s.pendingRsp = none ∧ s.remain ≠ 0 ∧ s.remain.toNat ≤ payloadLen s.curCmd ∧
      s.PayloadTaken (payloadLen s.curCmd - s.remain.toNat)
  | .execute => s.pendingRsp = none ∧ s.remain = 0 ∧ s.PayloadTaken (payloadLen s.curCmd)
  | .output =>
    s.arch.ready = true ∧ 1 ≤ s.outCount.toNat ∧ s.outCount.toNat ≤ s.arch.sizeBytes.toNat + 1 ∧
      ∃ r, s.pendingRsp = some r ∧ LegalResponse s.curCmd r
  | .respond => ∃ r, s.pendingRsp = some r ∧ LegalResponse s.curCmd r

/-- The invariant of every state that a run reaches: a legal filter (R25), a staging buffer within its size (R35), and a
legal controller. -/
def State.Inv (s : State) : Prop := s.arch.Legal ∧ s.stage.length ≤ Config.stagingBytes ∧ s.PhaseLegal

/-- The engine waits for the host (R77): these four stops and no others. -/
def Fault.IsHostWait : Fault → Prop
  | .awaitingCommand => True
  | .awaitingPayload => True
  | .awaitingOutputTaken => True
  | .awaitingResponseTaken => True
  | .bitOutOfRange => False
  | .payloadIncomplete => False
  | .noPendingResponse => False

/-- The fairness of the engine (R287): from every clock edge on there comes one at which the engine is not busy. "A model
states this as a fairness assumption on the engine. It does not derive it." A claim that a command completes in time assumes
it (log 14). -/
def Fair (moves : Nat → Bool) : Prop := ∀ k, ∃ j, k ≤ j ∧ moves j = true

/-! ### A command as one atomic step (R71) -/

/-- What one command does to everything that can be observed: `(state', output, response)` (R71). -/
structure CommandEffect where
  /-- The architectural state after the command. -/
  arch : Arch
  /-- The bytes emitted, in order. -/
  output : List Byte
  /-- The response word. -/
  response : Response
deriving DecidableEq, Repr

/-- The transfers of a command's output: `dout_last` = 1 exactly on the final byte (R70). -/
def markLast : List Byte → List (Byte × Bool)
  | [] => []
  | [b] => [(b, true)]
  | b :: c :: bs => (b, false) :: markLast (c :: bs)

/-- `(state, word, payload) → (state', output, response)` (R71): the command rules of files 43 to 45 over the
architectural state alone, for every one of the 2^32 words (R111), in any build (R9). `none` is a bit access outside the store
or a payload of the wrong length, neither of which a run reaches. -/
def atomicCommandFor (b : Config.Build) (a : Arch) (w : Word) (payload : List Byte) : Option CommandEffect :=
  let op := opField w
  let failed (e : CommandError) : Option CommandEffect := some ⟨a, [], responseWord op e.code e.detail false 0⟩
  let inserted (d : Digest) : Option CommandEffect :=
    (a.insertDigest d).map fun a' => ⟨a', [], responseWord op codeOk 0 false 0⟩
  let queried (d : Digest) : Option CommandEffect :=
    (a.queryDigest d).map fun r => ⟨a, [], responseWord op codeOk 0 r 0⟩
  match decodeWord w with
  | .error .undefinedOpcode => failed .undefinedOpcode
  | .error .reservedBits => failed .reservedBits
  | .ok .nop => some ⟨a, [], responseWord op codeOk 0 false 0⟩
  | .ok (.construct sz kf) =>
    if pow2 sz = false then failed .sizeNotPow2
    else if 8192 < sz then failed .sizeRange
    else if kf < 1 ∨ 16 < kf then failed .kRange
    else some ⟨Arch.replaced sz kf (Memory.ofBytes (List.replicate sz 0)), [], responseWord op codeOk 0 false 0⟩
  | .ok (.insert _) => if a.ready = false then failed .notReady else inserted (b.digestFn payload)
  | .ok (.query _) => if a.ready = false then failed .notReady else queried (b.digestFn payload)
  | .ok .insertDigest => if a.ready = false then failed .notReady else (digestOfBytes payload).bind inserted
  | .ok .queryDigest => if a.ready = false then failed .notReady else (digestOfBytes payload).bind queried
  | .ok .encode =>
    if a.ready = false then failed .notReady
    else some ⟨a, a.blob, responseWord op codeOk 0 false (BitVec.ofNat 32 (a.sizeBytes.toNat + 1))⟩
  | .ok (.decode len) =>
    if len = 0 then failed .blobEmpty
    else if blobLenOk len = false then failed .blobSize
    else
      payload[len - 1]?.bind fun kb =>
        if kb.toNat < 1 ∨ 16 < kb.toNat then failed .blobK
        else
          some ⟨Arch.replaced (len - 1) kb.toNat (Memory.ofBytes (payload.take (len - 1))), [],
            responseWord op codeOk 0 false 0⟩
  | .ok (.readReg sel) =>
    match a.readRegisterFor b sel with
    | some v => some ⟨a, [], responseWord op codeOk 0 false v⟩
    | none => failed .badSelector

/-- The atomic command of this build (R71). -/
def atomicCommand (a : Arch) (w : Word) (payload : List Byte) : Option CommandEffect :=
  atomicCommandFor thisBuild a w payload

end Sys2Proof.Machine
end

