-- ==== Sys2Proof/Certificates/Slice0/Obligations.lean ====
section
/-! DEFINITION. The statements for the provers, from the numbered rules of spec/. -/

open Sys2Proof Sys2Proof.Machine

namespace Sys2Proof.Spec

/-- The state after a command that ends with the response `r` and no output: `r` is held, PHASE is RESPOND, and
nothing else of the controller or of the host's side changes (R68). -/
def ended (s : State) (a : Arch) (r : Response) : State := { s with arch := a, phase := .respond, pendingRsp := some r }

/-- A word with this opcode and a reserved bit set in `w[27:lo]` is no command, and its EXECUTE only responds
ILLEGAL_COMMAND / RESERVED_BITS with the opcode echoed (R109, R113–R115, R253). -/
def RejectsReserved (op : BitVec 4) (lo : Nat) : Prop :=
  ∀ w : Word, w.extractLsb' 28 4 = op → w.extractLsb' lo (28 - lo) ≠ 0 →
    decodeWord w = .error .reservedBits ∧
    ∀ s : State, s.curCmd = w → s.rst = false → s.phase = .execute → s.remain = 0 →
      step s = .next (ended s s.arch (BitVec.ofNat 64 (op.toNat * 2 ^ 12 + 0x024)))

/-- The word `w`, offered to an idle engine with its payload, is only answered: the whole payload and nothing more is taken,
no byte is emitted, the filter stays, one response with this STATUS and VALUE 0 goes out, and the engine is idle again. -/
def OnlyAnswered (w : Word) (payload : List Byte) (status : Nat) : Prop :=
  ∀ (s : State) (words : List (Offer Word)) (bytes : List (Offer Byte)),
    s.rst = false → s.phase = .idle → s.cmdIn = ⟨w, true⟩ :: words →
    s.dinIn = (payload.map fun b => ⟨b, true⟩) ++ bytes → 0 < s.rspTakes →
    ∃ t, Host.Core.run Sys2Proof.core (payload.length + 3) s = .next t ∧ t.arch = s.arch ∧ t.phase = .idle ∧
      t.cmdIn = words ∧ t.dinIn = bytes ∧ t.doutSent = s.doutSent ∧ t.rspSent = s.rspSent ++ [BitVec.ofNat 64 status]

/-- The bytes that ENCODE of the filter `a` sends to a host that takes them, by running the engine (R230). -/
def emitted (a : Arch) : List Byte :=
  match Host.Core.run Sys2Proof.core (a.sizeBytes.toNat + 2) { State.reset with
      arch := a
      phase := .execute
      curCmd := 0x60000000
      doutTakes := a.sizeBytes.toNat + 1 } with
  | .next t => t.doutSent.map Prod.fst
  | .fault _ => []
  | .refused _ => []

/-- The reserved bits of the word are set, by the format of its opcode (R101–R104). -/
def reservedSet (w : Word) : Bool :=
  if w.extractLsb' 28 4 ∈ [0x0, 0x4, 0x5, 0x6] then w.extractLsb' 0 28 != 0
  else if w.extractLsb' 28 4 ∈ [0x1, 0x2, 0x3, 0x7] then w.extractLsb' 24 4 != 0
  else if w.extractLsb' 28 4 = 0x8 then w.extractLsb' 8 20 != 0
  else false

/-- A power of two in [1, 8192], written out (R8, R22). -/
def legalSizes : List Nat := [1, 2, 4, 8, 16, 32, 64, 128, 256, 512, 1024, 2048, 4096, 8192]

/-- The checks of R276 in their order, each with the CODE and DETAIL it reports (R114, R115). -/
def errorChecks (s : State) : List (Bool × BitVec 4 × BitVec 4) :=
  let w := s.curCmd
  let op := w.extractLsb' 28 4
  let sz := (w.extractLsb' 0 16).toNat
  let kf := (w.extractLsb' 16 8).toNat
  let len := (w.extractLsb' 0 24).toNat
  let kb := (s.stage.getD (len - 1) 0).toNat
  [(decide (9 ≤ op.toNat), 4, 1),
   (reservedSet w, 4, 2),
   (op == 0x8 && decide (2 < (w.extractLsb' 0 8).toNat), 4, 3),
   (decide (op ∈ [0x2, 0x3, 0x4, 0x5, 0x6]) && !s.arch.ready, 3, 0),
   (op == 0x1 && !decide (sz ∈ legalSizes ∨ sz = 16384 ∨ sz = 32768), 1, 1),
   (op == 0x1 && decide (8192 < sz), 1, 2),
   (op == 0x1 && decide (kf < 1 ∨ 16 < kf), 1, 3),
   (op == 0x7 && decide (len = 0), 2, 1),
   (op == 0x7 && !decide (len - 1 ∈ legalSizes), 2, 2),
   (op == 0x7 && decide (kb < 1 ∨ 16 < kb), 2, 3)]

/-- The first check that applies, or OK (R276). -/
def firstError (s : State) : BitVec 4 × BitVec 4 :=
  match (errorChecks s).find? (fun c => c.1) with
  | some c => c.2
  | none => (0, 0)

/-- INSERT of an item over the architectural state, for an arbitrary digest function (R202, R207). -/
def insertItem (dg : List Byte → Digest) (a : Arch) (x : List Byte) : Option Arch := a.insertDigest (dg x)

/-- INSERTs of several items, in order. -/
def insertAll (dg : List Byte → Digest) (a : Arch) : List (List Byte) → Option Arch
  | [] => some a
  | x :: xs => (insertItem dg a x).bind fun a' => insertAll dg a' xs

/-- QUERY of an item over the architectural state, for an arbitrary digest function (R203, R207). -/
def queryItem (dg : List Byte → Digest) (a : Arch) (x : List Byte) : Option Bool := a.queryDigest (dg x)

/-- A response with its OP field `[15:12]` replaced (R113). -/
def withOp (op : BitVec 4) (r : Response) : Response := r.extractLsb' 16 48 ++ op ++ r.extractLsb' 0 12

/-- What the item form of a command answers, as the digest form with opcode `op` answers it: the payload is the digest `d`,
the OP field is its own, and everything else is the same (R204, R205). -/
def asDigestForm (op : BitVec 4) (d : Digest) : Host.Outcome State Fault Refusal → Host.Outcome State Fault Refusal
  | .next t => .next { t with digestAcc := d.toList, pendingRsp := t.pendingRsp.map (withOp op) }
  | .fault f => .fault f
  | .refused r => .refused r

/-- With `run` as the commands' meanings and `dg` as `DIGEST_FN`, INSERT_DIGEST and QUERY_DIGEST of `dg x` answer what INSERT
and QUERY of `x` answer (R204, R205). -/
def DigestFormsMatch (run : Instr → State → Host.Outcome State Fault Refusal) (dg : List Byte → Digest) : Prop :=
  ∀ (s : State) (x : List Byte),
    run .insertDigest { s with digestAcc := (dg x).toList } =
      asDigestForm 0x4 (dg x) (run (.insert x.length) { s with digestAcc := x }) ∧
    run .queryDigest { s with digestAcc := (dg x).toList } =
      asDigestForm 0x5 (dg x) (run (.query x.length) { s with digestAcc := x })

/-- A state without the hidden state that an earlier command left in it: all five hidden registers in IDLE, where no command is
in progress, and in the other phases the output counter alone, which only the OUTPUT phase of the command at hand uses. -/
def seen (s : State) : State :=
  match s.phase with
  | .idle => { s with curCmd := 0, remain := 0, digestAcc := [], stage := [], outCount := 0 }
  | .payload => { s with outCount := 0 }
  | .execute => { s with outCount := 0 }
  | .output => s
  | .respond => { s with outCount := 0 }

/-- An outcome with its state seen so. -/
def observed : Host.Outcome State Fault Refusal → Host.Outcome State Fault Refusal
  | .next t => .next (seen t)
  | .fault f => .fault f
  | .refused r => .refused r

end Sys2Proof.Spec

open Sys2Proof.Spec

/-! ### Encoding -/

/-- Decoding the encoding of every well-formed command gives it back, with every operand at every value its field admits
(R100–R106). -/
def Obligations.EncodeThenDecodeGivesTheCommand : Prop :=
  ∀ i : Instr, i.wf = true → decodeWord (encode i) = .ok i

/-- A word that decodes to a command is that command's encoding, and the command is well formed: no command has two
words (R105, R106, R109). -/
def Obligations.DecodedWordIsItsEncoding : Prop :=
  ∀ (w : Word) (i : Instr), decodeWord w = .ok i → encode i = w ∧ i.wf = true

/-- Every one of the 2^32 words is exactly one of a command, which one row of the opcode table accepts, a defined opcode
with a reserved bit set, or an undefined opcode, and no row accepts either of these (R106, R109, R110, R111). -/
def Obligations.EveryWordIsCommandOrNamedReject : Prop :=
  ∀ w : Word,
    (∀ i, decodeWord w = .ok i → ∃ r ∈ opcodeTable, r.accepts w = true ∧ r.mnemonic = i.mnemonic ∧
      ∀ r' ∈ opcodeTable, r'.accepts w = true → r' = r) ∧
    (decodeWord w = .error .undefinedOpcode ↔ 9 ≤ (w.extractLsb' 28 4).toNat) ∧
    (decodeWord w = .error .reservedBits ↔ (w.extractLsb' 28 4).toNat < 9 ∧ reservedSet w = true) ∧
    (∀ e, decodeWord w = .error e → ∀ r ∈ opcodeTable, r.accepts w = false)

/-- The words of R116 and of the test vectors decode to the commands they stand for. -/
def Obligations.SampleWordsDecode : Prop :=
  decodeWord 0x00000000 = .ok .nop ∧ decodeWord 0x10080200 = .ok (.construct 512 8) ∧
  decodeWord 0x20000003 = .ok (.insert 3) ∧ decodeWord 0x30000003 = .ok (.query 3) ∧
  decodeWord 0x40000000 = .ok .insertDigest ∧ decodeWord 0x50000000 = .ok .queryDigest ∧
  decodeWord 0x60000000 = .ok .encode ∧ decodeWord 0x70002001 = .ok (.decode 8193) ∧
  decodeWord 0x80000001 = .ok (.readReg 1) ∧ decodeWord 0x11080200 = .error .reservedBits ∧
  decodeWord 0xF0000000 = .error .undefinedOpcode

/-- The payload length of every word, by its opcode alone: LEN, 32 or 0; the reserved bits do not enter it (R107). -/
def Obligations.PayloadLengthOfEveryWord : Prop :=
  ∀ w : Word,
    (w.extractLsb' 28 4 ∈ [0x2, 0x3, 0x7] → payloadLen w = (w.extractLsb' 0 24).toNat) ∧
    (w.extractLsb' 28 4 ∈ [0x4, 0x5] → payloadLen w = 32) ∧
    (w.extractLsb' 28 4 ∉ [0x2, 0x3, 0x7, 0x4, 0x5] → payloadLen w = 0)

/-- The layout of the response word, field by field (R113). -/
def Obligations.ResponseWordFields : Prop :=
  ∀ (op code detail : BitVec 4) (result : Bool) (value : Word),
    let r := responseWord op code detail result value
    r.extractLsb' 0 4 = code ∧ r.extractLsb' 4 4 = detail ∧ r.getLsbD 8 = result ∧ r.extractLsb' 9 3 = 0 ∧
    r.extractLsb' 12 4 = op ∧ r.extractLsb' 16 16 = 0 ∧ r.extractLsb' 32 32 = value

/-- What a line of the textual syntax assembles to is one word that decodes to the line's command, and the line's bytes, as
many as the word asks for (R107, R116, R117). `.cmd` sends its word and bytes as they are. -/
def Obligations.AssembledLineIsOneFramedCommand : Prop :=
  ∀ (l : AsmLine) (c : HostCommand), l.assemble = some c →
    match l with
    | .nop => decodeWord c.word = .ok .nop ∧ c.payload = []
    | .construct size k => decodeWord c.word = .ok (.construct size k) ∧ c.payload = []
    | .insert bs => decodeWord c.word = .ok (.insert bs.length) ∧ c.payload = bs ∧ bs.length = payloadLen c.word
    | .query bs => decodeWord c.word = .ok (.query bs.length) ∧ c.payload = bs ∧ bs.length = payloadLen c.word
    | .insertDigest bs => decodeWord c.word = .ok .insertDigest ∧ c.payload = bs ∧ bs.length = payloadLen c.word
    | .queryDigest bs => decodeWord c.word = .ok .queryDigest ∧ c.payload = bs ∧ bs.length = payloadLen c.word
    | .encode => decodeWord c.word = .ok .encode ∧ c.payload = []
    | .decode bs => decodeWord c.word = .ok (.decode bs.length) ∧ c.payload = bs ∧ bs.length = payloadLen c.word
    | .readReg sel => decodeWord c.word = .ok (.readReg sel) ∧ c.payload = []
    | .cmd word bs => c.word.toNat = word ∧ c.payload = bs

/-! ### The bit store -/

/-- BitRead: inside the store it is `(STORE[n >> 3] >> (n AND 7)) AND 1`; outside it has no value (R140, R142). -/
def Obligations.BitReadInsideAndOutside : Prop :=
  ∀ (a : Arch) (n : Nat),
    (n < a.sizeBytes.toNat * 8 →
      a.bitRead n = some (decide ((a.store.read (n / 8)).toNat / 2 ^ (n % 8) % 2 = 1))) ∧
    (a.sizeBytes.toNat * 8 ≤ n → a.bitRead n = none ∧ a.bitSet n = none)

/-- BitSet: exactly bit `n` becomes 1, no other bit changes, and READY, SIZE_BYTES and K stay (R141). -/
def Obligations.BitSetChangesOneBit : Prop :=
  ∀ (a : Arch) (n : Nat), a.StoreOk → n < a.sizeBytes.toNat * 8 →
    ∃ m, a.bitSet n = some { a with store := m } ∧ Arch.StoreOk { a with store := m } ∧
      Arch.bit { a with store := m } n = true ∧ ∀ i, i ≠ n → Arch.bit { a with store := m } i = a.bit i

/-- Several sets: byte `j` becomes `STORE[j] OR` the OR of `1 << (n_t AND 7)` over the addresses `n_t` in byte `j`, and any
order of the addresses gives the same filter (R143). -/
def Obligations.SeveralSetsMergeByOr : Prop :=
  ∀ (a : Arch) (ns : List Nat), a.StoreOk → (∀ n ∈ ns, n < a.sizeBytes.toNat * 8) →
    ∃ m, a.setBits ns = some { a with store := m } ∧
      (∀ j, m.read j = ((ns.filter fun n => n / 8 = j).map fun n => (1 : Byte) <<< (n % 8)).foldl (· ||| ·) (a.store.read j)) ∧
      ∀ ms : List Nat, ms.Perm ns → a.setBits ms = some { a with store := m }

/-- A byte written reads back, every other byte is as before, and the canonical form is kept (R144, R145). -/
def Obligations.MemWriteThenMemRead : Prop :=
  ∀ (a : Arch) (j : Nat) (v : Byte), a.StoreOk → j < a.sizeBytes.toNat →
    ∃ b, a.memWrite j v = some b ∧ b.StoreOk ∧ b.memRead j = some v ∧ (∀ i, i ≠ j → b.memRead i = a.memRead i) ∧
      b.ready = a.ready ∧ b.sizeBytes = a.sizeBytes ∧ b.k = a.k

/-- StoreReplace: byte `j` of the new store is `B[j]`, and the store has `len(B)` bytes (R146). -/
def Obligations.StoreReplaceHoldsEveryByte : Prop :=
  ∀ (bs : List Byte) (k : Nat), bs.length ≤ 8192 →
    (Arch.replaced bs.length k (Memory.ofBytes bs)).StoreOk ∧
    ∀ j, (Arch.replaced bs.length k (Memory.ofBytes bs)).memRead j = bs[j]?

/-! ### The index deriver and the digest -/

/-- Each candidate is a big-endian pair of digest bytes, and the 16-bit slice of the 256-bit number `DW` (R162). -/
def Obligations.CandidatesAreBigEndianSlices : Prop :=
  ∀ (d : Digest) (i : Fin 16),
    (candidate d i).toNat = (d.toList.getD (2 * i.val) 0).toNat * 256 + (d.toList.getD (2 * i.val + 1) 0).toNat ∧
    (candidate d i).toNat = d.toList.foldl (fun n b => n * 256 + b.toNat) 0 / 2 ^ (240 - 16 * i.val) % 2 ^ 16

/-- At a legal size the masked index is the candidate modulo the size in bits, and is inside the store (R163). -/
def Obligations.MaskedIndexIsCandidateModuloSize : Prop :=
  ∀ (a : Arch) (d : Digest) (i : Fin 16), a.sizeBytes.toNat ∈ legalSizes →
    a.indexMask.toNat = a.sizeBytes.toNat * 8 - 1 ∧
    (a.maskedIndex d i).toNat = (candidate d i).toNat % (a.sizeBytes.toNat * 8) ∧
    (a.maskedIndex d i).toNat < a.sizeBytes.toNat * 8

/-- `Derive(D)` is the list of the first K masked indices, in lane order (R164, R165). -/
def Obligations.DeriveListsFirstKLanes : Prop :=
  ∀ (a : Arch) (d : Digest), a.sizeBytes.toNat ∈ legalSizes → a.k.toNat ≤ 16 →
    a.derive d = (List.range a.k.toNat).map fun i =>
      ((d.toList.getD (2 * i) 0).toNat * 256 + (d.toList.getD (2 * i + 1) 0).toNat) % (a.sizeBytes.toNat * 8)

/-- Lane `i` is enabled iff `i < K`, the enable mask is `(1 << K) − 1`, and two digests that agree in the bytes of the
enabled lanes have the same effect: a disabled lane changes nothing (R164). -/
def Obligations.DisabledLanesHaveNoEffect : Prop :=
  (∀ (a : Arch) (d : Digest) (i : Fin 16), (a.laneFile d).en.getLsbD i.val = decide (i.val < a.k.toNat)) ∧
  (∀ (a : Arch) (d : Digest), a.k.toNat ≤ 16 → (a.laneFile d).en.toNat = 2 ^ a.k.toNat - 1) ∧
  ∀ (a : Arch) (d e : Digest), (∀ j, j < 2 * a.k.toNat → d.toList.getD j 0 = e.toList.getD j 0) →
    a.insertDigest d = a.insertDigest e ∧ a.queryDigest d = a.queryDigest e

/-- The digest of the empty item, of "abc" and of "xyz" in this build (R186). -/
def Obligations.DigestKnownAnswers : Prop :=
  (digestFn []).toList.foldl (fun n b => n * 256 + b.toNat) 0 =
    0xe3b0c44298fc1c149afbf4c8996fb92427ae41e4649b934ca495991b7852b855 ∧
  (digestFn [0x61, 0x62, 0x63]).toList.foldl (fun n b => n * 256 + b.toNat) 0 =
    0xba7816bf8f01cfea414140de5dae2223b00361a396177a9cb410ff61f20015ad ∧
  (digestFn [0x78, 0x79, 0x7a]).toList.foldl (fun n b => n * 256 + b.toNat) 0 =
    0x3608bca1e44ea6c4d268eb6db02260269892c0b42b86bbf1e77a6fa16c3c9282

/-- The padded message: the message, 0x80, the fewest zero bytes that make the length 56 modulo 64, and the bit length as
a 64-bit big-endian number (R181). -/
def Obligations.PaddedMessageShape : Prop :=
  ∀ m : List Byte, 8 * m.length < 2 ^ 64 →
    ∃ z, Sha256.pad m = m ++ [0x80] ++ List.replicate z 0x00 ++ Sha256.bytesBE 8 (8 * m.length) ∧
      (m.length + 1 + z) % 64 = 56 ∧ (∀ z', (m.length + 1 + z') % 64 = 56 → z ≤ z') ∧
      (Sha256.pad m).length % 64 = 0 ∧ (Sha256.bytesBE 8 (8 * m.length)).length = 8 ∧
      (Sha256.bytesBE 8 (8 * m.length)).foldl (fun n b => n * 256 + b.toNat) 0 = 8 * m.length

/-! ### The commands -/

/-- NOP responds OK and changes nothing else, in every state; its response word is 0 (R250). -/
def Obligations.NopOnlyResponds : Prop :=
  RejectsReserved 0x0 0 ∧
  ∀ s : State, exec .nop s = .next (ended s s.arch 0x0000000000000000)

/-- CONSTRUCT: the three checks in their order, each leaving the old filter, and otherwise an empty filter of SZ zero
bytes and KF hash values, in either state (R200). -/
def Obligations.ConstructConfiguresOrReports : Prop :=
  RejectsReserved 0x1 24 ∧
  ∀ (sz kf : Nat) (s : State),
    ((∀ n, sz ≠ 2 ^ n) → exec (.construct sz kf) s = .next (ended s s.arch 0x1011)) ∧
    (∀ n, sz = 2 ^ n → 8192 < sz → exec (.construct sz kf) s = .next (ended s s.arch 0x1021)) ∧
    (∀ n, sz = 2 ^ n → sz ≤ 8192 → (kf < 1 ∨ 16 < kf) → exec (.construct sz kf) s = .next (ended s s.arch 0x1031)) ∧
    (∀ n, sz = 2 ^ n → sz ≤ 8192 → 1 ≤ kf → kf ≤ 16 →
      ∃ a, exec (.construct sz kf) s = .next (ended s a 0x1000) ∧
        a.ready = true ∧ a.sizeBytes.toNat = sz ∧ a.k.toNat = kf ∧ a.StoreOk ∧ ∀ j, j < sz → a.memRead j = some 0)

/-- INSERT: NOT_READY on an unconfigured engine; otherwise the bits that the item's digest derives become 1, every other
bit, READY, SIZE_BYTES and K stay, and it responds OK (R202). -/
def Obligations.InsertSetsDerivedBits : Prop :=
  RejectsReserved 0x2 24 ∧
  ∀ (len : Nat) (s : State),
    (s.arch.ready = false → exec (.insert len) s = .next (ended s s.arch 0x2003)) ∧
    (s.arch.ready = true → s.arch.StoreOk → 0 < s.arch.sizeBytes.toNat → s.digestAcc.length = len →
      ∃ m, exec (.insert len) s = .next (ended s { s.arch with store := m } 0x2000) ∧
        Arch.StoreOk { s.arch with store := m } ∧
        ∀ n, Arch.bit { s.arch with store := m } n =
          (s.arch.bit n || decide (n ∈ s.arch.derive (digestFn s.digestAcc))))

/-- QUERY: NOT_READY on an unconfigured engine; otherwise RESULT is 1 iff every bit that the item's digest derives is 1,
and nothing of the filter changes (R203). -/
def Obligations.QueryReportsAllDerivedBits : Prop :=
  RejectsReserved 0x3 24 ∧
  ∀ (len : Nat) (s : State),
    (s.arch.ready = false → exec (.query len) s = .next (ended s s.arch 0x3003)) ∧
    (s.arch.ready = true → 0 < s.arch.sizeBytes.toNat → s.digestAcc.length = len →
      exec (.query len) s = .next (ended s s.arch
        (if ∀ n ∈ s.arch.derive (digestFn s.digestAcc), s.arch.bit n = true then 0x3100 else 0x3000)))

/-- INSERT_DIGEST: as INSERT with the 32 payload bytes as the digest (R204). -/
def Obligations.InsertDigestSetsDerivedBits : Prop :=
  RejectsReserved 0x4 0 ∧
  ∀ (s : State) (d : Digest),
    (s.arch.ready = false → exec .insertDigest s = .next (ended s s.arch 0x4003)) ∧
    (s.arch.ready = true → s.arch.StoreOk → 0 < s.arch.sizeBytes.toNat → s.digestAcc = d.toList →
      ∃ m, exec .insertDigest s = .next (ended s { s.arch with store := m } 0x4000) ∧
        Arch.StoreOk { s.arch with store := m } ∧
        ∀ n, Arch.bit { s.arch with store := m } n = (s.arch.bit n || decide (n ∈ s.arch.derive d)))

/-- QUERY_DIGEST: as QUERY with the 32 payload bytes as the digest (R205). -/
def Obligations.QueryDigestReportsAllDerivedBits : Prop :=
  RejectsReserved 0x5 0 ∧
  ∀ (s : State) (d : Digest),
    (s.arch.ready = false → exec .queryDigest s = .next (ended s s.arch 0x5003)) ∧
    (s.arch.ready = true → 0 < s.arch.sizeBytes.toNat → s.digestAcc = d.toList →
      exec .queryDigest s = .next (ended s s.arch
        (if ∀ n ∈ s.arch.derive d, s.arch.bit n = true then 0x5100 else 0x5000)))

/-- ENCODE: NOT_READY emits nothing. Otherwise the filter is unchanged, VALUE is SIZE_BYTES + 1, and a host that takes the
output gets STORE[0] first, then every byte of the store, then K with `dout_last`, all before the response (R230). -/
def Obligations.EncodeStreamsStoreThenK : Prop :=
  RejectsReserved 0x6 0 ∧
  ∀ s : State,
    (s.arch.ready = false → exec .encode s = .next (ended s s.arch 0x6003)) ∧
    (s.arch.ready = true → s.arch.sizeBytes.toNat ≤ 8192 →
      ∃ t r, exec .encode s = .next t ∧ t.phase = .output ∧ t.pendingRsp = some r ∧
        r.toNat = (s.arch.sizeBytes.toNat + 1) * 2 ^ 32 + 0x6000 ∧
        t = { s with phase := .output, outCount := t.outCount, pendingRsp := some r } ∧
        (s.rst = false → s.arch.sizeBytes.toNat + 1 ≤ s.doutTakes →
          Host.Core.run Sys2Proof.core (s.arch.sizeBytes.toNat + 1) t = .next { s with
            phase := .respond
            outCount := 0
            pendingRsp := some r
            doutTakes := s.doutTakes - (s.arch.sizeBytes.toNat + 1)
            doutSent := s.doutSent ++
              ((List.range s.arch.sizeBytes.toNat).map fun j => (s.arch.store.read j, false)) ++
              [(s.arch.k.setWidth 8, true)] }))

/-- DECODE: the three checks in their order, each leaving the old filter, and otherwise the filter that the blob
describes, in either state (R231). The payload is what R233 stages: the blob's bytes when its length can succeed. -/
def Obligations.DecodeReplacesOrReports : Prop :=
  RejectsReserved 0x7 24 ∧
  ∀ (len : Nat) (s : State),
    (len = 0 → exec (.decode len) s = .next (ended s s.arch 0x7012)) ∧
    (len ≠ 0 → len - 1 ∉ legalSizes → exec (.decode len) s = .next (ended s s.arch 0x7022)) ∧
    (∀ (bits : List Byte) (kb : Byte), bits.length ∈ legalSizes → len = bits.length + 1 → s.stage = bits ++ [kb] →
      (kb.toNat < 1 ∨ 16 < kb.toNat → exec (.decode len) s = .next (ended s s.arch 0x7032)) ∧
      (1 ≤ kb.toNat → kb.toNat ≤ 16 →
        ∃ a, exec (.decode len) s = .next (ended s a 0x7000) ∧
          a.ready = true ∧ a.sizeBytes.toNat = bits.length ∧ a.k.toNat = kb.toNat ∧ a.StoreOk ∧
          ∀ j, a.memRead j = bits[j]?))

/-- READ_REG: ID, CONFIG or CAPS in VALUE, BAD_SELECTOR above 0x02, in either state and with no state change (R251). -/
def Obligations.ReadRegReturnsSelectedRegister : Prop :=
  RejectsReserved 0x8 8 ∧
  ∀ s : State,
    exec (.readReg 0) s = .next (ended s s.arch 0x424C4D0700008000) ∧
    (∃ r : Response, exec (.readReg 1) s = .next (ended s s.arch r) ∧
      r.toNat = ((if s.arch.ready then 2 ^ 31 else 0) + s.arch.k.toNat * 2 ^ 16 + s.arch.sizeBytes.toNat) * 2 ^ 32 + 0x8000) ∧
    exec (.readReg 2) s = .next (ended s s.arch 0x1001100D00008000) ∧
    ∀ sel, 2 < sel → exec (.readReg sel) s = .next (ended s s.arch 0x8034)

/-- The fields of the three readable registers (R31, R32, R33). -/
def Obligations.ReadableRegisterFields : Prop :=
  ∀ a : Arch,
    a.readRegister 0 = some regId ∧ regId.extractLsb' 8 24 = 0x424C4D ∧ regId.extractLsb' 0 8 = 0x07 ∧
    a.readRegister 1 = some a.regConfig ∧ a.regConfig.extractLsb' 0 16 = a.sizeBytes.setWidth 16 ∧
    a.regConfig.extractLsb' 16 5 = a.k ∧ a.regConfig.extractLsb' 21 10 = 0 ∧ a.regConfig.getLsbD 31 = a.ready ∧
    a.readRegister 2 = some regCaps ∧ regCaps.extractLsb' 0 8 = 13 ∧ regCaps.extractLsb' 8 8 = 16 ∧
    regCaps.extractLsb' 16 8 = 0x01 ∧ regCaps.extractLsb' 24 8 = 16

/-- What every command leaves unchanged when it answers a next state: CUR_CMD, REMAIN, the accumulator, STAGE and the
host's side (DESIGN CHOICE, log 4) always; the output counter but for ENCODE; READY, SIZE_BYTES and K but for CONSTRUCT and DECODE; every
byte of the store but for the commands that write it (R65, R200–R205, R230, R231, R250, R251). -/
def Obligations.CommandFrame : Prop :=
  ∀ (i : Instr) (s t : State), exec i s = .next t →
    t = { s with arch := t.arch, phase := t.phase, outCount := t.outCount, pendingRsp := t.pendingRsp } ∧
    (i ≠ .encode → t.outCount = s.outCount ∧ t.phase = .respond) ∧
    ((∀ sz kf, i ≠ .construct sz kf) → (∀ len, i ≠ .decode len) →
      t.arch.ready = s.arch.ready ∧ t.arch.sizeBytes = s.arch.sizeBytes ∧ t.arch.k = s.arch.k) ∧
    ((∀ sz kf, i ≠ .construct sz kf) → (∀ len, i ≠ .decode len) → (∀ len, i ≠ .insert len) → i ≠ .insertDigest →
      t.arch = s.arch)

/-- INSERT_DIGEST and QUERY_DIGEST of DIGEST_FN(x) answer exactly what INSERT and QUERY of x answer, from every state, in this
build and in every build: the same next state, phase and response, but for the payload held in the accumulator (DESIGN CHOICE,
log 7) and the OP field of the response, and the same stop where one stops (R204, R205). -/
def Obligations.DigestFormsMatchItemForms : Prop :=
  DigestFormsMatch exec digestFn ∧ ∀ b : Config.Build, DigestFormsMatch (execFor b) b.digestFn

/-- A command without its whole payload is never completed: with bytes still to take, EXECUTE stops, and a payload of the
wrong length stops the command that needs it (R69, R77). No run reaches these states; the stop is the model's choice
(DESIGN CHOICE, log 12). -/
def Obligations.IncompletePayloadStops : Prop :=
  ∀ s : State,
    (s.rst = false → s.phase = .execute → s.remain ≠ 0 → step s = .fault .payloadIncomplete) ∧
    (∀ len, s.arch.ready = true → s.digestAcc.length ≠ len →
      exec (.insert len) s = .fault .payloadIncomplete ∧ exec (.query len) s = .fault .payloadIncomplete) ∧
    (s.arch.ready = true → s.digestAcc.length ≠ 32 →
      exec .insertDigest s = .fault .payloadIncomplete ∧ exec .queryDigest s = .fault .payloadIncomplete) ∧
    (∀ len, len ≠ 0 → len - 1 ∈ legalSizes → s.stage.length ≠ len → exec (.decode len) s = .fault .payloadIncomplete)

/-! ### Words that are no command, errors and their priority -/

/-- An undefined opcode takes no payload byte and gets ILLEGAL_COMMAND / UNDEFINED_OPCODE with its opcode echoed, whatever
its other bits are; no state changes, and the engine goes on to the next command (R110, R252). -/
def Obligations.UndefinedOpcodeIsRejected : Prop :=
  ∀ w : Word, 9 ≤ (w.extractLsb' 28 4).toNat →
    payloadLen w = 0 ∧ OnlyAnswered w [] ((w.extractLsb' 28 4).toNat * 2 ^ 12 + 0x014)

/-- A defined opcode with a reserved bit set takes the payload that its opcode defines, discards it, and gets ILLEGAL_COMMAND /
RESERVED_BITS, whatever else is wrong with it; no state changes (R109, R253). -/
def Obligations.ReservedBitsAreRejected : Prop :=
  ∀ (w : Word) (payload : List Byte), reservedSet w = true → payload.length = payloadLen w →
    OnlyAnswered w payload ((w.extractLsb' 28 4).toNat * 2 ^ 12 + 0x024)

/-- The effect of any error: the payload has been taken, no architectural state changes, no byte is emitted, and RESULT
and VALUE are 0 (R275). -/
def Obligations.ErrorChangesOnlyTheResponse : Prop :=
  ∀ (s t : State) (r : Response), s.rst = false → s.phase = .execute → step s = .next t → t.pendingRsp = some r →
    r.extractLsb' 0 4 ≠ 0 →
    s.remain = 0 ∧ t = ended s s.arch r ∧ r.getLsbD 8 = false ∧ r.extractLsb' 32 32 = 0

/-- One command reports one error, the first in the order of R276, and CODE OK exactly when no check applies (R276). -/
def Obligations.FirstErrorInOrderIsReported : Prop :=
  ∀ (s t : State) (r : Response), s.rst = false → s.phase = .execute → step s = .next t → t.pendingRsp = some r →
    (r.extractLsb' 0 4, r.extractLsb' 4 4) = firstError s

/-- Every word of R111 gets an answer: in a reachable state, EXECUTE never stops, and it holds a response for the host
(R111, R270, R287). -/
def Obligations.ExecuteAlwaysHoldsAResponse : Prop :=
  ∀ s : State, s.Inv → s.rst = false → s.phase = .execute →
    ∃ t r, step s = .next t ∧ t.pendingRsp = some r ∧ LegalResponse s.curCmd r ∧ (t.phase = .respond ∨ t.phase = .output)

/-! ### The controller, the channels and reset -/

/-- When the whole payload has been taken and CUR_CMD decodes to a command, a step is that command's EXECUTE (R68), in this
build and in every build (R9); this build is the one with its own DIGEST_FN (log 8). -/
def Obligations.StepRunsTheDecodedCommand : Prop :=
  (∀ (s : State) (i : Instr), s.rst = false → s.phase = .execute → s.remain = 0 → decodeWord s.curCmd = .ok i →
    step s = exec i s ∧ ∀ b : Config.Build, stepFor b s = execFor b i s) ∧
  (∀ s : State, stepFor thisBuild s = step s) ∧ ∀ (i : Instr) (s : State), execFor thisBuild i s = exec i s

/-- A command word placed with a payload of zeros is run by the very next step (DESIGN CHOICE, log 11 says what the placing stands for). -/
def Obligations.PlacedCommandRunsNext : Prop :=
  ∀ (s : State) (w : Nat) (i : Instr), decodeTableWord 32 w = some i →
    step (s.withFetchWord 32 w) = exec i (s.withFetchWord 32 w)

/-- IDLE: the word that the host offers and holds becomes CUR_CMD, REMAIN is its payload length, and the phase is PAYLOAD or
EXECUTE; the filter does not change (R68). That the accumulator and STAGE are emptied here is the model's (DESIGN CHOICE, log
23). -/
def Obligations.IdleAcceptsTheOfferedWord : Prop :=
  ∀ (s : State) (w : Word) (rest : List (Offer Word)), s.rst = false → s.phase = .idle → s.cmdIn = ⟨w, true⟩ :: rest →
    ∃ t, step s = .next t ∧ t.curCmd = w ∧ t.remain.toNat = payloadLen w ∧
      t.phase = (if payloadLen w = 0 then .execute else .payload) ∧ t.digestAcc = [] ∧ t.stage = [] ∧
      t = { s with curCmd := w, remain := t.remain, phase := t.phase, digestAcc := [], stage := [], cmdIn := rest }

/-- PAYLOAD: one byte is taken in arrival order, REMAIN counts down by one, and EXECUTE follows the last (R68, R69). Where the
byte goes is R233's rule for DECODE, and the model's choice for the accumulator (DESIGN CHOICE, log 7) and for the k byte, which
goes to STAGE too (DESIGN CHOICE, log 23). -/
def Obligations.PayloadTakesBytesInOrder : Prop :=
  ∀ (s : State) (b : Byte) (rest : List (Offer Byte)), s.rst = false → s.phase = .payload → s.remain ≠ 0 →
    s.dinIn = ⟨b, true⟩ :: rest →
    ∃ t, step s = .next t ∧ t.remain.toNat + 1 = s.remain.toNat ∧
      t.phase = (if t.remain = 0 then .execute else .payload) ∧
      t.digestAcc = (if s.curCmd.extractLsb' 28 4 = 0x7 then s.digestAcc else s.digestAcc ++ [b]) ∧
      t.stage = (if s.curCmd.extractLsb' 28 4 = 0x7 ∧ payloadLen s.curCmd - 1 ∈ legalSizes then s.stage ++ [b] else s.stage) ∧
      t = { s with remain := t.remain, phase := t.phase, digestAcc := t.digestAcc, stage := t.stage, dinIn := rest }

/-- OUTPUT: one byte of the blob goes out, with `dout_last` = 1 exactly on the final byte, and RESPOND follows the last
(R68, R70). -/
def Obligations.OutputSendsOneByte : Prop :=
  ∀ s : State, s.rst = false → s.phase = .output → 1 ≤ s.outCount.toNat →
    s.outCount.toNat ≤ s.arch.sizeBytes.toNat + 1 → 0 < s.doutTakes →
    ∃ t, step s = .next t ∧ t.outCount.toNat + 1 = s.outCount.toNat ∧
      t.phase = (if s.outCount = 1 then .respond else .output) ∧
      t.doutSent = s.doutSent ++
        [(if s.outCount = 1 then s.arch.k.setWidth 8
          else s.arch.store.read (s.arch.sizeBytes.toNat + 1 - s.outCount.toNat), decide (s.outCount = 1))] ∧
      t = { s with outCount := t.outCount, phase := t.phase, doutSent := t.doutSent, doutTakes := s.doutTakes - 1 }

/-- RESPOND: the pending response goes to the host, IDLE follows, and the response is not kept (R29, R68). -/
def Obligations.RespondSendsOneResponse : Prop :=
  ∀ (s : State) (r : Response), s.rst = false → s.phase = .respond → s.pendingRsp = some r → 0 < s.rspTakes →
    step s = .next { s with
      phase := .idle
      pendingRsp := none
      rspTakes := s.rspTakes - 1
      rspSent := s.rspSent ++ [r] }

/-- Each of the four waits for the host is the step's answer exactly when: no command is offered in IDLE, no byte is offered
in PAYLOAD, no output byte is taken in OUTPUT, no response is taken in RESPOND (R77, R286). The names of the stops are the
model's (DEDUCED, log 6). -/
def Obligations.EngineWaitsOnlyForTheHost : Prop :=
  ∀ s : State,
    (step s = .fault .awaitingCommand ↔ s.rst = false ∧ s.phase = .idle ∧ s.cmdIn = []) ∧
    (step s = .fault .awaitingPayload ↔ s.rst = false ∧ s.phase = .payload ∧ s.remain ≠ 0 ∧ s.dinIn = []) ∧
    (step s = .fault .awaitingOutputTaken ↔
      s.rst = false ∧ s.phase = .output ∧ s.outCount ≠ 0 ∧ s.doutTakes = 0) ∧
    (step s = .fault .awaitingResponseTaken ↔
      s.rst = false ∧ s.phase = .respond ∧ s.pendingRsp ≠ none ∧ s.rspTakes = 0)

/-- An offer that the host does not hold stable is transferred with a free value: any word, any byte (R77, U8; DESIGN CHOICE, log 10). It
holds for every value of the counter. -/
def Obligations.UnstableOfferTransfersAFreeValue : Prop :=
  ∀ s : State, s.rst = false →
    (∀ v rest, s.phase = .idle → s.cmdIn = ⟨v, false⟩ :: rest →
      ∃ t, step s = .next t ∧ t.curCmd = Config.unstableWord s.freeCount ∧ t.freeCount = s.freeCount + 1 ∧ t.arch = s.arch) ∧
    (∀ v rest, s.phase = .payload → s.remain ≠ 0 → s.dinIn = ⟨v, false⟩ :: rest →
      ∃ t b, step s = .next t ∧ b = Config.unstableByte s.freeCount ∧ t.freeCount = s.freeCount + 1 ∧ t.arch = s.arch ∧
        t.digestAcc = (if s.curCmd.extractLsb' 28 4 = 0x7 then s.digestAcc else s.digestAcc ++ [b]) ∧
        t.stage = (if s.curCmd.extractLsb' 28 4 = 0x7 ∧ payloadLen s.curCmd - 1 ∈ legalSizes then s.stage ++ [b] else s.stage))

/-- The ready and valid outputs follow PHASE and are 0 while `rst` = 1, and `dout_last` is 1 when one byte is left (R67, R70,
R300). At a clock edge, `moves` or busy, of a reachable state a transfer happens on each of the four channels exactly where its
`valid` and `ready` are 1 (R67). Three points are the model's: at an edge at which the engine moves `din_ready` is 1 in every
PAYLOAD state, and it is 0 at the busy edges, where R68 lets the engine hold it at 0 (DEDUCED, log 14). `dout_valid` is 1 in every
OUTPUT state at an edge at which the engine moves, and 0 at the busy edges (DESIGN CHOICE, log 14). `dout_last` follows the output
counter where `dout_valid` is 0 (DESIGN CHOICE, log 22). -/
def Obligations.OutputPortsFollowPhase : Prop :=
  (∀ (b : Config.Build) (moves : Bool) (s t : State), s.Inv → edgeFor b moves s = .next t →
    t.cmdIn = (if s.cmdValid = true ∧ s.cmdReady = true then s.cmdIn.tail else s.cmdIn) ∧
    t.dinIn = (if s.dinValid = true ∧ s.dinReadyAt moves = true then s.dinIn.tail else s.dinIn) ∧
    t.doutSent = (if s.doutValidAt moves = true ∧ s.doutReady = true then s.doutSent ++ [(s.doutData, s.doutLast)]
      else s.doutSent) ∧
    t.rspSent = (if s.rspValid = true ∧ s.rspReady = true then s.rspSent ++ s.rspData.toList else s.rspSent)) ∧
  (∀ (s : State) (moves : Bool),
    (s.dinReadyAt moves = true ↔ s.rst = false ∧ s.phase = .payload ∧ moves = true) ∧
    (s.doutValidAt moves = true ↔ s.rst = false ∧ s.phase = .output ∧ moves = true)) ∧
  ∀ s : State,
    (s.cmdReady = true ↔ s.rst = false ∧ s.phase = .idle) ∧
    (s.dinReady = true ↔ s.rst = false ∧ s.phase = .payload) ∧
    (s.doutValid = true ↔ s.rst = false ∧ s.phase = .output) ∧
    (s.rspValid = true ↔ s.rst = false ∧ s.phase = .respond ∧ ∃ r, s.rspData = some r) ∧
    (s.doutLast = true ↔ s.outCount = 1)

/-- Reset, in any phase: the filter is the zero filter, PHASE is IDLE, no response is pending, nothing is sent, all ready
and valid outputs are 0 while `rst` = 1 and `cmd_ready` is 1 after, and nothing of the hidden state before survives: the
state after depends on the host's side alone (R35, R300). Three points are the model's: `rst` is back at 0 right after the edge
(DESIGN CHOICE, log 5), the discarded registers have one value each (DESIGN CHOICE, log 3), and the host's side is kept (DESIGN
CHOICE, log 4). -/
def Obligations.ResetAbandonsEverything : Prop :=
  ∀ s : State, s.rst = true →
    s.cmdReady = false ∧ s.dinReady = false ∧ s.doutValid = false ∧ s.rspValid = false ∧
    ∃ t, step s = .next t ∧ t.arch.ready = false ∧ t.arch.sizeBytes = 0 ∧ t.arch.k = 0 ∧ t.arch.store = [] ∧
      t.phase = .idle ∧ t.pendingRsp = none ∧ t.doutSent = s.doutSent ∧ t.rspSent = s.rspSent ∧ t.cmdReady = true ∧
      ∀ u : State, u.rst = true → u.cmdIn = s.cmdIn → u.dinIn = s.dinIn → u.doutTakes = s.doutTakes →
        u.rspTakes = s.rspTakes → u.doutSent = s.doutSent → u.rspSent = s.rspSent → u.freeCount = s.freeCount →
        step u = .next t

/-- After reset the engine is unconfigured and idle, CONFIG reads 0, ID and CAPS read their constants (R21–R24, R301). -/
def Obligations.ResetStateIsUnconfigured : Prop :=
  State.reset.arch.ready = false ∧ State.reset.arch.sizeBytes = 0 ∧ State.reset.arch.k = 0 ∧
  State.reset.arch.store = [] ∧ State.reset.phase = .idle ∧ State.reset.pendingRsp = none ∧
  State.reset.arch.readRegister 0 = some 0x424C4D07 ∧ State.reset.arch.readRegister 1 = some 0x00000000 ∧
  State.reset.arch.readRegister 2 = some 0x1001100D

/-! ### Whole-machine rules -/

/-- The invariant holds right after reset (R25, R35). -/
def Obligations.InvariantHoldsAtReset : Prop := State.reset.Inv

/-- Every step keeps the invariant: a legal filter (R25), a staging buffer within its size, a controller in a legal phase,
and a legal response whenever one is pending (R113–R115). -/
def Obligations.EveryStepKeepsTheInvariant : Prop :=
  ∀ s t : State, s.Inv → step s = .next t → t.Inv

/-- From a state with the invariant a step never stops but to wait for the host: no bit outside the store is accessed, no
command runs without its payload, and nothing is refused (R142, R287). -/
def Obligations.NoStopButHostWaits : Prop :=
  ∀ s : State, s.Inv →
    (∃ t, step s = .next t) ∨ (∃ f, step s = .fault f ∧ f.IsHostWait)

/-- READY is 0 at reset; it goes from 1 to 0 only by reset, and from 0 to 1 only by a CONSTRUCT or DECODE that responds OK
(R21). -/
def Obligations.ReadyChangesOnlyByResetConstructDecode : Prop :=
  State.reset.arch.ready = false ∧
  ∀ s t : State, step s = .next t →
    (s.arch.ready = true → t.arch.ready = false → s.rst = true) ∧
    (s.arch.ready = false → t.arch.ready = true →
      s.rst = false ∧ s.phase = .execute ∧ (s.curCmd.extractLsb' 28 4 = 0x1 ∨ s.curCmd.extractLsb' 28 4 = 0x7) ∧
      ∃ r, t.pendingRsp = some r ∧ r.extractLsb' 0 4 = 0)

/-- Bits are only ever set: but for reset and a CONSTRUCT or DECODE that responds OK, a step keeps SIZE_BYTES and K, and a
bit of STORE can change only from 0 to 1 (R26). -/
def Obligations.BitsAreOnlyEverSet : Prop :=
  ∀ s t : State, s.Inv → s.rst = false → step s = .next t →
    (s.phase = .execute ∧ (s.curCmd.extractLsb' 28 4 = 0x1 ∨ s.curCmd.extractLsb' 28 4 = 0x7) ∧
      ∃ r, t.pendingRsp = some r ∧ r.extractLsb' 0 4 = 0) ∨
    (t.arch.ready = s.arch.ready ∧ t.arch.sizeBytes = s.arch.sizeBytes ∧ t.arch.k = s.arch.k ∧
      ∀ n, s.arch.bit n = true → t.arch.bit n = true)

/-- No false negatives, for every digest function: after INSERT x and any further INSERTs, QUERY x gives 1 (R207). -/
def Obligations.NoFalseNegatives : Prop :=
  ∀ (dg : List Byte → Digest) (a : Arch) (x : List Byte) (ys : List (List Byte)), a.Legal → a.ready = true →
    ∃ b, insertAll dg a (x :: ys) = some b ∧ queryItem dg b x = some true

/-- Idempotence, for every digest function: INSERT x twice leaves what INSERT x once leaves (R207). -/
def Obligations.InsertIsIdempotent : Prop :=
  ∀ (dg : List Byte → Digest) (a : Arch) (x : List Byte), a.Legal → a.ready = true →
    ∃ b, insertAll dg a [x] = some b ∧ insertAll dg a [x, x] = some b

/-- Monotonicity, for every digest function: further INSERTs never turn a QUERY result from 1 to 0 (R207). -/
def Obligations.InsertsKeepQueryResults : Prop :=
  ∀ (dg : List Byte → Digest) (a b : Arch) (x : List Byte) (ys : List (List Byte)), a.Legal → a.ready = true →
    insertAll dg a ys = some b → queryItem dg a x = some true → queryItem dg b x = some true

/-- Commutativity, for every digest function: any order of a set of INSERTs gives the same filter (R207). -/
def Obligations.InsertOrderDoesNotMatter : Prop :=
  ∀ (dg : List Byte → Digest) (a : Arch) (xs ys : List (List Byte)), a.Legal → a.ready = true → xs.Perm ys →
    ∃ b, insertAll dg a xs = some b ∧ insertAll dg a ys = some b

/-- The AND of the bits that QUERY reads is the same for every order of reading them, and it is 0 exactly when some bit read
is 0, so stopping at the first 0 bit gives it too (R206). -/
def Obligations.QueryOrderDoesNotMatter : Prop :=
  ∀ (a : Arch) (ns ms : List Nat), (∀ n ∈ ns, n < a.sizeBytes.toNat * 8) → ns.Perm ms →
    a.allBits ns = a.allBits ms ∧ (a.allBits ns = some false ↔ ∃ n ∈ ns, a.bitRead n = some false)

/-- For every ready filter, DECODE of the bytes that ENCODE sends restores that filter, whatever filter was there; and for
every blob that DECODE accepts, a following ENCODE sends exactly that blob (R232). -/
def Obligations.EncodeDecodeRoundTrip : Prop :=
  (∀ a : Arch, a.Legal → a.ready = true → ∀ s : State, s.stage = emitted a →
    exec (.decode (emitted a).length) s = .next (ended s a 0x7000)) ∧
  (∀ s t : State, exec (.decode s.stage.length) s = .next t → t.pendingRsp = some 0x7000 → emitted t.arch = s.stage)

/-- A command is one atomic step: from IDLE, with the word and its whole payload offered and a host that takes the output
and the response, the engine of any build (R9), this one among them, comes back to IDLE with exactly the state, the output and the
response of `(state, word, payload) → (state', output, response)`, and the next command's word and bytes are still on the
channels (R71). On the clock it does so after finitely many edges UNDER THE FAIRNESS ASSUMPTION on the engine, `Fair moves`,
which is assumed and not derived (R287; DEDUCED, log 14). -/
def Obligations.CommandIsOneAtomicStep : Prop :=
  coreFor thisBuild = Sys2Proof.core ∧
  ∀ (b : Config.Build) (s : State) (w : Word) (words : List (Offer Word)) (payload : List Byte) (bytes : List (Offer Byte)),
    s.Inv → s.rst = false → s.phase = .idle → s.cmdIn = ⟨w, true⟩ :: words →
    s.dinIn = (payload.map fun x => ⟨x, true⟩) ++ bytes → payload.length = payloadLen w →
    s.arch.sizeBytes.toNat + 1 ≤ s.doutTakes → 0 < s.rspTakes →
    ∃ e t, atomicCommandFor b s.arch w payload = some e ∧
      Host.Core.run (coreFor b) (payload.length + e.output.length + 3) s = .next t ∧
      t.arch = e.arch ∧ t.phase = .idle ∧ t.pendingRsp = none ∧ t.rst = false ∧
      t.doutSent = s.doutSent ++ markLast e.output ∧ t.rspSent = s.rspSent ++ [e.response] ∧
      t.cmdIn = words ∧ t.dinIn = bytes ∧
      t.doutTakes = s.doutTakes - e.output.length ∧ t.rspTakes = s.rspTakes - 1 ∧ t.freeCount = s.freeCount ∧
      ∀ moves : Nat → Bool, Fair moves → ∀ k, ∃ n, edgesFor b moves k n s = .next t

/-- Hidden state left by earlier commands cannot be observed: two engines with the same filter, phase, pending response and
host, idle with any CUR_CMD, REMAIN, accumulator, STAGE and output counter (or in a later phase with any output counter left by
an earlier command), run alike for any number of steps. After each number of steps both have the same filter, responses and
output bytes, or the same stop, and in the OUTPUT phase they are equal (R20, R35). -/
def Obligations.EarlierHiddenStateIsNotObserved : Prop :=
  ∀ s u : State, seen s = seen u →
    ∀ n, observed (Host.Core.run Sys2Proof.core n s) = observed (Host.Core.run Sys2Proof.core n u)
end

