-- ==== Sys2Proof/Laws/Memory.lean ====
section
/-! SUPPORT. The laws of the bit store's bytes: read after write, every operation keeps the canonical form, and memories
in canonical form that read alike are equal. -/

namespace Sys2Proof.Machine

/-- Every address of `m` is at least `j`. -/
def Memory.From (j : Nat) (m : Memory) : Prop := ∀ c ∈ m, j ≤ c.1

theorem Memory.wf_cons (c : Host.Cell) (m : Memory) :
    Memory.wf (c :: m) = true ↔ c.2 ≠ Memory.unlisted ∧ Memory.From (c.1 + 1) m ∧ Memory.wf m = true := by
  induction m generalizing c with
  | nil => simp [Memory.wf, Memory.From]
  | cons d m ih =>
    have hd := ih d
    simp only [Memory.wf, Bool.and_eq_true, decide_eq_true_eq, bne_iff_ne, ne_eq]
    constructor
    · rintro ⟨⟨hc, hlt⟩, hm⟩
      refine ⟨hc, ?_, hm⟩
      intro e he
      rcases List.mem_cons.1 he with rfl | he
      · omega
      · have := (hd.1 hm).2.1 e he
        omega
    · rintro ⟨hc, hf, hm⟩
      have := hf d (by simp)
      exact ⟨⟨hc, by omega⟩, hm⟩

theorem Memory.read_of_from {j : Nat} {m : Memory} (h : Memory.From j m) {a : Nat} (ha : a < j) :
    m.read a = Memory.unlisted := by
  induction m with
  | nil => rfl
  | cons c m ih =>
    have := h c (by simp)
    rw [Memory.read, if_neg (by omega)]
    exact ih fun d hd => h d (by simp [hd])

theorem Memory.From.mono {i j : Nat} {m : Memory} (h : Memory.From j m) (hij : i ≤ j) : Memory.From i m :=
  fun c hc => Nat.le_trans hij (h c hc)

theorem Memory.from_cell {j a : Nat} {v : Byte} {m : Memory} (ha : j ≤ a) (h : Memory.From j m) :
    Memory.From j (Memory.cell a v m) := by
  unfold Memory.cell
  split
  · exact h
  · intro c hc
    rcases List.mem_cons.1 hc with rfl | hc
    · exact ha
    · exact h c hc

theorem Memory.wf_cell {a : Nat} {v : Byte} {m : Memory} (h : Memory.From (a + 1) m) (hm : Memory.wf m = true) :
    Memory.wf (Memory.cell a v m) = true := by
  unfold Memory.cell
  split
  · exact hm
  · next hv => exact (Memory.wf_cons _ _).2 ⟨hv, h, hm⟩

theorem Memory.read_cell {a : Nat} {v : Byte} {m : Memory} (h : Memory.From (a + 1) m) (b : Nat) :
    (Memory.cell a v m).read b = if a = b then v else m.read b := by
  unfold Memory.cell
  split
  · next hv =>
    split
    · next hab => rw [Memory.read_of_from h (by omega), hv]
    · rfl
  · rfl

theorem Memory.from_write {j a : Nat} {v : Byte} {m : Memory} (ha : j ≤ a) (h : Memory.From j m) :
    Memory.From j (m.write a v) := by
  induction m with
  | nil => exact Memory.from_cell ha h
  | cons c m ih =>
    have hm : Memory.From j m := fun d hd => h d (by simp [hd])
    unfold Memory.write
    split
    · exact Memory.from_cell ha h
    · split
      · exact Memory.from_cell ha hm
      · intro d hd
        rcases List.mem_cons.1 hd with rfl | hd
        · exact h _ (by simp)
        · exact ih hm d hd

/-- A write keeps the canonical form. -/
theorem Memory.wf_write {m : Memory} (h : Memory.wf m = true) (a : Nat) (v : Byte) :
    Memory.wf (m.write a v) = true := by
  induction m with
  | nil => exact Memory.wf_cell (fun _ hc => by simp at hc) rfl
  | cons c m ih =>
    obtain ⟨hc, hf, hm⟩ := (Memory.wf_cons c m).1 h
    unfold Memory.write
    split
    · next hlt =>
      refine Memory.wf_cell (fun d hd => ?_) h
      rcases List.mem_cons.1 hd with rfl | hd
      · omega
      · have := hf d hd
        omega
    · split
      · next heq => exact Memory.wf_cell (heq ▸ hf) hm
      · exact (Memory.wf_cons _ _).2 ⟨hc, Memory.from_write (by omega) hf, ih hm⟩

/-- Read after write: the byte written, and every other byte as before. -/
theorem Memory.read_write {m : Memory} (h : Memory.wf m = true) (a : Nat) (v : Byte) (b : Nat) :
    (m.write a v).read b = if a = b then v else m.read b := by
  induction m with
  | nil => exact Memory.read_cell (fun _ hc => by simp at hc) b
  | cons c m ih =>
    obtain ⟨hc, hf, hm⟩ := (Memory.wf_cons c m).1 h
    unfold Memory.write
    split
    · next hlt =>
      refine Memory.read_cell (fun d hd => ?_) b
      rcases List.mem_cons.1 hd with rfl | hd
      · omega
      · have := hf d hd
        omega
    · split
      · next heq =>
        rw [Memory.read_cell (heq ▸ hf)]
        split
        · rfl
        · rw [Memory.read, if_neg (by omega)]
      · next hne =>
        simp only [Memory.read, ih hm]
        split
        · rw [if_neg (by omega)]
        · rfl

/-- The addresses of a memory stay below a bound when a byte below it is written. -/
theorem Memory.bound_write {m : Memory} {n a : Nat} {v : Byte} (h : ∀ c ∈ m, c.1 < n) (ha : a < n) :
    ∀ c ∈ m.write a v, c.1 < n := by
  have cellBound : ∀ {m : Memory}, (∀ c ∈ m, c.1 < n) → ∀ c ∈ Memory.cell a v m, c.1 < n := by
    intro m hm c hc
    unfold Memory.cell at hc
    split at hc
    · exact hm c hc
    · rcases List.mem_cons.1 hc with rfl | hc
      · exact ha
      · exact hm c hc
  induction m with
  | nil => exact cellBound h
  | cons d m ih =>
    have hm : ∀ c ∈ m, c.1 < n := fun c hc => h c (by simp [hc])
    unfold Memory.write
    split
    · exact cellBound h
    · split
      · exact cellBound hm
      · intro c hc
        rcases List.mem_cons.1 hc with rfl | hc
        · exact h _ (by simp)
        · exact ih hm c hc

theorem Memory.from_ofBytesFrom (j : Nat) (bs : List Byte) : Memory.From j (Memory.ofBytesFrom j bs) := by
  induction bs generalizing j with
  | nil => intro c hc; simp [Memory.ofBytesFrom] at hc
  | cons b bs ih => exact Memory.from_cell (Nat.le_refl j) ((ih (j + 1)).mono (by omega))

theorem Memory.wf_ofBytesFrom (j : Nat) (bs : List Byte) : Memory.wf (Memory.ofBytesFrom j bs) = true := by
  induction bs generalizing j with
  | nil => rfl
  | cons b bs ih => exact Memory.wf_cell (Memory.from_ofBytesFrom (j + 1) bs) (ih (j + 1))

theorem Memory.read_ofBytesFrom (j : Nat) (bs : List Byte) (a : Nat) :
    (Memory.ofBytesFrom j bs).read (j + a) = bs.getD a Memory.unlisted := by
  induction bs generalizing j a with
  | nil => rfl
  | cons b bs ih =>
    rw [Memory.ofBytesFrom, Memory.read_cell (Memory.from_ofBytesFrom (j + 1) bs)]
    cases a with
    | zero => simp
    | succ a =>
      rw [if_neg (by omega), show j + (a + 1) = j + 1 + a by omega, ih]
      rfl

theorem Memory.bound_ofBytesFrom (j : Nat) (bs : List Byte) : ∀ c ∈ Memory.ofBytesFrom j bs, c.1 < j + bs.length := by
  induction bs generalizing j with
  | nil => intro c hc; simp [Memory.ofBytesFrom] at hc
  | cons b bs ih =>
    intro c hc
    rw [Memory.ofBytesFrom, Memory.cell] at hc
    have := ih (j + 1)
    split at hc
    · have := this c hc
      simp only [List.length_cons]
      omega
    · rcases List.mem_cons.1 hc with rfl | hc
      · simp
      · have := this c hc
        simp only [List.length_cons]
        omega

/-- `StoreReplace` writes a memory in canonical form. -/
theorem Memory.wf_ofBytes (bs : List Byte) : Memory.wf (Memory.ofBytes bs) = true := Memory.wf_ofBytesFrom 0 bs

/-- Byte `j` of `StoreReplace(B)` is `B[j]`. -/
theorem Memory.read_ofBytes (bs : List Byte) (a : Nat) : (Memory.ofBytes bs).read a = bs.getD a Memory.unlisted := by
  have := Memory.read_ofBytesFrom 0 bs a
  rwa [Nat.zero_add] at this

/-- The addresses of `StoreReplace(B)` are below `len(B)`. -/
theorem Memory.bound_ofBytes (bs : List Byte) : ∀ c ∈ Memory.ofBytes bs, c.1 < bs.length := by
  have := Memory.bound_ofBytesFrom 0 bs
  rwa [Nat.zero_add] at this

/-- `StoreReplace(zeros(n))` lists nothing. -/
theorem Memory.ofBytes_zeros (n : Nat) : Memory.ofBytes (List.replicate n 0) = Memory.zeros := by
  have key : ∀ n j, Memory.ofBytesFrom j (List.replicate n 0) = [] := by
    intro n
    induction n with
    | zero => intro j; rfl
    | succ n ih => intro j; rw [List.replicate_succ, Memory.ofBytesFrom, ih]; rfl
  exact key n 0

theorem Memory.read_eq_unlisted_or_mem (m : Memory) (a : Nat) : m.read a = Memory.unlisted ∨ (a, m.read a) ∈ m := by
  induction m with
  | nil => exact .inl rfl
  | cons c m ih =>
    unfold Memory.read
    split
    · next h => subst h; exact .inr (by simp)
    · exact ih.imp_right fun h => by simp [h]

/-- Memories in canonical form that read alike at every address are equal. -/
theorem Memory.ext_read {m n : Memory} (hm : Memory.wf m = true) (hn : Memory.wf n = true)
    (h : ∀ a, m.read a = n.read a) : m = n := by
  induction m generalizing n with
  | nil =>
    cases n with
    | nil => rfl
    | cons d n =>
      obtain ⟨hd, -, -⟩ := (Memory.wf_cons d n).1 hn
      exact absurd (by simpa [Memory.read] using (h d.1).symm) hd
  | cons c m ih =>
    obtain ⟨hc, hcf, hm'⟩ := (Memory.wf_cons c m).1 hm
    cases n with
    | nil => exact absurd (by simpa [Memory.read] using h c.1) hc
    | cons d n =>
      obtain ⟨hd, hdf, hn'⟩ := (Memory.wf_cons d n).1 hn
      have hcd : c.1 = d.1 := by
        rcases Nat.lt_trichotomy c.1 d.1 with hlt | heq | hgt
        · have := h c.1
          rw [Memory.read, if_pos rfl, Memory.read, if_neg (by omega), Memory.read_of_from hdf (by omega)] at this
          exact absurd this hc
        · exact heq
        · have := h d.1
          rw [Memory.read, if_neg (by omega), Memory.read_of_from hcf (by omega), Memory.read, if_pos rfl] at this
          exact absurd this.symm hd
      have hval : c.2 = d.2 := by
        have := h c.1
        rwa [Memory.read, if_pos rfl, Memory.read, if_pos hcd.symm] at this
      have hrest : m = n := by
        refine ih hm' hn' fun a => ?_
        have := h a
        by_cases ha : c.1 = a
        · rw [Memory.read_of_from hcf (by omega), Memory.read_of_from hdf (by omega)]
        · rwa [Memory.read, if_neg ha, Memory.read, if_neg (by omega)] at this
      rw [hrest, Prod.ext hcd hval]

end Sys2Proof.Machine
end

