-- ==== Sys2Proof/Laws/State.lean ====
section
/-! SUPPORT. What each named update of State does to each field: one lemma per field per update. -/

namespace Sys2Proof.Machine

/-! ### Holding a response -/

@[simp] theorem State.respond_arch (s : State) (r : Response) : (s.respond r).arch = s.arch := rfl
@[simp] theorem State.respond_phase (s : State) (r : Response) : (s.respond r).phase = .respond := rfl
@[simp] theorem State.respond_curCmd (s : State) (r : Response) : (s.respond r).curCmd = s.curCmd := rfl
@[simp] theorem State.respond_remain (s : State) (r : Response) : (s.respond r).remain = s.remain := rfl
@[simp] theorem State.respond_digestAcc (s : State) (r : Response) : (s.respond r).digestAcc = s.digestAcc := rfl
@[simp] theorem State.respond_stage (s : State) (r : Response) : (s.respond r).stage = s.stage := rfl
@[simp] theorem State.respond_outCount (s : State) (r : Response) : (s.respond r).outCount = s.outCount := rfl
@[simp] theorem State.respond_pendingRsp (s : State) (r : Response) : (s.respond r).pendingRsp = some r := rfl
@[simp] theorem State.respond_rst (s : State) (r : Response) : (s.respond r).rst = s.rst := rfl
@[simp] theorem State.respond_cmdIn (s : State) (r : Response) : (s.respond r).cmdIn = s.cmdIn := rfl
@[simp] theorem State.respond_dinIn (s : State) (r : Response) : (s.respond r).dinIn = s.dinIn := rfl
@[simp] theorem State.respond_doutTakes (s : State) (r : Response) : (s.respond r).doutTakes = s.doutTakes := rfl
@[simp] theorem State.respond_rspTakes (s : State) (r : Response) : (s.respond r).rspTakes = s.rspTakes := rfl
@[simp] theorem State.respond_doutSent (s : State) (r : Response) : (s.respond r).doutSent = s.doutSent := rfl
@[simp] theorem State.respond_rspSent (s : State) (r : Response) : (s.respond r).rspSent = s.rspSent := rfl
@[simp] theorem State.respond_freeCount (s : State) (r : Response) : (s.respond r).freeCount = s.freeCount := rfl

/-! ### Beginning the output -/

@[simp] theorem State.beginOutput_arch (s : State) (n : Nat) (r : Response) : (s.beginOutput n r).arch = s.arch := rfl
@[simp] theorem State.beginOutput_phase (s : State) (n : Nat) (r : Response) : (s.beginOutput n r).phase = .output := rfl
@[simp] theorem State.beginOutput_curCmd (s : State) (n : Nat) (r : Response) : (s.beginOutput n r).curCmd = s.curCmd := rfl
@[simp] theorem State.beginOutput_remain (s : State) (n : Nat) (r : Response) : (s.beginOutput n r).remain = s.remain := rfl
@[simp] theorem State.beginOutput_digestAcc (s : State) (n : Nat) (r : Response) : (s.beginOutput n r).digestAcc = s.digestAcc := rfl
@[simp] theorem State.beginOutput_stage (s : State) (n : Nat) (r : Response) : (s.beginOutput n r).stage = s.stage := rfl
@[simp] theorem State.beginOutput_outCount (s : State) (n : Nat) (r : Response) : (s.beginOutput n r).outCount = BitVec.ofNat 14 n := rfl
@[simp] theorem State.beginOutput_pendingRsp (s : State) (n : Nat) (r : Response) : (s.beginOutput n r).pendingRsp = some r := rfl
@[simp] theorem State.beginOutput_rst (s : State) (n : Nat) (r : Response) : (s.beginOutput n r).rst = s.rst := rfl
@[simp] theorem State.beginOutput_cmdIn (s : State) (n : Nat) (r : Response) : (s.beginOutput n r).cmdIn = s.cmdIn := rfl
@[simp] theorem State.beginOutput_dinIn (s : State) (n : Nat) (r : Response) : (s.beginOutput n r).dinIn = s.dinIn := rfl
@[simp] theorem State.beginOutput_doutTakes (s : State) (n : Nat) (r : Response) : (s.beginOutput n r).doutTakes = s.doutTakes := rfl
@[simp] theorem State.beginOutput_rspTakes (s : State) (n : Nat) (r : Response) : (s.beginOutput n r).rspTakes = s.rspTakes := rfl
@[simp] theorem State.beginOutput_doutSent (s : State) (n : Nat) (r : Response) : (s.beginOutput n r).doutSent = s.doutSent := rfl
@[simp] theorem State.beginOutput_rspSent (s : State) (n : Nat) (r : Response) : (s.beginOutput n r).rspSent = s.rspSent := rfl
@[simp] theorem State.beginOutput_freeCount (s : State) (n : Nat) (r : Response) : (s.beginOutput n r).freeCount = s.freeCount := rfl

/-! ### Replacing the architectural state -/

@[simp] theorem State.withArch_arch (s : State) (a : Arch) : (s.withArch a).arch = a := rfl
@[simp] theorem State.withArch_phase (s : State) (a : Arch) : (s.withArch a).phase = s.phase := rfl
@[simp] theorem State.withArch_curCmd (s : State) (a : Arch) : (s.withArch a).curCmd = s.curCmd := rfl
@[simp] theorem State.withArch_remain (s : State) (a : Arch) : (s.withArch a).remain = s.remain := rfl
@[simp] theorem State.withArch_digestAcc (s : State) (a : Arch) : (s.withArch a).digestAcc = s.digestAcc := rfl
@[simp] theorem State.withArch_stage (s : State) (a : Arch) : (s.withArch a).stage = s.stage := rfl
@[simp] theorem State.withArch_outCount (s : State) (a : Arch) : (s.withArch a).outCount = s.outCount := rfl
@[simp] theorem State.withArch_pendingRsp (s : State) (a : Arch) : (s.withArch a).pendingRsp = s.pendingRsp := rfl
@[simp] theorem State.withArch_rst (s : State) (a : Arch) : (s.withArch a).rst = s.rst := rfl
@[simp] theorem State.withArch_cmdIn (s : State) (a : Arch) : (s.withArch a).cmdIn = s.cmdIn := rfl
@[simp] theorem State.withArch_dinIn (s : State) (a : Arch) : (s.withArch a).dinIn = s.dinIn := rfl
@[simp] theorem State.withArch_doutTakes (s : State) (a : Arch) : (s.withArch a).doutTakes = s.doutTakes := rfl
@[simp] theorem State.withArch_rspTakes (s : State) (a : Arch) : (s.withArch a).rspTakes = s.rspTakes := rfl
@[simp] theorem State.withArch_doutSent (s : State) (a : Arch) : (s.withArch a).doutSent = s.doutSent := rfl
@[simp] theorem State.withArch_rspSent (s : State) (a : Arch) : (s.withArch a).rspSent = s.rspSent := rfl
@[simp] theorem State.withArch_freeCount (s : State) (a : Arch) : (s.withArch a).freeCount = s.freeCount := rfl

/-! ### Accepting a command word -/

@[simp] theorem State.acceptWord_arch (s : State) (w : Word) : (s.acceptWord w).arch = s.arch := rfl
@[simp] theorem State.acceptWord_phase (s : State) (w : Word) : (s.acceptWord w).phase = if 0 < payloadLen w then .payload else .execute := rfl
@[simp] theorem State.acceptWord_curCmd (s : State) (w : Word) : (s.acceptWord w).curCmd = w := rfl
@[simp] theorem State.acceptWord_remain (s : State) (w : Word) : (s.acceptWord w).remain = BitVec.ofNat 24 (payloadLen w) := rfl
@[simp] theorem State.acceptWord_digestAcc (s : State) (w : Word) : (s.acceptWord w).digestAcc = [] := rfl
@[simp] theorem State.acceptWord_stage (s : State) (w : Word) : (s.acceptWord w).stage = [] := rfl
@[simp] theorem State.acceptWord_outCount (s : State) (w : Word) : (s.acceptWord w).outCount = s.outCount := rfl
@[simp] theorem State.acceptWord_pendingRsp (s : State) (w : Word) : (s.acceptWord w).pendingRsp = s.pendingRsp := rfl
@[simp] theorem State.acceptWord_rst (s : State) (w : Word) : (s.acceptWord w).rst = s.rst := rfl
@[simp] theorem State.acceptWord_cmdIn (s : State) (w : Word) : (s.acceptWord w).cmdIn = s.cmdIn := rfl
@[simp] theorem State.acceptWord_dinIn (s : State) (w : Word) : (s.acceptWord w).dinIn = s.dinIn := rfl
@[simp] theorem State.acceptWord_doutTakes (s : State) (w : Word) : (s.acceptWord w).doutTakes = s.doutTakes := rfl
@[simp] theorem State.acceptWord_rspTakes (s : State) (w : Word) : (s.acceptWord w).rspTakes = s.rspTakes := rfl
@[simp] theorem State.acceptWord_doutSent (s : State) (w : Word) : (s.acceptWord w).doutSent = s.doutSent := rfl
@[simp] theorem State.acceptWord_rspSent (s : State) (w : Word) : (s.acceptWord w).rspSent = s.rspSent := rfl
@[simp] theorem State.acceptWord_freeCount (s : State) (w : Word) : (s.acceptWord w).freeCount = s.freeCount := rfl

/-! ### Counting a payload byte -/

@[simp] theorem State.countByte_arch (s : State) : (s.countByte).arch = s.arch := rfl
@[simp] theorem State.countByte_phase (s : State) : (s.countByte).phase = if s.remain = 1 then .execute else .payload := rfl
@[simp] theorem State.countByte_curCmd (s : State) : (s.countByte).curCmd = s.curCmd := rfl
@[simp] theorem State.countByte_remain (s : State) : (s.countByte).remain = s.remain - 1 := rfl
@[simp] theorem State.countByte_digestAcc (s : State) : (s.countByte).digestAcc = s.digestAcc := rfl
@[simp] theorem State.countByte_stage (s : State) : (s.countByte).stage = s.stage := rfl
@[simp] theorem State.countByte_outCount (s : State) : (s.countByte).outCount = s.outCount := rfl
@[simp] theorem State.countByte_pendingRsp (s : State) : (s.countByte).pendingRsp = s.pendingRsp := rfl
@[simp] theorem State.countByte_rst (s : State) : (s.countByte).rst = s.rst := rfl
@[simp] theorem State.countByte_cmdIn (s : State) : (s.countByte).cmdIn = s.cmdIn := rfl
@[simp] theorem State.countByte_dinIn (s : State) : (s.countByte).dinIn = s.dinIn := rfl
@[simp] theorem State.countByte_doutTakes (s : State) : (s.countByte).doutTakes = s.doutTakes := rfl
@[simp] theorem State.countByte_rspTakes (s : State) : (s.countByte).rspTakes = s.rspTakes := rfl
@[simp] theorem State.countByte_doutSent (s : State) : (s.countByte).doutSent = s.doutSent := rfl
@[simp] theorem State.countByte_rspSent (s : State) : (s.countByte).rspSent = s.rspSent := rfl
@[simp] theorem State.countByte_freeCount (s : State) : (s.countByte).freeCount = s.freeCount := rfl

/-! ### The reset edge -/

@[simp] theorem State.resetEdge_arch (s : State) : (s.resetEdge).arch = Arch.reset := rfl
@[simp] theorem State.resetEdge_phase (s : State) : (s.resetEdge).phase = .idle := rfl
@[simp] theorem State.resetEdge_curCmd (s : State) : (s.resetEdge).curCmd = 0 := rfl
@[simp] theorem State.resetEdge_remain (s : State) : (s.resetEdge).remain = 0 := rfl
@[simp] theorem State.resetEdge_digestAcc (s : State) : (s.resetEdge).digestAcc = [] := rfl
@[simp] theorem State.resetEdge_stage (s : State) : (s.resetEdge).stage = [] := rfl
@[simp] theorem State.resetEdge_outCount (s : State) : (s.resetEdge).outCount = 0 := rfl
@[simp] theorem State.resetEdge_pendingRsp (s : State) : (s.resetEdge).pendingRsp = none := rfl
@[simp] theorem State.resetEdge_rst (s : State) : (s.resetEdge).rst = false := rfl
@[simp] theorem State.resetEdge_cmdIn (s : State) : (s.resetEdge).cmdIn = s.cmdIn := rfl
@[simp] theorem State.resetEdge_dinIn (s : State) : (s.resetEdge).dinIn = s.dinIn := rfl
@[simp] theorem State.resetEdge_doutTakes (s : State) : (s.resetEdge).doutTakes = s.doutTakes := rfl
@[simp] theorem State.resetEdge_rspTakes (s : State) : (s.resetEdge).rspTakes = s.rspTakes := rfl
@[simp] theorem State.resetEdge_doutSent (s : State) : (s.resetEdge).doutSent = s.doutSent := rfl
@[simp] theorem State.resetEdge_rspSent (s : State) : (s.resetEdge).rspSent = s.rspSent := rfl
@[simp] theorem State.resetEdge_freeCount (s : State) : (s.resetEdge).freeCount = s.freeCount := rfl

/-! ### Placing a command word -/

@[simp] theorem State.placeWord_arch (s : State) (w : Word) : (s.placeWord w).arch = s.arch := rfl
@[simp] theorem State.placeWord_phase (s : State) (w : Word) : (s.placeWord w).phase = .execute := rfl
@[simp] theorem State.placeWord_curCmd (s : State) (w : Word) : (s.placeWord w).curCmd = w := rfl
@[simp] theorem State.placeWord_remain (s : State) (w : Word) : (s.placeWord w).remain = 0 := rfl
@[simp] theorem State.placeWord_digestAcc (s : State) (w : Word) : (s.placeWord w).digestAcc = if opNum w = 7 then [] else List.replicate (payloadLen w) 0 := rfl
@[simp] theorem State.placeWord_stage (s : State) (w : Word) : (s.placeWord w).stage = if opNum w = 7 ∧ blobLenOk (payloadLen w) = true then List.replicate (payloadLen w) 0 else [] := rfl
@[simp] theorem State.placeWord_outCount (s : State) (w : Word) : (s.placeWord w).outCount = s.outCount := rfl
@[simp] theorem State.placeWord_pendingRsp (s : State) (w : Word) : (s.placeWord w).pendingRsp = s.pendingRsp := rfl
@[simp] theorem State.placeWord_rst (s : State) (w : Word) : (s.placeWord w).rst = false := rfl
@[simp] theorem State.placeWord_cmdIn (s : State) (w : Word) : (s.placeWord w).cmdIn = s.cmdIn := rfl
@[simp] theorem State.placeWord_dinIn (s : State) (w : Word) : (s.placeWord w).dinIn = s.dinIn := rfl
@[simp] theorem State.placeWord_doutTakes (s : State) (w : Word) : (s.placeWord w).doutTakes = s.doutTakes := rfl
@[simp] theorem State.placeWord_rspTakes (s : State) (w : Word) : (s.placeWord w).rspTakes = s.rspTakes := rfl
@[simp] theorem State.placeWord_doutSent (s : State) (w : Word) : (s.placeWord w).doutSent = s.doutSent := rfl
@[simp] theorem State.placeWord_rspSent (s : State) (w : Word) : (s.placeWord w).rspSent = s.rspSent := rfl
@[simp] theorem State.placeWord_freeCount (s : State) (w : Word) : (s.placeWord w).freeCount = s.freeCount := rfl

/-! ### Absorbing a payload byte: only the accumulator and STAGE can change -/

@[simp] theorem State.absorb_arch (s : State) (b : Byte) : (s.absorb b).arch = s.arch := by
  unfold State.absorb; split <;> (try split) <;> rfl
@[simp] theorem State.absorb_phase (s : State) (b : Byte) : (s.absorb b).phase = s.phase := by
  unfold State.absorb; split <;> (try split) <;> rfl
@[simp] theorem State.absorb_curCmd (s : State) (b : Byte) : (s.absorb b).curCmd = s.curCmd := by
  unfold State.absorb; split <;> (try split) <;> rfl
@[simp] theorem State.absorb_remain (s : State) (b : Byte) : (s.absorb b).remain = s.remain := by
  unfold State.absorb; split <;> (try split) <;> rfl
@[simp] theorem State.absorb_outCount (s : State) (b : Byte) : (s.absorb b).outCount = s.outCount := by
  unfold State.absorb; split <;> (try split) <;> rfl
@[simp] theorem State.absorb_pendingRsp (s : State) (b : Byte) : (s.absorb b).pendingRsp = s.pendingRsp := by
  unfold State.absorb; split <;> (try split) <;> rfl
@[simp] theorem State.absorb_rst (s : State) (b : Byte) : (s.absorb b).rst = s.rst := by
  unfold State.absorb; split <;> (try split) <;> rfl
@[simp] theorem State.absorb_cmdIn (s : State) (b : Byte) : (s.absorb b).cmdIn = s.cmdIn := by
  unfold State.absorb; split <;> (try split) <;> rfl
@[simp] theorem State.absorb_dinIn (s : State) (b : Byte) : (s.absorb b).dinIn = s.dinIn := by
  unfold State.absorb; split <;> (try split) <;> rfl
@[simp] theorem State.absorb_doutTakes (s : State) (b : Byte) : (s.absorb b).doutTakes = s.doutTakes := by
  unfold State.absorb; split <;> (try split) <;> rfl
@[simp] theorem State.absorb_rspTakes (s : State) (b : Byte) : (s.absorb b).rspTakes = s.rspTakes := by
  unfold State.absorb; split <;> (try split) <;> rfl
@[simp] theorem State.absorb_doutSent (s : State) (b : Byte) : (s.absorb b).doutSent = s.doutSent := by
  unfold State.absorb; split <;> (try split) <;> rfl
@[simp] theorem State.absorb_rspSent (s : State) (b : Byte) : (s.absorb b).rspSent = s.rspSent := by
  unfold State.absorb; split <;> (try split) <;> rfl
@[simp] theorem State.absorb_freeCount (s : State) (b : Byte) : (s.absorb b).freeCount = s.freeCount := by
  unfold State.absorb; split <;> (try split) <;> rfl

theorem State.absorb_digestAcc (s : State) (b : Byte) :
    (s.absorb b).digestAcc = if opNum s.curCmd = 7 then s.digestAcc else s.digestAcc ++ [b] := by
  unfold State.absorb
  split
  · next h => rw [if_pos h]; split <;> rfl
  · next h => rw [if_neg h]

theorem State.absorb_stage (s : State) (b : Byte) :
    (s.absorb b).stage =
      if opNum s.curCmd = 7 ∧ blobLenOk (payloadLen s.curCmd) = true then s.stage ++ [b] else s.stage := by
  unfold State.absorb
  split
  · next h => simp only [h, true_and]; split <;> rfl
  · next h => rw [if_neg (fun hh => h hh.1)]

/-! ### The ports at a clock edge (R67, log 14) -/

@[simp] theorem State.dinReadyAt_true (s : State) : s.dinReadyAt true = s.dinReady := rfl
@[simp] theorem State.doutValidAt_true (s : State) : s.doutValidAt true = s.doutValid := rfl
@[simp] theorem State.dinReadyAt_false (s : State) : s.dinReadyAt false = false := Bool.and_false _
@[simp] theorem State.doutValidAt_false (s : State) : s.doutValidAt false = false := Bool.and_false _

/-! ### The replaced filter -/

@[simp] theorem Arch.replaced_ready (n k : Nat) (m : Memory) : (Arch.replaced n k m).ready = true := rfl
@[simp] theorem Arch.replaced_sizeBytes (n k : Nat) (m : Memory) :
    (Arch.replaced n k m).sizeBytes = BitVec.ofNat 14 n := rfl
@[simp] theorem Arch.replaced_k (n k : Nat) (m : Memory) : (Arch.replaced n k m).k = BitVec.ofNat 5 k := rfl
@[simp] theorem Arch.replaced_store (n k : Nat) (m : Memory) : (Arch.replaced n k m).store = m := rfl

end Sys2Proof.Machine
end

