-- ==== Sys2Proof/Laws/BitStore.lean ====
section
/-! SUPPORT. What each primitive of the bit store can do, said once: BitRead, BitSet, several sets and several reads. -/

namespace Sys2Proof.Machine

theorem shift3 (n : Nat) : n >>> 3 = n / 8 := Nat.shiftRight_eq_div_pow n 3
theorem and7 (n : Nat) : n &&& 7 = n % 8 := Nat.and_two_pow_sub_one_eq_mod n 3

/-- BitRead answers exactly inside the store (R140, R142). -/
theorem Arch.bitRead_eq (a : Arch) (n : Nat) :
    a.bitRead n = if n < a.sizeBytes.toNat * 8 then some (a.bit n) else none := by
  unfold Arch.bitRead Arch.memRead Arch.bit
  rw [shift3, and7]
  by_cases h : n < a.sizeBytes.toNat * 8
  · rw [if_pos h, if_pos (show n / 8 < a.sizeBytes.toNat by omega)]
  · rw [if_neg h, if_neg (show ¬ n / 8 < a.sizeBytes.toNat by omega)]

/-- BitSet answers exactly inside the store, and only the store changes (R141, R142). -/
theorem Arch.bitSet_eq (a : Arch) (n : Nat) :
    a.bitSet n =
      if n < a.sizeBytes.toNat * 8 then
        some { a with store := a.store.write (n / 8) (a.store.read (n / 8) ||| (1 : Byte) <<< (n % 8)) }
      else none := by
  unfold Arch.bitSet Arch.memRead Arch.memWrite
  rw [shift3, and7]
  by_cases h : n < a.sizeBytes.toNat * 8
  · simp only [if_pos (show n / 8 < a.sizeBytes.toNat by omega), if_pos h]
  · rw [if_neg h, if_neg (show ¬ n / 8 < a.sizeBytes.toNat by omega)]

theorem getLsbD_or_shift_one (b : Byte) (i j : Nat) (hj : j < 8) :
    (b ||| (1 : Byte) <<< i).getLsbD j = (b.getLsbD j || decide (i = j)) := by
  rw [BitVec.getLsbD_or, BitVec.getLsbD_shiftLeft]
  by_cases hij : i = j
  · subst hij; simp [hj]
  · by_cases hlt : j < i
    · simp [hlt, hij]
    · have : j - i ≠ 0 := by omega
      simp [hij, hlt, this]

/-- BitSet inside the store: the one bit becomes 1, every other bit is as before, the store stays as it should. -/
theorem Arch.bitSet_spec (a : Arch) (ha : a.StoreOk) {n : Nat} (hn : n < a.sizeBytes.toNat * 8) :
    ∃ m, a.bitSet n = some { a with store := m } ∧ Arch.StoreOk { a with store := m } ∧
      ∀ i, Arch.bit { a with store := m } i = (a.bit i || decide (n = i)) := by
  refine ⟨_, by rw [Arch.bitSet_eq, if_pos hn], ⟨Memory.wf_write ha.1 _ _, ?_⟩, fun i => ?_⟩
  · exact Memory.bound_write (n := a.sizeBytes.toNat) ha.2 (by omega)
  · unfold Arch.bit
    simp only
    rw [Memory.read_write ha.1]
    by_cases h8 : n / 8 = i / 8
    · rw [if_pos h8, getLsbD_or_shift_one _ _ _ (Nat.mod_lt _ (by omega)), h8]
      congr 1
      exact decide_eq_decide.2 ⟨fun h => by omega, fun h => by omega⟩
    · rw [if_neg h8, decide_eq_false (fun h : n = i => h8 (by rw [h])), Bool.or_false]

/-- Several sets (R143): every listed bit becomes 1, every other bit is as before, and nothing else changes. -/
theorem Arch.setBits_spec (ns : List Nat) (a : Arch) (ha : a.StoreOk) (hn : ∀ n ∈ ns, n < a.sizeBytes.toNat * 8) :
    ∃ m, a.setBits ns = some { a with store := m } ∧ Arch.StoreOk { a with store := m } ∧
      ∀ i, Arch.bit { a with store := m } i = (a.bit i || decide (i ∈ ns)) := by
  induction ns generalizing a with
  | nil => exact ⟨a.store, rfl, ha, fun i => by simp⟩
  | cons n ns ih =>
    obtain ⟨m, hm, hok, hbit⟩ := a.bitSet_spec ha (hn n (by simp))
    obtain ⟨m', hm', hok', hbit'⟩ := ih { a with store := m } hok fun k hk => hn k (by simp [hk])
    refine ⟨m', ?_, hok', fun i => ?_⟩
    · rw [Arch.setBits, hm]
      exact hm'
    · have h1 := hbit' i
      have h2 := hbit i
      rw [h2] at h1
      rw [show Arch.bit { a with store := m' } i = _ from h1, Bool.or_assoc]
      congr 1
      simp only [List.mem_cons, Bool.decide_or, eq_comm]

/-- Several reads: the AND of the bits, when all are inside the store (R206). -/
theorem Arch.allBits_spec (ns : List Nat) (a : Arch) (hn : ∀ n ∈ ns, n < a.sizeBytes.toNat * 8) :
    a.allBits ns = some (ns.all a.bit) := by
  induction ns with
  | nil => rfl
  | cons n ns ih =>
    rw [Arch.allBits, Arch.bitRead_eq, if_pos (hn n (by simp)), ih fun k hk => hn k (by simp [hk])]
    rfl

/-- Whatever several sets answer, only the store changes. -/
theorem Arch.setBits_frame {ns : List Nat} {a a' : Arch} (h : a.setBits ns = some a') :
    a'.ready = a.ready ∧ a'.sizeBytes = a.sizeBytes ∧ a'.k = a.k := by
  induction ns generalizing a with
  | nil => cases h; exact ⟨rfl, rfl, rfl⟩
  | cons n ns ih =>
    rw [Arch.setBits, Arch.bitSet_eq] at h
    split at h
    · exact absurd h (by simp)
    · next hb =>
      split at hb
      · cases hb
        have := ih h
        exact this
      · exact absurd hb (by simp)

/-- Two stores in canonical form, inside the same size and with the same bits, are equal. -/
theorem Arch.store_ext {a b : Arch} (ha : a.StoreOk) (hb : b.StoreOk) (h : ∀ n, a.bit n = b.bit n) :
    a.store = b.store := by
  refine Memory.ext_read ha.1 hb.1 fun j => BitVec.eq_of_getLsbD_eq fun i hi => ?_
  have := h (8 * j + i)
  unfold Arch.bit at this
  rwa [show (8 * j + i) / 8 = j by omega, show (8 * j + i) % 8 = i by omega] at this

end Sys2Proof.Machine
end

