-- ==== Sys2Proof/Laws/Decode.lean ====
section
/-! SUPPORT. Command words: what a decoded word says about the word, and the fields of an encoded word. -/

namespace Sys2Proof

theorem szField_lt (w : Word) : szField w < 65536 := (w.extractLsb' 0 16).isLt
theorem kfField_lt (w : Word) : kfField w < 256 := (w.extractLsb' 16 8).isLt
theorem lenField_lt (w : Word) : lenField w < 16777216 := (w.extractLsb' 0 24).isLt
theorem selField_lt (w : Word) : selField w < 256 := (w.extractLsb' 0 8).isLt

theorem opField_of_opNum {w : Word} {n : Nat} (h : opNum w = n) : opField w = BitVec.ofNat 4 n := by
  rw [← h, opNum, BitVec.ofNat_toNat, BitVec.setWidth_eq]

/-- A reserved field passes iff it is 0 (R109). -/
theorem checkReserved_ok {rsv : Nat} {i j : Instr} (h : checkReserved rsv i = .ok j) : i = j ∧ rsv = 0 := by
  unfold checkReserved at h
  split at h
  · next h0 => cases h; exact ⟨rfl, h0⟩
  · exact absurd h (by simp)

theorem checkReserved_error {rsv : Nat} {i : Instr} {e : DecodeError} (h : checkReserved rsv i = .error e) :
    e = .reservedBits ∧ rsv ≠ 0 := by
  unfold checkReserved at h
  split at h
  · exact absurd h (by simp)
  · next h0 => cases h; exact ⟨rfl, h0⟩

/-- The operands of a command are its word's fields, and the reserved field of its format is 0 (R101–R105). -/
def Instr.ReadsFrom (w : Word) : Instr → Prop
  | .nop => rsvZ w = 0
  | .construct sz kf => sz = szField w ∧ kf = kfField w ∧ rsvCL w = 0
  | .insert len => len = lenField w ∧ rsvCL w = 0
  | .query len => len = lenField w ∧ rsvCL w = 0
  | .insertDigest => rsvZ w = 0
  | .queryDigest => rsvZ w = 0
  | .encode => rsvZ w = 0
  | .decode len => len = lenField w ∧ rsvCL w = 0
  | .readReg sel => sel = selField w ∧ rsvS w = 0

/-- What a decoded word says: its opcode is the command's, its operands fit and are its fields, and its reserved field is
0 (R101–R106). -/
theorem decodeWord_ok {w : Word} {i : Instr} (h : decodeWord w = .ok i) :
    opField w = i.opcode ∧ i.wf = true ∧ i.ReadsFrom w := by
  unfold decodeWord at h
  generalize hn : opNum w = n at h
  have hop := opField_of_opNum hn
  split at h
  all_goals first
    | exact absurd h (by simp)
    | (obtain ⟨rfl, hr⟩ := checkReserved_ok h
       simp [hop, hr, Instr.ReadsFrom, Instr.wf, Instr.opcode, szField_lt, kfField_lt, lenField_lt, selField_lt])

/-- The payload length of a command: its LEN operand, or 32 for the digest forms (R107). -/
def Instr.payload : Instr → Nat
  | .nop => 0
  | .construct _ _ => 0
  | .insert len => len
  | .query len => len
  | .insertDigest => 32
  | .queryDigest => 32
  | .encode => 0
  | .decode len => len
  | .readReg _ => 0

/-- The payload length of a decoded word (R107). -/
theorem payloadLen_of_ok {w : Word} {i : Instr} (h : decodeWord w = .ok i) : payloadLen w = i.payload := by
  obtain ⟨hop, -, hf⟩ := decodeWord_ok h
  have hn : opNum w = i.opcode.toNat := by rw [opNum, hop]
  unfold payloadLen
  rw [hn]
  cases i
  all_goals first
    | rfl
    | exact (And.left hf).symm

/-- The opcode numbers of a word that no row of the opcode map defines (R110), or whose reserved field is not 0 (R109). -/
theorem decodeWord_error {w : Word} {e : DecodeError} (h : decodeWord w = .error e) :
    (e = .undefinedOpcode ∧ 9 ≤ opNum w) ∨ (e = .reservedBits ∧ opNum w < 9) := by
  unfold decodeWord at h
  generalize hn : opNum w = n at h
  split at h
  all_goals first
    | exact .inr ⟨(checkReserved_error h).1, by omega⟩
    | (cases h; refine .inl ⟨rfl, ?_⟩; simp only [imp_false] at *; omega)

theorem payloadLen_lt (w : Word) : payloadLen w < 16777216 := by
  have hlen := lenField_lt w
  unfold payloadLen
  split <;> omega

end Sys2Proof
end

