-- ==== Sys2Proof/Laws/Deriver.lean ====
section
/-! SUPPORT. What the index deriver gives: which lanes are enabled, and that every index is inside the store. -/

namespace Sys2Proof.Machine

/-- Lane `i` is enabled iff `i < K` (R164). -/
theorem Arch.laneEnable_bit (a : Arch) (i : Fin 16) : a.laneEnable.getLsbD i.val = decide (i.val < a.k.toNat) := by
  unfold Arch.laneEnable
  rw [BitVec.getLsbD_ofNat, Nat.one_shiftLeft, Nat.testBit_two_pow_sub_one]
  simp [i.isLt]

/-- `idx[i]` of the lane file. -/
theorem Arch.laneFile_idx (a : Arch) (d : Digest) (i : Fin 16) : (a.laneFile d).idx[i.val] = a.maskedIndex d i := by
  simp [Arch.laneFile]

/-- The derived list: the masked indices of the lanes below K, in lane order (R165). -/
theorem Arch.derive_eq (a : Arch) (d : Digest) :
    a.derive d = ((List.finRange 16).filter fun i => decide (i.val < a.k.toNat)).map fun i => (a.maskedIndex d i).toNat := by
  have hidx : (fun i : Fin 16 => ((a.laneFile d).idx[i.val]).toNat) = fun i => (a.maskedIndex d i).toNat :=
    funext fun i => by rw [Arch.laneFile_idx]
  have hen : (fun i : Fin 16 => a.laneEnable.getLsbD i.val) = fun i => decide (i.val < a.k.toNat) :=
    funext fun i => a.laneEnable_bit i
  rw [Arch.derive, Arch.enabledLanes, hidx, hen]

theorem Arch.mem_derive (a : Arch) (d : Digest) (n : Nat) :
    n ∈ a.derive d ↔ ∃ i : Fin 16, i.val < a.k.toNat ∧ (a.maskedIndex d i).toNat = n := by
  rw [Arch.derive_eq]
  simp

/-- The list that a digest derives depends on SIZE_BYTES and K alone (R165). -/
theorem Arch.derive_congr {a b : Arch} (d : Digest) (hs : a.sizeBytes = b.sizeBytes) (hk : a.k = b.k) :
    a.derive d = b.derive d := by
  unfold Arch.derive Arch.enabledLanes Arch.laneFile Arch.laneEnable Arch.maskedIndex Arch.indexMask
  rw [hs, hk]

/-- Masking puts every index inside a store that is not empty (R163, R142). -/
theorem Arch.maskedIndex_lt (a : Arch) (d : Digest) (i : Fin 16) (h : 0 < a.sizeBytes.toNat) :
    (a.maskedIndex d i).toNat < a.sizeBytes.toNat * 8 := by
  unfold Arch.maskedIndex Arch.indexMask
  rw [BitVec.toNat_and, BitVec.toNat_ofNat]
  have h1 := Nat.and_le_right (n := (candidate d i).toNat) (m := (a.sizeBytes.toNat * 8 - 1) % 2 ^ 16)
  have h2 := Nat.mod_le (a.sizeBytes.toNat * 8 - 1) (2 ^ 16)
  omega

theorem Arch.derive_lt (a : Arch) (d : Digest) (h : 0 < a.sizeBytes.toNat) :
    ∀ n ∈ a.derive d, n < a.sizeBytes.toNat * 8 := by
  intro n hn
  obtain ⟨i, -, rfl⟩ := (a.mem_derive d n).1 hn
  exact a.maskedIndex_lt d i h

/-- The insert unit, once: the derived bits become 1, every other bit is as before, and nothing else changes. -/
theorem Arch.insertDigest_spec (a : Arch) (d : Digest) (ha : a.StoreOk) (h : 0 < a.sizeBytes.toNat) :
    ∃ m, a.insertDigest d = some { a with store := m } ∧ Arch.StoreOk { a with store := m } ∧
      ∀ i, Arch.bit { a with store := m } i = (a.bit i || decide (i ∈ a.derive d)) :=
  Arch.setBits_spec _ a ha (a.derive_lt d h)

/-- The query unit, once: the AND of the derived bits. -/
theorem Arch.queryDigest_spec (a : Arch) (d : Digest) (h : 0 < a.sizeBytes.toNat) :
    a.queryDigest d = some ((a.derive d).all a.bit) :=
  Arch.allBits_spec _ a (a.derive_lt d h)

end Sys2Proof.Machine
end

