-- ==== Sys2Proof/Laws/Flags.lean ====
section
/-! SUPPORT. The response word and the CONFIG register as numbers: each field at its place (R113, R32). -/

namespace Sys2Proof.Machine

theorem or_shifted {k a b : Nat} (h : a < 2 ^ k) : a ||| b <<< k = a + b * 2 ^ k := by
  rw [Nat.or_comm, Nat.shiftLeft_eq, Nat.mul_comm, ← Nat.two_pow_add_eq_or_of_lt h, Nat.add_comm]

/-- STATUS as a number (R113). -/
theorem statusWord_toNat (op code detail : BitVec 4) (result : Bool) :
    (statusWord op code detail result).toNat =
      code.toNat + detail.toNat * 16 + result.toNat * 256 + op.toNat * 4096 := by
  have hop := op.isLt
  have hcode := code.isLt
  have hdetail := detail.isLt
  have hr : result.toNat < 2 := by cases result <;> decide
  have h1 : code.toNat ||| detail.toNat <<< 4 = code.toNat + detail.toNat * 2 ^ 4 := or_shifted (by omega)
  have h2 : code.toNat + detail.toNat * 2 ^ 4 ||| result.toNat <<< 8 = code.toNat + detail.toNat * 2 ^ 4 + result.toNat * 2 ^ 8 :=
    or_shifted (by omega)
  have h3 : code.toNat + detail.toNat * 2 ^ 4 + result.toNat * 2 ^ 8 ||| op.toNat <<< 12 =
      code.toNat + detail.toNat * 2 ^ 4 + result.toNat * 2 ^ 8 + op.toNat * 2 ^ 12 := or_shifted (by omega)
  unfold statusWord
  simp only [BitVec.toNat_or, BitVec.toNat_shiftLeft, BitVec.toNat_setWidth, BitVec.toNat_ofBool]
  rw [Nat.mod_eq_of_lt (by omega : code.toNat < 2 ^ 32), Nat.mod_eq_of_lt (by omega : detail.toNat < 2 ^ 32),
    Nat.mod_eq_of_lt (by omega : op.toNat < 2 ^ 32), Nat.mod_eq_of_lt (by omega : result.toNat < 2 ^ 32),
    Nat.mod_eq_of_lt (by rw [Nat.shiftLeft_eq]; omega : detail.toNat <<< 4 < 2 ^ 32),
    Nat.mod_eq_of_lt (by rw [Nat.shiftLeft_eq]; omega : result.toNat <<< 8 < 2 ^ 32),
    Nat.mod_eq_of_lt (by rw [Nat.shiftLeft_eq]; omega : op.toNat <<< 12 < 2 ^ 32), h1, h2, h3]
  norm_num

/-- The response word as a number (R113). -/
theorem responseWord_toNat (op code detail : BitVec 4) (result : Bool) (value : Word) :
    (responseWord op code detail result value).toNat =
      code.toNat + detail.toNat * 16 + result.toNat * 256 + op.toNat * 4096 + value.toNat * 4294967296 := by
  have hs := statusWord_toNat op code detail result
  have hlt := (statusWord op code detail result).isLt
  have hv := value.isLt
  have h1 : (statusWord op code detail result).toNat ||| value.toNat <<< 32 =
      (statusWord op code detail result).toNat + value.toNat * 2 ^ 32 := or_shifted hlt
  unfold responseWord
  simp only [BitVec.toNat_or, BitVec.toNat_shiftLeft, BitVec.toNat_setWidth]
  rw [Nat.mod_eq_of_lt (by omega : value.toNat < 2 ^ 64),
    Nat.mod_eq_of_lt (by omega : (statusWord op code detail result).toNat < 2 ^ 64),
    Nat.mod_eq_of_lt (by rw [Nat.shiftLeft_eq]; omega : value.toNat <<< 32 < 2 ^ 64), Nat.or_comm, h1, hs]
  norm_num

/-- CONFIG as a number (R32). -/
theorem Arch.regConfig_toNat (a : Arch) :
    a.regConfig.toNat = a.sizeBytes.toNat + a.k.toNat * 65536 + a.ready.toNat * 2147483648 := by
  have hs := a.sizeBytes.isLt
  have hk := a.k.isLt
  have hr : a.ready.toNat < 2 := by cases a.ready <;> decide
  have h1 : a.sizeBytes.toNat ||| a.k.toNat <<< 16 = a.sizeBytes.toNat + a.k.toNat * 2 ^ 16 := or_shifted (by omega)
  have h2 : a.sizeBytes.toNat + a.k.toNat * 2 ^ 16 ||| a.ready.toNat <<< 31 =
      a.sizeBytes.toNat + a.k.toNat * 2 ^ 16 + a.ready.toNat * 2 ^ 31 := or_shifted (by omega)
  unfold Arch.regConfig
  simp only [BitVec.toNat_or, BitVec.toNat_shiftLeft, BitVec.toNat_setWidth, BitVec.toNat_ofBool]
  rw [Nat.mod_eq_of_lt (by omega : a.sizeBytes.toNat < 2 ^ 32), Nat.mod_eq_of_lt (by omega : a.k.toNat < 2 ^ 32),
    Nat.mod_eq_of_lt (by omega : a.ready.toNat < 2 ^ 32),
    Nat.mod_eq_of_lt (by rw [Nat.shiftLeft_eq]; omega : a.k.toNat <<< 16 < 2 ^ 32),
    Nat.mod_eq_of_lt (by rw [Nat.shiftLeft_eq]; omega : a.ready.toNat <<< 31 < 2 ^ 32),
    Nat.or_comm, Nat.or_comm (a.ready.toNat <<< 31), ← Nat.or_assoc, h1, h2]
  norm_num

/-- The fields of a response word read back (R113). -/
theorem responseWord_slice (op code detail : BitVec 4) (result : Bool) (value : Word) (lo n : Nat) :
    ((responseWord op code detail result value).extractLsb' lo n).toNat =
      (code.toNat + detail.toNat * 16 + result.toNat * 256 + op.toNat * 4096 + value.toNat * 4294967296) / 2 ^ lo % 2 ^ n := by
  rw [BitVec.extractLsb'_toNat, responseWord_toNat, Nat.shiftRight_eq_div_pow]

@[simp] theorem responseWord_code (op code detail : BitVec 4) (result : Bool) (value : Word) :
    (responseWord op code detail result value).extractLsb' 0 4 = code := by
  have hcode := code.isLt
  apply BitVec.eq_of_toNat_eq
  rw [responseWord_slice]
  omega

end Sys2Proof.Machine
end

