-- ==== Sys2Proof/Laws/Word.lean ====
section
/-! SUPPORT. Powers of two, the blob lengths that can succeed, and a 32-byte sequence as a digest. -/

namespace Sys2Proof

/-- `pow2(x)` says that `x` is a power of two (R12). -/
theorem pow2_iff (x : Nat) : pow2 x = true ↔ ∃ n, x = 2 ^ n := by
  unfold pow2
  simp only [Bool.and_eq_true, decide_eq_true_eq, beq_iff_eq]
  constructor
  · rintro ⟨h0, h⟩
    exact (Nat.and_sub_one_eq_zero_iff_isPowerOfTwo (by omega)).1 h
  · rintro ⟨n, rfl⟩
    have := Nat.two_pow_pos n
    exact ⟨this, (Nat.and_sub_one_eq_zero_iff_isPowerOfTwo (by omega)).2 ⟨n, rfl⟩⟩

theorem pow2_pos {x : Nat} (h : pow2 x = true) : 0 < x := by
  unfold pow2 at h
  simp only [Bool.and_eq_true, decide_eq_true_eq] at h
  exact h.1

end Sys2Proof

namespace Sys2Proof.Machine

/-- A blob length that can succeed (R231). -/
theorem blobLenOk_iff (len : Nat) : blobLenOk len = true ↔ pow2 (len - 1) = true ∧ len - 1 ≤ 8192 := by
  unfold blobLenOk Config.sizeMaxBytes
  rw [Bool.and_eq_true, decide_eq_true_eq]

/-- The bytes of a digest are that digest. -/
theorem digestOfBytes_toList (d : Digest) : digestOfBytes d.toList = some d := by
  unfold digestOfBytes
  rw [dif_pos (by simp)]
  rfl

theorem digestOfBytes_isSome {bs : List Byte} (h : bs.length = 32) : ∃ d, digestOfBytes bs = some d := by
  unfold digestOfBytes
  rw [dif_pos h]
  exact ⟨_, rfl⟩

/-- What a payload that answers a blob says: the staged bytes are the blob (R231, R233). -/
theorem State.payloadBlob_eq_some {s : State} {len : Nat} {bits : List Byte} {kb : Byte}
    (h : s.payloadBlob len = some (bits, kb)) : s.stage = bits ++ [kb] ∧ len = bits.length + 1 := by
  unfold State.payloadBlob at h
  split at h
  · next hlen =>
    split at h
    · exact absurd h (by simp)
    · next b hb =>
      cases h
      obtain ⟨hlt, hget⟩ := List.getElem?_eq_some_iff.1 hb
      refine ⟨?_, by rw [List.length_take]; omega⟩
      rw [← hget, ← List.take_succ_eq_append_getElem hlt, List.take_of_length_le (by omega)]
  · exact absurd h (by simp)

end Sys2Proof.Machine
end

