-- ==== Sys2Proof/Laws/Exec.lean ====
section
/-! SUPPORT. Everything that a command, EXECUTE and a step can do when they answer a next state, said once: provers cite
these instead of unfolding the meanings. -/

namespace Sys2Proof.Machine

/-- A command that ends with an error (R275). -/
theorem raise_next {op : BitVec 4} {e : CommandError} {s t : State} (h : raise op e s = .next t) :
    t = s.respond (responseWord op e.code e.detail false 0) := by
  cases h
  rfl

/-- What the command `i` can do in EXECUTE when it answers `t`: one of six endings. -/
inductive Ending (i : Instr) (s t : State) : Prop where
  /-- An error: only the response (R275). -/
  | failed (e : CommandError) (ht : t = s.respond (responseWord i.opcode e.code e.detail false 0))
  /-- INSERT and INSERT_DIGEST (R202, R204). -/
  | inserted (d : Digest) (a : Arch) (hi : (∃ len, i = .insert len) ∨ i = .insertDigest) (hr : s.arch.ready = true)
      (ha : s.arch.insertDigest d = some a) (ht : t = (s.withArch a).respond (responseWord i.opcode codeOk 0 false 0))
  /-- QUERY and QUERY_DIGEST (R203, R205). -/
  | queried (d : Digest) (r : Bool) (hi : (∃ len, i = .query len) ∨ i = .queryDigest) (hr : s.arch.ready = true)
      (hq : s.arch.queryDigest d = some r) (ht : t = s.respond (responseWord i.opcode codeOk 0 r 0))
  /-- CONSTRUCT and DECODE (R200, R231). -/
  | replaced (n k : Nat) (m : Memory) (hi : (∃ sz kf, i = .construct sz kf) ∨ ∃ len, i = .decode len)
      (hn : pow2 n = true) (hn' : n ≤ 8192) (hk : 1 ≤ k) (hk' : k ≤ 16) (hm : Memory.wf m = true)
      (hm' : ∀ c ∈ m, c.1 < n)
      (ht : t = (s.withArch (Arch.replaced n k m)).respond (responseWord i.opcode codeOk 0 false 0))
  /-- ENCODE (R230). -/
  | encoded (hi : i = .encode) (hr : s.arch.ready = true)
      (ht : t = s.beginOutput (s.arch.sizeBytes.toNat + 1)
        (responseWord i.opcode codeOk 0 false (BitVec.ofNat 32 (s.arch.sizeBytes.toNat + 1))))
  /-- NOP and READ_REG (R250, R251). -/
  | answered (v : Word) (hi : (i = .nop ∧ v = 0) ∨ ∃ sel, i = .readReg sel)
      (ht : t = s.respond (responseWord i.opcode codeOk 0 false v))

theorem insertUnit_next {op : BitVec 4} {d : Digest} {s t : State} (h : insertUnit op d s = .next t) :
    ∃ a, s.arch.insertDigest d = some a ∧ t = (s.withArch a).respond (responseWord op codeOk 0 false 0) := by
  unfold insertUnit at h
  split at h
  · next a ha => cases h; exact ⟨a, ha, rfl⟩
  · cases h

theorem queryUnit_next {op : BitVec 4} {d : Digest} {s t : State} (h : queryUnit op d s = .next t) :
    ∃ r, s.arch.queryDigest d = some r ∧ t = s.respond (responseWord op codeOk 0 r 0) := by
  unfold queryUnit at h
  split at h
  · next r hr => cases h; exact ⟨r, hr, rfl⟩
  · cases h

theorem execConstruct_next {sz kf : Nat} {s t : State} (h : execConstruct sz kf s = .next t) :
    Ending (.construct sz kf) s t := by
  unfold execConstruct Config.sizeMaxBytes Config.kMin Config.kMax at h
  split at h
  · exact .failed _ (raise_next h)
  next hp =>
  split at h
  · exact .failed _ (raise_next h)
  next hs =>
  split at h
  · exact .failed _ (raise_next h)
  next hk =>
  cases h
  exact .replaced sz kf Memory.zeros (.inl ⟨_, _, rfl⟩) (by simpa using hp) (by omega) (by omega) (by omega) rfl
    (fun c hc => by simp [Memory.zeros] at hc) rfl

theorem execInsertFor_next {b : Config.Build} {len : Nat} {s t : State} (h : execInsertFor b len s = .next t) :
    Ending (.insert len) s t := by
  unfold execInsertFor at h
  split at h
  · exact .failed _ (raise_next h)
  next hr =>
  split at h
  · cases h
  · obtain ⟨a, ha, ht⟩ := insertUnit_next h
    exact .inserted _ a (.inl ⟨_, rfl⟩) (by simpa using hr) ha ht

theorem execQueryFor_next {b : Config.Build} {len : Nat} {s t : State} (h : execQueryFor b len s = .next t) :
    Ending (.query len) s t := by
  unfold execQueryFor at h
  split at h
  · exact .failed _ (raise_next h)
  next hr =>
  split at h
  · cases h
  · obtain ⟨r, hq, ht⟩ := queryUnit_next h
    exact .queried _ r (.inl ⟨_, rfl⟩) (by simpa using hr) hq ht

theorem execInsertDigest_next {s t : State} (h : execInsertDigest s = .next t) : Ending .insertDigest s t := by
  unfold execInsertDigest at h
  split at h
  · exact .failed _ (raise_next h)
  next hr =>
  split at h
  · cases h
  · obtain ⟨a, ha, ht⟩ := insertUnit_next h
    exact .inserted _ a (.inr rfl) (by simpa using hr) ha ht

theorem execQueryDigest_next {s t : State} (h : execQueryDigest s = .next t) : Ending .queryDigest s t := by
  unfold execQueryDigest at h
  split at h
  · exact .failed _ (raise_next h)
  next hr =>
  split at h
  · cases h
  · obtain ⟨r, hq, ht⟩ := queryUnit_next h
    exact .queried _ r (.inr rfl) (by simpa using hr) hq ht

theorem execEncode_next {s t : State} (h : execEncode s = .next t) : Ending .encode s t := by
  unfold execEncode at h
  split at h
  · exact .failed _ (raise_next h)
  next hr =>
  cases h
  exact .encoded rfl (by simpa using hr) rfl

theorem execDecode_next {len : Nat} {s t : State} (h : execDecode len s = .next t) : Ending (.decode len) s t := by
  unfold execDecode at h
  split at h
  · exact .failed _ (raise_next h)
  split at h
  · exact .failed _ (raise_next h)
  next hok =>
  split at h
  · cases h
  next bits kb hp =>
  split at h
  · exact .failed _ (raise_next h)
  next hk =>
  cases h
  obtain ⟨hpow, hle⟩ := (blobLenOk_iff len).1 (by simpa using hok)
  obtain ⟨-, hlen⟩ := State.payloadBlob_eq_some hp
  unfold Config.kMin Config.kMax at hk
  exact .replaced (len - 1) kb.toNat _ (.inr ⟨_, rfl⟩) hpow hle (by omega) (by omega) (Memory.wf_ofBytes _)
    (fun c hc => Nat.lt_of_lt_of_le (Memory.bound_ofBytes _ c hc) (by omega)) rfl

theorem execReadRegFor_next {b : Config.Build} {sel : Nat} {s t : State} (h : execReadRegFor b sel s = .next t) :
    Ending (.readReg sel) s t := by
  unfold execReadRegFor at h
  split at h
  · cases h; exact .answered _ (.inr ⟨_, rfl⟩) rfl
  · exact .failed _ (raise_next h)

/-- Everything a command can do when it answers a next state, in any build. -/
theorem execFor_next {b : Config.Build} {i : Instr} {s t : State} (h : execFor b i s = .next t) : Ending i s t := by
  cases i with
  | nop => cases h; exact .answered 0 (.inl ⟨rfl, rfl⟩) rfl
  | construct sz kf => exact execConstruct_next h
  | insert len => exact execInsertFor_next h
  | query len => exact execQueryFor_next h
  | insertDigest => exact execInsertDigest_next h
  | queryDigest => exact execQueryDigest_next h
  | encode => exact execEncode_next h
  | decode len => exact execDecode_next h
  | readReg sel => exact execReadRegFor_next h

/-! ### This build (R9) -/

@[simp] theorem execFor_thisBuild : execFor thisBuild = exec := by
  funext i s
  cases i <;> rfl

@[simp] theorem stepFor_thisBuild : stepFor thisBuild = step := by
  funext s
  unfold stepFor step
  rw [execFor_thisBuild]

/-- Everything a command can do when it answers a next state. -/
theorem exec_next {i : Instr} {s t : State} (h : exec i s = .next t) : Ending i s t :=
  execFor_next (b := thisBuild) (by rwa [execFor_thisBuild])

/-! ### EXECUTE and the step of each phase, for any meanings of the commands -/

/-- Everything EXECUTE can do when it answers a next state: a command's ending, or the answer to a word that is no
command (R252, R253). -/
theorem stepExecuteBy_next {run : Instr → State → Host.Outcome State Fault Refusal} {s t : State}
    (h : stepExecuteBy run s = .next t) :
    s.remain = 0 ∧
      ((∃ i, decodeWord s.curCmd = .ok i ∧ run i s = .next t) ∨
        ∃ e : CommandError,
          (e = .undefinedOpcode ∧ decodeWord s.curCmd = .error .undefinedOpcode ∨
            e = .reservedBits ∧ decodeWord s.curCmd = .error .reservedBits) ∧
          t = s.respond (responseWord (opField s.curCmd) e.code e.detail false 0)) := by
  unfold stepExecuteBy at h
  split at h
  · cases h
  next hr =>
  refine ⟨by simpa using hr, ?_⟩
  generalize hd : decodeWord s.curCmd = d at h
  match d, h with
  | .ok i, h => exact .inl ⟨i, rfl, h⟩
  | .error .undefinedOpcode, h => exact .inr ⟨.undefinedOpcode, .inl ⟨rfl, rfl⟩, raise_next h⟩
  | .error .reservedBits, h => exact .inr ⟨.reservedBits, .inr ⟨rfl, rfl⟩, raise_next h⟩

/-- Everything EXECUTE can do in this build. -/
theorem stepExecute_next {s t : State} (h : stepExecute s = .next t) :
    s.remain = 0 ∧
      ((∃ i, decodeWord s.curCmd = .ok i ∧ exec i s = .next t) ∨
        ∃ e : CommandError,
          (e = .undefinedOpcode ∧ decodeWord s.curCmd = .error .undefinedOpcode ∨
            e = .reservedBits ∧ decodeWord s.curCmd = .error .reservedBits) ∧
          t = s.respond (responseWord (opField s.curCmd) e.code e.detail false 0)) := stepExecuteBy_next h

section
variable {run : Instr → State → Host.Outcome State Fault Refusal} {s : State}

/-- A step with `rst` = 1 is the reset edge (R300). -/
theorem stepBy_of_rst (h : s.rst = true) : stepBy run s = .next s.resetEdge := by
  unfold stepBy
  rw [if_pos h]

/-- A step with `rst` = 0 is its phase's step (R68). -/
theorem stepBy_of_phase (h : s.rst = false) : stepBy run s = stepPhaseBy run s := by
  unfold stepBy
  rw [h]
  rfl

theorem stepBy_idle (h : s.rst = false) (hp : s.phase = .idle) : stepBy run s = stepIdle s := by
  rw [stepBy_of_phase h, stepPhaseBy, hp]

theorem stepBy_payload (h : s.rst = false) (hp : s.phase = .payload) : stepBy run s = stepPayload s := by
  rw [stepBy_of_phase h, stepPhaseBy, hp]

theorem stepBy_execute (h : s.rst = false) (hp : s.phase = .execute) : stepBy run s = stepExecuteBy run s := by
  rw [stepBy_of_phase h, stepPhaseBy, hp]

theorem stepBy_output (h : s.rst = false) (hp : s.phase = .output) : stepBy run s = stepOutput s := by
  rw [stepBy_of_phase h, stepPhaseBy, hp]

theorem stepBy_respond (h : s.rst = false) (hp : s.phase = .respond) : stepBy run s = stepRespond s := by
  rw [stepBy_of_phase h, stepPhaseBy, hp]

end

/-- A clock edge is a step, unless the engine is busy there: then it is in PAYLOAD, EXECUTE or OUTPUT out of reset, and nothing
changes (R67, R68, R308). -/
theorem edgeFor_cases (b : Config.Build) (moves : Bool) (s : State) :
    edgeFor b moves s = stepFor b s ∨
      edgeFor b moves s = .next s ∧ moves = false ∧ s.rst = false ∧
        (s.phase = .payload ∨ s.phase = .execute ∨ s.phase = .output) := by
  unfold edgeFor State.mayBeBusy
  cases moves <;> cases s.rst <;> cases s.phase <;> simp

/-- At an edge at which the engine makes its move, the edge is a step. -/
@[simp] theorem edgeFor_true (b : Config.Build) (s : State) : edgeFor b true s = stepFor b s := by
  unfold edgeFor
  rw [Bool.or_true, if_pos rfl]

/-- A step with `rst` = 1 is the reset edge (R300), in this build. -/
theorem step_of_rst {s : State} (h : s.rst = true) : step s = .next s.resetEdge := stepBy_of_rst h

theorem step_idle {s : State} (h : s.rst = false) (hp : s.phase = .idle) : step s = stepIdle s := stepBy_idle h hp

theorem step_payload {s : State} (h : s.rst = false) (hp : s.phase = .payload) : step s = stepPayload s := stepBy_payload h hp

theorem step_execute {s : State} (h : s.rst = false) (hp : s.phase = .execute) : step s = stepExecute s := stepBy_execute h hp

theorem step_output {s : State} (h : s.rst = false) (hp : s.phase = .output) : step s = stepOutput s := stepBy_output h hp

theorem step_respond {s : State} (h : s.rst = false) (hp : s.phase = .respond) : step s = stepRespond s := stepBy_respond h hp

end Sys2Proof.Machine
end

