-- ==== Sys2Proof/Laws/PerInstr.lean ====
section
/-! SUPPORT. The family EncodingRoundTrip: one lemma per constructor of Instr. -/

namespace Sys2Proof.Laws.EncodingRoundTrip

/-- Decoding the encoding of a well-formed command gives it back. -/
def Statement (i : Instr) : Prop := i.wf = true → decodeWord (encode i) = .ok i

/-- A slice below bit 28 of a word built from an opcode and operand bits. -/
theorem slice_encode (op : BitVec 4) (x : Word) (lo n : Nat) (h : lo + n ≤ 28) :
    ((op.setWidth 32 <<< 28 ||| x).extractLsb' lo n).toNat = x.toNat / 2 ^ lo % 2 ^ n := by
  rw [show (op.setWidth 32 <<< 28 ||| x).extractLsb' lo n = x.extractLsb' lo n from ?_]
  · rw [BitVec.extractLsb'_toNat, Nat.shiftRight_eq_div_pow]
  · ext i hi'
    simp only [BitVec.getElem_extractLsb', BitVec.getLsbD_or, BitVec.getLsbD_shiftLeft]
    have : lo + i < 28 := by omega
    simp [this]

/-- The opcode of a word built from an opcode and operand bits below bit 28. -/
theorem op_encode (op : BitVec 4) (x : Word) (hx : x.toNat < 2 ^ 28) :
    opNum (op.setWidth 32 <<< 28 ||| x) = op.toNat := by
  unfold opNum opField
  congr 1
  ext i hi'
  have : x.getLsbD (28 + i) = false := by
    rw [BitVec.getLsbD, Nat.testBit_lt_two_pow]
    exact Nat.lt_of_lt_of_le hx (Nat.pow_le_pow_right (by omega) (by omega))
  simp only [BitVec.getElem_extractLsb', BitVec.getLsbD_or, BitVec.getLsbD_shiftLeft, this]
  simp [hi', show i < 32 by omega, show 28 + i < 32 by omega]

theorem toNat_of_lt (n : Nat) (h : n < 2 ^ 28) : (BitVec.ofNat 32 n).toNat = n := by
  rw [BitVec.toNat_ofNat, Nat.mod_eq_of_lt (by omega)]

theorem nop : Statement .nop := fun _ => by decide

/-- The operand bits of CONSTRUCT as a number. -/
theorem constructBits (sz kf : Nat) (hs : sz < 65536) (hk : kf < 256) :
    BitVec.ofNat 32 kf <<< 16 ||| BitVec.ofNat 32 sz = BitVec.ofNat 32 (kf * 65536 + sz) := by
  apply BitVec.eq_of_toNat_eq
  rw [BitVec.toNat_or, BitVec.toNat_shiftLeft, BitVec.toNat_ofNat, BitVec.toNat_ofNat, BitVec.toNat_ofNat,
    Nat.mod_eq_of_lt (by omega : kf < 2 ^ 32), Nat.mod_eq_of_lt (by omega : sz < 2 ^ 32),
    Nat.shiftLeft_eq, Nat.mod_eq_of_lt (by omega : kf * 2 ^ 16 < 2 ^ 32), Nat.mod_eq_of_lt (by omega)]
  rw [Nat.mul_comm, ← Nat.two_pow_add_eq_or_of_lt (by omega : sz < 2 ^ 16)]
  omega

theorem construct (sz kf : Nat) : Statement (.construct sz kf) := by
  intro h
  simp only [Instr.wf, Bool.and_eq_true, decide_eq_true_eq] at h
  show decodeWord ((0x1 : BitVec 4).setWidth 32 <<< 28 ||| (BitVec.ofNat 32 kf <<< 16 ||| BitVec.ofNat 32 sz)) = _
  rw [constructBits sz kf h.1 h.2]
  have hn := toNat_of_lt (kf * 65536 + sz) (by omega)
  unfold decodeWord checkReserved szField kfField rsvCL
  rw [op_encode _ _ (by omega), slice_encode _ _ _ _ (by omega), slice_encode _ _ _ _ (by omega),
    slice_encode _ _ _ _ (by omega), hn, show (kf * 65536 + sz) / 2 ^ 24 % 2 ^ 4 = 0 by omega,
    show (kf * 65536 + sz) / 2 ^ 0 % 2 ^ 16 = sz by omega, show (kf * 65536 + sz) / 2 ^ 16 % 2 ^ 8 = kf by omega]
  rfl

/-- The fields that the decoder reads of a format L word. -/
theorem fields_of_len (op : BitVec 4) (len : Nat) (h : len < 16777216) :
    opNum (op.setWidth 32 <<< 28 ||| BitVec.ofNat 32 len) = op.toNat ∧
      rsvCL (op.setWidth 32 <<< 28 ||| BitVec.ofNat 32 len) = 0 ∧
      lenField (op.setWidth 32 <<< 28 ||| BitVec.ofNat 32 len) = len := by
  have hn := toNat_of_lt len (by omega)
  refine ⟨op_encode _ _ (by omega), ?_, ?_⟩
  · rw [rsvCL, slice_encode _ _ _ _ (by omega), hn]
    omega
  · rw [lenField, slice_encode _ _ _ _ (by omega), hn]
    omega

theorem insert (len : Nat) : Statement (.insert len) := by
  intro h
  simp only [Instr.wf, decide_eq_true_eq] at h
  obtain ⟨ho, hr, hl⟩ := fields_of_len 0x2 len h
  simp only [Sys2Proof.encode, Instr.operandBits, Instr.opcode, decodeWord, checkReserved, ho, hr, hl]
  rfl

theorem query (len : Nat) : Statement (.query len) := by
  intro h
  simp only [Instr.wf, decide_eq_true_eq] at h
  obtain ⟨ho, hr, hl⟩ := fields_of_len 0x3 len h
  simp only [Sys2Proof.encode, Instr.operandBits, Instr.opcode, decodeWord, checkReserved, ho, hr, hl]
  rfl

theorem insertDigest : Statement .insertDigest := fun _ => by decide

theorem queryDigest : Statement .queryDigest := fun _ => by decide

theorem encode : Statement .encode := fun _ => by decide

theorem decode (len : Nat) : Statement (.decode len) := by
  intro h
  simp only [Instr.wf, decide_eq_true_eq] at h
  obtain ⟨ho, hr, hl⟩ := fields_of_len 0x7 len h
  simp only [Sys2Proof.encode, Instr.operandBits, Instr.opcode, decodeWord, checkReserved, ho, hr, hl]
  rfl

theorem readReg (sel : Nat) : Statement (.readReg sel) := by
  intro h
  simp only [Instr.wf, decide_eq_true_eq] at h
  have hn := toNat_of_lt sel (by omega)
  show decodeWord ((0x8 : BitVec 4).setWidth 32 <<< 28 ||| BitVec.ofNat 32 sel) = _
  unfold decodeWord checkReserved rsvS selField
  rw [op_encode _ _ (by omega), slice_encode _ _ _ _ (by omega), slice_encode _ _ _ _ (by omega), hn,
    show sel / 2 ^ 8 % 2 ^ 20 = 0 by omega, show sel / 2 ^ 0 % 2 ^ 8 = sel by omega]
  rfl

end Sys2Proof.Laws.EncodingRoundTrip
end

