-- ==== Sys2Proof/Laws/Run.lean ====
section
/-! SUPPORT. Runs: one step at a time, a whole payload taken (R69), a whole output sent (R70). -/

namespace Sys2Proof.Machine

/-- The host's machine is this build's (R9). -/
theorem core_eq : Sys2Proof.core = coreBy exec := rfl

@[simp] theorem coreFor_thisBuild : coreFor thisBuild = Sys2Proof.core := by
  rw [core_eq, coreFor, execFor_thisBuild]

section
variable {run : Instr → State → Host.Outcome State Fault Refusal}

/-- A run whose first step answers `t` is the shorter run from `t`. -/
theorem run_of_stepBy {s t : State} (n : Nat) (h : stepBy run s = .next t) :
    Host.Core.run (coreBy run) (n + 1) s = Host.Core.run (coreBy run) n t := by
  have key : ∀ (M : Host.Core) (s t : M.State), M.step s = .next t → M.run (n + 1) s = M.run n t := by
    intro M s t h
    rw [Host.Core.run, h]
  exact key (coreBy run) s t h

/-- A run followed by one more step. -/
theorem run_then_stepBy {s t u : State} (n : Nat) (h : Host.Core.run (coreBy run) n s = .next t)
    (ht : stepBy run t = .next u) : Host.Core.run (coreBy run) (n + 1) s = .next u := by
  have key : ∀ (M : Host.Core) (n : Nat) (s t u : M.State), M.run n s = .next t → M.step t = .next u →
      M.run (n + 1) s = .next u := by
    intro M n
    induction n with
    | zero =>
      intro s t u h ht
      cases h
      rw [Host.Core.run, ht]
      rfl
    | succ n ih =>
      intro s t u h ht
      rw [Host.Core.run] at h ⊢
      cases hs : M.step s with
      | next s' => rw [hs] at h; exact ih s' t u h ht
      | fault f => rw [hs] at h; cases h
      | refused r => rw [hs] at h; cases h
  exact key (coreBy run) n s t u h ht

/-- A run of `n + 1` steps that answers has a first step that answers. -/
theorem stepBy_of_run {s t : State} {n : Nat} (h : Host.Core.run (coreBy run) (n + 1) s = .next t) :
    ∃ u, stepBy run s = .next u ∧ Host.Core.run (coreBy run) n u = .next t := by
  cases hs : stepBy run s with
  | next u => exact ⟨u, rfl, (run_of_stepBy n hs).symm.trans h⟩
  | fault f =>
    have key : ∀ (M : Host.Core) (s : M.State) (f : M.Fault), M.step s = .fault f → M.run (n + 1) s = .fault f := by
      intro M s f h
      rw [Host.Core.run, h]
    cases (key (coreBy run) s f hs).symm.trans h
  | refused r =>
    have key : ∀ (M : Host.Core) (s : M.State) (r : M.Refusal), M.step s = .refused r → M.run (n + 1) s = .refused r := by
      intro M s r h
      rw [Host.Core.run, h]
    cases (key (coreBy run) s r hs).symm.trans h

/-- One output byte sent (R70). -/
theorem stepBy_of_output {s : State} (hr : s.rst = false) (hp : s.phase = .output) (h0 : s.outCount ≠ 0)
    (ht : s.doutTakes ≠ 0) :
    stepBy run s = .next { s with
      doutSent := s.doutSent ++ [(s.doutData, s.doutLast)]
      doutTakes := s.doutTakes - 1
      outCount := s.outCount - 1
      phase := if s.outCount = 1 then .respond else .output } := by
  rw [stepBy_output hr hp, stepOutput, if_neg h0, if_neg ht]

/-- The response sent (R68). -/
theorem stepBy_of_respond {s : State} {r : Response} (hr : s.rst = false) (hp : s.phase = .respond)
    (h : s.pendingRsp = some r) (ht : 0 < s.rspTakes) :
    stepBy run s = .next { s with
      rspSent := s.rspSent ++ [r]
      rspTakes := s.rspTakes - 1
      pendingRsp := none
      phase := .idle } := by
  rw [stepBy_respond hr hp, stepRespond, h]
  simp only []
  rw [if_neg (by omega)]

end

/-- What a payload byte changes: the accumulator and STAGE (R35, R233). -/
theorem State.absorb_eq (s : State) (b : Byte) :
    s.absorb b = { s with
      digestAcc := if opNum s.curCmd = 7 then s.digestAcc else s.digestAcc ++ [b]
      stage := if opNum s.curCmd = 7 ∧ blobLenOk (payloadLen s.curCmd) = true then s.stage ++ [b] else s.stage } := by
  unfold State.absorb
  split
  · next h =>
    simp only [h, true_and, if_true]
    split <;> rfl
  · next h => rw [if_neg h, if_neg (fun hh => h hh.1)]

/-- A counter that is not 0 counts down by one, and is 1 exactly before 0. -/
theorem counter_pred {w : Nat} {b : BitVec w} {n : Nat} (hw : 1 < w) (h : b.toNat = n + 1) :
    b ≠ 0 ∧ (b - 1).toNat = n ∧ (b = 1 ↔ n = 0) := by
  have hlt := b.isLt
  have h1 : (1 : BitVec w).toNat = 1 := by
    rw [BitVec.ofNat_eq_ofNat, BitVec.toNat_ofNat, Nat.mod_eq_of_lt (Nat.one_lt_two_pow (by omega))]
  refine ⟨fun h0 => by rw [h0] at h; simp at h, ?_, fun he => ?_, fun he => ?_⟩
  · rw [BitVec.toNat_sub_of_le (by rw [BitVec.le_def, h1]; omega), h1]
    omega
  · rw [he, h1] at h
    omega
  · apply BitVec.eq_of_toNat_eq
    rw [h, h1]
    omega

section
variable {run : Instr → State → Host.Outcome State Fault Refusal}

/-- A run over a whole payload that the host offers and holds (R69). -/
theorem run_payload (bs : List Byte) (s : State) (rest : List (Offer Byte)) (n : Nat) (hr : s.rst = false)
    (hp : s.phase = .payload) (hrem : s.remain.toNat = bs.length) (hne : bs ≠ [])
    (hd : s.dinIn = (bs.map fun b => ⟨b, true⟩) ++ rest) :
    Host.Core.run (coreBy run) (bs.length + n) s = Host.Core.run (coreBy run) n ({ s with
      phase := .execute
      remain := 0
      dinIn := rest
      digestAcc := if opNum s.curCmd = 7 then s.digestAcc else s.digestAcc ++ bs
      stage := if opNum s.curCmd = 7 ∧ blobLenOk (payloadLen s.curCmd) = true then s.stage ++ bs else s.stage } :
        State) := by
  induction bs generalizing s with
  | nil => exact absurd rfl hne
  | cons b bs ih =>
    obtain ⟨h0, hsub, h1⟩ := counter_pred (by decide) (show s.remain.toNat = bs.length + 1 from hrem)
    have e : stepBy run s = .next (({ s with dinIn := (bs.map fun b => (⟨b, true⟩ : Offer Byte)) ++ rest, freeCount := s.freeCount
        }.absorb b).countByte) := by
      rw [stepBy_payload hr hp, stepPayload, if_neg h0, hd]
      rfl
    rw [show (b :: bs).length + n = bs.length + n + 1 by simp only [List.length_cons]; omega, run_of_stepBy _ e]
    by_cases hb : bs = []
    · subst hb
      rw [State.absorb_eq, List.length_nil, Nat.zero_add]
      unfold State.countByte
      simp only [h1.2 rfl]
      rfl
    · have h1' : s.remain ≠ 1 := fun h => hb (List.eq_nil_of_length_eq_zero (h1.1 h))
      rw [ih _ (by simpa using hr) (by rw [State.countByte_phase, State.absorb_remain]; exact if_neg h1')
        (by simpa using hsub) hb (by simp)]
      congr 1
      rw [State.absorb_eq]
      unfold State.countByte
      simp only
      by_cases h7 : opNum s.curCmd = 7
      · by_cases hk : blobLenOk (payloadLen s.curCmd) = true <;> (simp [h7, hk]; rfl)
      · simp [h7]
        rfl

/-- The last `n + 1` transfers of a blob's output: `n` bytes of the store and K (R70, R230). -/
def Arch.lastTransfers (a : Arch) (n : Nat) : List (Byte × Bool) :=
  ((List.range' (a.sizeBytes.toNat - n) n).map fun j => (a.store.read j, false)) ++ [(a.k.setWidth 8, true)]

/-- A run over all the output that is still to come, with a host that takes it (R70). -/
theorem run_output (n : Nat) (s : State) (hr : s.rst = false) (hp : s.phase = .output) (hc : s.outCount.toNat = n + 1)
    (hn : n ≤ s.arch.sizeBytes.toNat) (ht : n + 1 ≤ s.doutTakes) :
    Host.Core.run (coreBy run) (n + 1) s = .next ({ s with
      phase := .respond
      outCount := 0
      doutTakes := s.doutTakes - (n + 1)
      doutSent := s.doutSent ++ s.arch.lastTransfers n } : State) := by
  induction n generalizing s with
  | zero =>
    obtain ⟨h0, -, h1⟩ := counter_pred (by decide) hc
    have h1 := h1.2 rfl
    rw [run_of_stepBy 0 (stepBy_of_output hr hp h0 (by omega)), if_pos h1]
    show Host.Outcome.next _ = _
    congr 2
    · rw [h1]; rfl
    · congr 1
      simp [Arch.lastTransfers, State.doutData, State.doutLast, h1, Arch.blobByte, Arch.memRead]
  | succ n ih =>
    obtain ⟨h0, hsub, h1⟩ := counter_pred (by decide) hc
    have h1 : s.outCount ≠ 1 := fun h => by have := h1.1 h; omega
    rw [run_of_stepBy (n + 1) (stepBy_of_output hr hp h0 (by omega)), if_neg h1,
      ih _ (by exact hr) rfl (by exact hsub) (by show n ≤ s.arch.sizeBytes.toNat; omega)
        (by show n + 1 ≤ s.doutTakes - 1; omega)]
    have hl : s.doutLast = false := by unfold State.doutLast; rw [beq_eq_false_iff_ne]; exact h1
    have hb : s.doutData = s.arch.store.read (s.arch.sizeBytes.toNat - (n + 1)) := by
      unfold State.doutData Arch.blobByte Arch.memRead
      rw [hc, if_pos (by omega), show s.arch.sizeBytes.toNat + 1 - (n + 1 + 1) = s.arch.sizeBytes.toNat - (n + 1) by omega]
    congr 2
    · simp only; omega
    · simp only [List.append_assoc, hl, hb]
      congr 1
      unfold Arch.lastTransfers
      rw [List.range'_succ,
        show s.arch.sizeBytes.toNat - n = s.arch.sizeBytes.toNat - (n + 1) + 1 by omega]
      rfl

end

/-! ### Clocked runs (R68, R287) -/

/-- A clocked run waits for the engine's next move, and reaches what the moves alone reach: where fairness is used (R287). -/
theorem edgesFor_of_run {b : Config.Build} {moves : Nat → Bool} (hf : Fair moves) (n : Nat) {s t : State}
    (h : Host.Core.run (coreFor b) n s = .next t) (k : Nat) : ∃ m, edgesFor b moves k m s = .next t := by
  induction n generalizing s k with
  | zero => exact ⟨0, h⟩
  | succ n ih =>
    obtain ⟨u, hu, hr⟩ := stepBy_of_run h
    obtain ⟨j, hj, hm⟩ := hf k
    obtain ⟨d, rfl⟩ := Nat.exists_eq_add_of_le hj
    clear hj
    induction d generalizing k with
    | zero =>
      obtain ⟨m, e⟩ := ih hr (k + 1)
      refine ⟨m + 1, ?_⟩
      rw [edgesFor, edgeFor, if_pos (by rw [Nat.add_zero] at hm; rw [hm, Bool.or_true]), stepFor, hu]
      exact e
    | succ d ihd =>
      by_cases hc : (s.rst || !s.mayBeBusy || moves k) = true
      · obtain ⟨m, e⟩ := ih hr (k + 1)
        refine ⟨m + 1, ?_⟩
        rw [edgesFor, edgeFor, if_pos hc, stepFor, hu]
        exact e
      · obtain ⟨m, e⟩ := ihd (k + 1) (by rwa [show k + 1 + d = k + (d + 1) by omega])
        refine ⟨m + 1, ?_⟩
        rw [edgesFor, edgeFor, if_neg hc]
        exact e

end Sys2Proof.Machine
end

