-- ==== Sys2Proof/Tests/Slice0.lean ====
section
/-! SUPPORT. Tests on fixed values, each expected result taken from the spec's worked examples and test vectors
(95_test_vectors.md and the Example lines of the rules), and for each statement with hypotheses a concrete state and
operands that meet all of them. -/

open Sys2Proof Sys2Proof.Machine Sys2Proof.Spec

namespace Sys2Proof.Tests

-- One theorem after another: the kernel evaluations of many at once would take a thread each.
set_option Elab.async false

/-! ### Small states -/

/-- The state after a step, where there is one. -/
def nextOf : Host.Outcome State Fault Refusal → Option State
  | .next t => some t
  | .fault _ => none
  | .refused _ => none

/-- The fault of a step, where there is one. -/
def faultOf : Host.Outcome State Fault Refusal → Option Fault
  | .next _ => none
  | .fault f => some f
  | .refused _ => none

/-- The pending response after a step. -/
def responseOf (o : Host.Outcome State Fault Refusal) : Option Response := (nextOf o).bind State.pendingRsp

/-- The filter after a step. -/
def archOf (o : Host.Outcome State Fault Refusal) : Option Arch := (nextOf o).map State.arch

/-- A ready filter. -/
def filter (size k : Nat) (m : Memory) : Arch := Arch.replaced size k m

/-- An engine with a filter, idle. -/
def engine (a : Arch) : State := { State.reset with arch := a }

/-- An engine in EXECUTE with the command word `w` and its payload taken. -/
def executing (a : Arch) (w : Word) (payload : List Byte) : State :=
  { engine a with phase := .execute, curCmd := w, digestAcc := payload }

/-- An engine in EXECUTE of a DECODE whose blob has been staged. -/
def decoding (a : Arch) (blob : List Byte) : State :=
  { engine a with phase := .execute, curCmd := encode (.decode blob.length), stage := blob }

/-- "abc" (ASCII). -/
def abc : List Byte := [0x61, 0x62, 0x63]

/-- "xyz" (ASCII). -/
def xyz : List Byte := [0x78, 0x79, 0x7A]

/-- A digest of 32 equal bytes. -/
def flat (b : Byte) : Digest := Vector.replicate 32 b

/-- STORE after INSERT "abc" into an empty filter of 512 bytes and k = 8 (program P2's end state). -/
def storeP2 : Memory :=
  [(27, 0x40), (40, 0x02), (68, 0x08), (215, 0x80), (335, 0x01), (437, 0x40), (480, 0x02), (509, 0x04)]

/-! ### WellFormed: an operand one above its field is refused (R102–R105, R116) -/

theorem test_wf_construct_size : (Instr.construct 65536 1).wf = false ∧ (Instr.construct 65535 1).wf = true := by decide
theorem test_wf_construct_k : (Instr.construct 1 256).wf = false ∧ (Instr.construct 1 255).wf = true := by decide
theorem test_wf_insert : (Instr.insert 16777216).wf = false ∧ (Instr.insert 16777215).wf = true := by decide
theorem test_wf_query : (Instr.query 16777216).wf = false ∧ (Instr.query 16777215).wf = true := by decide
theorem test_wf_decode : (Instr.decode 16777216).wf = false ∧ (Instr.decode 16777215).wf = true := by decide
theorem test_wf_readReg : (Instr.readReg 256).wf = false ∧ (Instr.readReg 255).wf = true := by decide

/-! ### Decoding: words written out bit by bit from R101–R106 -/

theorem test_decode_nop : decodeWord 0b00000000000000000000000000000000 = .ok .nop := by decide
theorem test_decode_construct : decodeWord 0b00010000000010000000001000000000 = .ok (.construct 512 8) := by decide
theorem test_decode_insert : decodeWord 0b00100000000000000000000000000011 = .ok (.insert 3) := by decide
theorem test_decode_query : decodeWord 0b00110000100000000000000000000001 = .ok (.query 8388609) := by decide
theorem test_decode_insertDigest : decodeWord 0b01000000000000000000000000000000 = .ok .insertDigest := by decide
theorem test_decode_queryDigest : decodeWord 0b01010000000000000000000000000000 = .ok .queryDigest := by decide
theorem test_decode_encode : decodeWord 0b01100000000000000000000000000000 = .ok .encode := by decide
theorem test_decode_decode : decodeWord 0b01110000000000000010000000000001 = .ok (.decode 8193) := by decide
theorem test_decode_readReg : decodeWord 0b10000000000000000000000011111111 = .ok (.readReg 255) := by decide
theorem test_decode_reserved : decodeWord 0x21000003 = .error .reservedBits ∧ decodeWord 0x80000100 = .error .reservedBits ∧
    decodeWord 0x00000001 = .error .reservedBits := by decide
theorem test_decode_undefined : decodeWord 0x90000000 = .error .undefinedOpcode ∧
    decodeWord 0xAFFFFFFF = .error .undefinedOpcode := by decide
theorem test_encode_words : encode (.construct 8192 16) = 0x10102000 ∧ encode (.decode 2) = 0x70000002 ∧
    encode (.readReg 2) = 0x80000002 := by decide
theorem test_decodeTableWord : decodeTableWord 32 0x10010001 = some (.construct 1 1) ∧
    decodeTableWord 32 0xF0000000 = none := by decide

/-! ### The assembler (R116) -/

theorem test_assemble_insert : assembleText "INSERT \"abc\" ; three bytes" = some ⟨0x20000003, abc⟩ := by decide +kernel
theorem test_assemble_escapes : assembleText "QUERY \"a\\\"\\\\\\x0f\"" = some ⟨0x30000004, [0x61, 0x22, 0x5C, 0x0F]⟩ := by
  decide +kernel
theorem test_assemble_construct : assembleText "CONSTRUCT 512, 0x08" = some ⟨0x10080200, []⟩ := by decide +kernel
theorem test_assemble_refuses : assembleText "CONSTRUCT 65536, 1" = none ∧ assembleText "INSERT_DIGEST x\"00\"" = none ∧
    assembleText "DECODE x\"000\"" = none ∧ assembleText "READ_REG 256" = none := by decide +kernel
theorem test_assemble_program : assembleProgram ["; P4", "READ_REG CONFIG", ".cmd 0x21000003, \"abc\"", "DECODE x\"\""] =
    some [⟨0x80000001, []⟩, ⟨0x21000003, abc⟩, ⟨0x70000000, []⟩] := by decide +kernel

/-! ### The bit store and the deriver -/

/-- R140's example: `STORE = [0x00, 0x80]`. -/
theorem test_bitRead : (filter 2 1 [(1, 0x80)]).bitRead 15 = some true ∧ (filter 2 1 [(1, 0x80)]).bitRead 7 = some false ∧
    (filter 2 1 [(1, 0x80)]).bitRead 16 = none := by decide +kernel
/-- R141's example: `STORE = [0x00]`, then `BitSet(3)`. -/
theorem test_bitSet : (filter 1 1 []).bitSet 3 = some (filter 1 1 [(0, 0x08)]) := by decide +kernel
/-- A byte written back to what an unlisted address reads as leaves the list. -/
theorem test_memory_canonical : Memory.write [(0, 0x01), (5, 0x02)] 0 0x00 = [(5, 0x02)] := by decide +kernel
/-- The indices of "abc" in a filter of 512 bytes and k = 8 (R202's example). -/
theorem test_derive_abc : (filter 512 8 []).derive (digestFn abc) = [2680, 1727, 3841, 4074, 321, 222, 3502, 547] := by
  decide +kernel
/-- The digest of a message of one padded block of 56 bytes or more: the two-block path ("abc" is the one-block path). -/
theorem test_pad_two_blocks : (Sha256.pad (List.replicate 56 0x61)).length = 128 ∧
    (Sha256.pad (List.replicate 55 0x61)).length = 64 := by decide +kernel

/-! ### One step of each command, on the vectors of 95_test_vectors.md -/

theorem test_nop : responseOf (step (executing Arch.reset 0x00000000 [])) = some 0x0000000000000000 := by decide +kernel

/-- Sources S2 and V: a successful CONSTRUCT discards the old filter. -/
theorem test_construct : archOf (step (executing (filter 2 3 [(0, 0x2A)]) 0x10080200 [])) = some (filter 512 8 []) ∧
    responseOf (step (executing (filter 2 3 [(0, 0x2A)]) 0x10080200 [])) = some 0x0000000000001000 := by decide +kernel
/-- The three errors, SIZE_NOT_POW2 before K_RANGE (S3, R200). -/
theorem test_construct_errors : responseOf (step (executing Arch.reset 0x10000003 [])) = some 0x1011 ∧
    responseOf (step (executing Arch.reset 0x10004000 [])) = some 0x1021 ∧
    responseOf (step (executing Arch.reset 0x10110004 [])) = some 0x1031 := by decide +kernel

/-- Program P2. -/
theorem test_insert : archOf (step (executing (filter 512 8 []) 0x20000003 abc)) = some (filter 512 8 storeP2) ∧
    responseOf (step (executing (filter 512 8 []) 0x20000003 abc)) = some 0x2000 := by decide +kernel
theorem test_insert_not_ready : responseOf (step (executing Arch.reset 0x20000003 abc)) = some 0x2003 := by decide +kernel

/-- Program P2. -/
theorem test_query : responseOf (step (executing (filter 512 8 storeP2) 0x30000003 abc)) = some 0x3100 ∧
    responseOf (step (executing (filter 512 8 storeP2) 0x30000003 xyz)) = some 0x3000 := by decide +kernel
/-- Program P1's false positive: 0xBA78 AND 7 = 0. -/
theorem test_query_false_positive : responseOf (step (executing (filter 1 1 [(0, 0x01)]) 0x30000003 abc)) = some 0x3100 := by
  decide +kernel

/-- R204's example: all 0xFF in a filter of 8192 bytes sets bit 65535 only. -/
theorem test_insertDigest : archOf (step (executing (filter 8192 16 []) 0x40000000 (flat 0xFF).toList)) =
    some (filter 8192 16 [(8191, 0x80)]) := by decide +kernel
/-- Program P3: bytes 00 01 … 1F in a filter of 2 bytes and k = 3 set bits 1, 3 and 5. -/
theorem test_insertDigest_order : archOf (step (executing (filter 2 3 []) 0x40000000 ((List.range 32).map (BitVec.ofNat 8)))) =
    some (filter 2 3 [(0, 0x2A)]) := by decide +kernel

/-- R205's example. -/
theorem test_queryDigest : responseOf (step (executing (filter 8192 16 [(8191, 0x80)]) 0x50000000 (flat 0xFF).toList)) =
    some 0x5100 ∧
    responseOf (step (executing (filter 8192 16 [(8191, 0x80)]) 0x50000000 (flat 0x00).toList)) = some 0x5000 := by
  decide +kernel
/-- Program P4: FF FE in lane 0 is bit 65534, which is unset. -/
theorem test_queryDigest_lane0 : responseOf (step (executing (filter 8192 16 [(8191, 0x80)]) 0x50000000
    (0xFF :: 0xFE :: List.replicate 30 0xFF))) = some 0x5000 := by decide +kernel

/-- Program P3: VALUE is 3 and the bytes 2A 00 03 are to come. -/
theorem test_encode : responseOf (step (executing (filter 2 3 [(0, 0x2A)]) 0x60000000 [])) = some 0x0000000300006000 ∧
    (filter 2 3 [(0, 0x2A)]).blob = [0x2A, 0x00, 0x03] := by decide +kernel
theorem test_encode_not_ready : responseOf (step (executing Arch.reset 0x60000000 [])) = some 0x6003 := by decide +kernel

/-- Program P3: DECODE x"FF0F10". -/
theorem test_decode : archOf (step (decoding (filter 2 3 [(0, 0x2A)]) [0xFF, 0x0F, 0x10])) =
    some (filter 2 16 [(0, 0xFF), (1, 0x0F)]) := by decide +kernel
/-- Program P3's three errors: K, SIZE, EMPTY, each with the filter unchanged. -/
theorem test_decode_errors : responseOf (step (decoding (filter 2 3 []) [0x00, 0x00, 0x00])) = some 0x7032 ∧
    responseOf (step { decoding (filter 2 3 []) [] with curCmd := 0x70000004 }) = some 0x7022 ∧
    responseOf (step (decoding (filter 2 3 []) [])) = some 0x7012 ∧
    archOf (step (decoding (filter 2 3 []) [0x00, 0x00, 0x00])) = some (filter 2 3 []) := by decide +kernel

/-- Program P2 and R251. -/
theorem test_readReg : responseOf (step (executing (filter 512 8 []) 0x80000001 [])) = some 0x8008020000008000 ∧
    responseOf (step (executing Arch.reset 0x80000000 [])) = some 0x424C4D0700008000 := by decide +kernel
theorem test_readReg_caps : responseOf (step (executing Arch.reset 0x80000002 [])) = some 0x1001100D00008000 ∧
    responseOf (step (executing Arch.reset 0x80000003 [])) = some 0x8034 := by decide +kernel

/-! ### Words that are no command, and reset -/

theorem test_undefined : responseOf (step (executing Arch.reset 0xAFFFFFFF [])) = some 0xA014 ∧
    responseOf (step (executing Arch.reset 0xF0000000 [])) = some 0xF014 := by decide +kernel
/-- RESERVED_BITS comes before NOT_READY and before BAD_SELECTOR (R253). -/
theorem test_reserved : responseOf (step (executing Arch.reset 0x21000003 abc)) = some 0x2024 ∧
    responseOf (step (executing Arch.reset 0x80000F00 [])) = some 0x8024 := by decide +kernel
theorem test_reset_edge : nextOf (step { executing (filter 2 3 [(0, 0x2A)]) 0x70000003 [] with rst := true }) =
    some State.reset := by decide +kernel
theorem test_placed_word_runs : responseOf (step (State.reset.withFetchWord 32 0x10010001)) = some 0x1000 := by
  decide +kernel

/-! ### Witnesses: for each statement with hypotheses, a state and operands that meet all of them, one per clause -/

/-- A legal filter of one byte with bits 0 and 7 set, K = 1. -/
def tiny : Arch := filter 1 1 [(0, 0x81)]

/-- A legal filter of 8192 bytes, K = 16, with bit 65535 set. -/
def big : Arch := filter 8192 16 [(8191, 0x80)]

theorem witness_storeOk : tiny.StoreOk ∧ big.StoreOk := by unfold Arch.StoreOk; decide +kernel
theorem witness_legal : tiny.Legal ∧ tiny.ready = true ∧ big.Legal ∧ big.ready = true ∧ Arch.reset.Legal := by
  unfold Arch.Legal; decide +kernel

theorem witness_EncodeThenDecodeGivesTheCommand : Instr.nop.wf = true ∧ (Instr.construct 65535 255).wf = true ∧
    (Instr.insert 16777215).wf = true ∧ (Instr.query 16777215).wf = true ∧ Instr.insertDigest.wf = true ∧
    Instr.queryDigest.wf = true ∧ Instr.encode.wf = true ∧ (Instr.decode 16777215).wf = true ∧
    (Instr.readReg 255).wf = true := by decide
theorem witness_DecodedWordIsItsEncoding : decodeWord 0x10FFFFFF = .ok (.construct 65535 255) := by decide
theorem witness_EveryWordIsCommandOrNamedReject : decodeWord 0x7FFFFFFF = .error .reservedBits ∧
    decodeWord 0x70FFFFFF = .ok (.decode 16777215) ∧ decodeWord 0x90000000 = .error .undefinedOpcode := by decide
theorem witness_PayloadLengthOfEveryWord : (0x7FFFFFFF : Word).extractLsb' 28 4 ∈ [0x2, 0x3, 0x7] ∧
    (0x5FFFFFFF : Word).extractLsb' 28 4 ∈ [0x4, 0x5] ∧
    (0x8FFFFFFF : Word).extractLsb' 28 4 ∉ [0x2, 0x3, 0x7, 0x4, 0x5] := by decide
theorem witness_AssembledLineIsOneFramedCommand : AsmLine.nop.assemble = some ⟨0x00000000, []⟩ ∧
    (AsmLine.construct 65535 255).assemble = some ⟨0x10FFFFFF, []⟩ ∧
    (AsmLine.insert abc).assemble = some ⟨0x20000003, abc⟩ ∧ (AsmLine.query []).assemble = some ⟨0x30000000, []⟩ ∧
    (AsmLine.insertDigest (flat 0).toList).assemble = some ⟨0x40000000, (flat 0).toList⟩ ∧
    (AsmLine.queryDigest (flat 0).toList).assemble = some ⟨0x50000000, (flat 0).toList⟩ ∧
    AsmLine.encode.assemble = some ⟨0x60000000, []⟩ ∧ (AsmLine.decode [0, 1]).assemble = some ⟨0x70000002, [0, 1]⟩ ∧
    (AsmLine.readReg 255).assemble = some ⟨0x800000FF, []⟩ ∧
    (AsmLine.cmd 0xFFFFFFFF abc).assemble = some ⟨0xFFFFFFFF, abc⟩ := by decide +kernel

theorem witness_BitReadInsideAndOutside : 7 < tiny.sizeBytes.toNat * 8 ∧ tiny.sizeBytes.toNat * 8 ≤ 8 := by decide
theorem witness_BitSetChangesOneBit : tiny.StoreOk ∧ 7 < tiny.sizeBytes.toNat * 8 ∧ big.StoreOk ∧
    65535 < big.sizeBytes.toNat * 8 := ⟨witness_storeOk.1, by decide, witness_storeOk.2, by decide⟩
theorem witness_SeveralSetsMergeByOr : tiny.StoreOk ∧ (∀ n ∈ [7, 0, 7, 1], n < tiny.sizeBytes.toNat * 8) ∧
    [0, 7, 7, 1].Perm [7, 0, 7, 1] := ⟨witness_storeOk.1, by decide, by decide⟩
theorem witness_MemWriteThenMemRead : big.StoreOk ∧ 8191 < big.sizeBytes.toNat := ⟨witness_storeOk.2, by decide⟩
theorem witness_StoreReplaceHoldsEveryByte : (List.replicate 8192 (0xFF : Byte)).length ≤ 8192 := by
  rw [List.length_replicate]
theorem witness_MaskedIndexIsCandidateModuloSize : tiny.sizeBytes.toNat ∈ legalSizes ∧ big.sizeBytes.toNat ∈ legalSizes := by
  decide
theorem witness_DeriveListsFirstKLanes : tiny.sizeBytes.toNat ∈ legalSizes ∧ tiny.k.toNat ≤ 16 ∧
    big.sizeBytes.toNat ∈ legalSizes ∧ big.k.toNat ≤ 16 := by decide
/-- Two different digests that agree in the two bytes of lane 0, the one enabled lane of `tiny`. -/
theorem witness_DisabledLanesHaveNoEffect : big.k.toNat ≤ 16 ∧ flat 0 ≠ (flat 0).set 2 1 ∧
    ∀ j, j < 2 * tiny.k.toNat → (flat 0).toList.getD j 0 = ((flat 0).set 2 1).toList.getD j 0 := by decide +kernel
theorem witness_PaddedMessageShape : 8 * (List.replicate 56 (0x61 : Byte)).length < 2 ^ 64 := by decide

/-- A word of each opcode with a reserved bit set, for the first clause of the nine command statements. -/
theorem witness_reserved : ((0x00000001 : Word).extractLsb' 28 4 = 0x0 ∧ (0x00000001 : Word).extractLsb' 0 28 ≠ 0) ∧
    ((0x11080200 : Word).extractLsb' 28 4 = 0x1 ∧ (0x11080200 : Word).extractLsb' 24 4 ≠ 0) ∧
    ((0x28000003 : Word).extractLsb' 28 4 = 0x2 ∧ (0x28000003 : Word).extractLsb' 24 4 ≠ 0) ∧
    ((0x31000003 : Word).extractLsb' 28 4 = 0x3 ∧ (0x31000003 : Word).extractLsb' 24 4 ≠ 0) ∧
    ((0x48000000 : Word).extractLsb' 28 4 = 0x4 ∧ (0x48000000 : Word).extractLsb' 0 28 ≠ 0) ∧
    ((0x50000001 : Word).extractLsb' 28 4 = 0x5 ∧ (0x50000001 : Word).extractLsb' 0 28 ≠ 0) ∧
    ((0x60010000 : Word).extractLsb' 28 4 = 0x6 ∧ (0x60010000 : Word).extractLsb' 0 28 ≠ 0) ∧
    ((0x7F000002 : Word).extractLsb' 28 4 = 0x7 ∧ (0x7F000002 : Word).extractLsb' 24 4 ≠ 0) ∧
    ((0x80000100 : Word).extractLsb' 28 4 = 0x8 ∧ (0x80000100 : Word).extractLsb' 8 20 ≠ 0) := by decide

theorem witness_ConstructConfiguresOrReports : (∀ n, 0 ≠ 2 ^ n) ∧ (16384 = 2 ^ 14 ∧ 8192 < 16384) ∧
    (8192 = 2 ^ 13 ∧ 8192 ≤ 8192 ∧ (17 < 1 ∨ 16 < 17)) ∧ (1 = 2 ^ 0 ∧ 1 ≤ 8192 ∧ (0 < 1 ∨ 16 < 0)) ∧
    (1 = 2 ^ 0 ∧ 1 ≤ 8192 ∧ 1 ≤ 1 ∧ 1 ≤ 16) ∧ (8192 = 2 ^ 13 ∧ 8192 ≤ 8192 ∧ 1 ≤ 16 ∧ 16 ≤ 16) :=
  ⟨fun n h => absurd h.symm (Nat.pos_iff_ne_zero.1 (Nat.two_pow_pos n)), by decide, by decide, by decide, by decide, by decide⟩
theorem witness_InsertSetsDerivedBits : Arch.reset.ready = false ∧ tiny.ready = true ∧ tiny.StoreOk ∧
    0 < tiny.sizeBytes.toNat ∧ (executing tiny 0x20000003 abc).digestAcc.length = 3 ∧
    (executing tiny 0x20000000 []).digestAcc.length = 0 := ⟨rfl, rfl, witness_storeOk.1, by decide, rfl, rfl⟩
theorem witness_QueryReportsAllDerivedBits : Arch.reset.ready = false ∧ tiny.ready = true ∧ 0 < tiny.sizeBytes.toNat ∧
    (executing tiny 0x30000003 abc).digestAcc.length = 3 := ⟨rfl, rfl, by decide, rfl⟩
theorem witness_InsertDigestSetsDerivedBits : Arch.reset.ready = false ∧ big.ready = true ∧ big.StoreOk ∧
    0 < big.sizeBytes.toNat ∧ (executing big 0x40000000 (flat 0xFF).toList).digestAcc = (flat 0xFF).toList :=
  ⟨rfl, rfl, witness_storeOk.2, by decide, rfl⟩
theorem witness_QueryDigestReportsAllDerivedBits : Arch.reset.ready = false ∧ big.ready = true ∧
    0 < big.sizeBytes.toNat ∧ (executing big 0x50000000 (flat 0xFF).toList).digestAcc = (flat 0xFF).toList :=
  ⟨rfl, rfl, by decide, rfl⟩
theorem witness_EncodeStreamsStoreThenK : Arch.reset.ready = false ∧ big.ready = true ∧ big.sizeBytes.toNat ≤ 8192 ∧
    (executing big 0x60000000 []).rst = false ∧
    big.sizeBytes.toNat + 1 ≤ { executing big 0x60000000 [] with doutTakes := 8193 }.doutTakes := by decide
/-- L = 0; L = 1 and L = 8194 (SIZE); k bytes 0 and 17 (K); k bytes 1 and 16 (OK). -/
theorem witness_DecodeReplacesOrReports : (1 ≠ 0 ∧ 1 - 1 ∉ legalSizes) ∧ (8194 ≠ 0 ∧ 8194 - 1 ∉ legalSizes) ∧
    ([0xFF].length ∈ legalSizes ∧ 2 = [0xFF].length + 1 ∧ (decoding tiny [0xFF, 17]).stage = [0xFF] ++ [17] ∧
      ((17 : Byte).toNat < 1 ∨ 16 < (17 : Byte).toNat) ∧ ((0 : Byte).toNat < 1 ∨ 16 < (0 : Byte).toNat)) ∧
    ((decoding tiny [0xFF, 16]).stage = [0xFF] ++ [16] ∧ 1 ≤ (16 : Byte).toNat ∧ (16 : Byte).toNat ≤ 16 ∧
      1 ≤ (1 : Byte).toNat ∧ (1 : Byte).toNat ≤ 16) := by decide +kernel
theorem witness_ReadRegReturnsSelectedRegister : 2 < 3 ∧ 2 < 255 := by decide
theorem witness_CommandFrame : ∃ t, exec .insertDigest (executing big 0x40000000 (flat 0).toList) = .next t ∧
    Instr.insertDigest ≠ .encode := ⟨_, rfl, by decide⟩
set_option maxRecDepth 100000 in
theorem witness_DigestFormsMatchItemForms :
    (∃ t u, exec (.insert abc.length) { engine tiny with digestAcc := abc } = .next t ∧
      exec .insertDigest { engine tiny with digestAcc := (digestFn abc).toList } = .next u) ∧
    (∃ t u, exec (.query abc.length) { engine tiny with digestAcc := abc } = .next t ∧
      exec .queryDigest { engine tiny with digestAcc := (digestFn abc).toList } = .next u) :=
  ⟨⟨_, _, rfl, rfl⟩, ⟨_, _, rfl, rfl⟩⟩
theorem witness_IncompletePayloadStops :
    ({ executing tiny 0x20000003 [] with remain := 3 }.rst = false ∧
      { executing tiny 0x20000003 [] with remain := 3 }.phase = .execute ∧
      { executing tiny 0x20000003 [] with remain := 3 }.remain ≠ 0) ∧
    tiny.ready = true ∧ abc.length ≠ 2 ∧ abc.length ≠ 32 ∧ 2 ≠ 0 ∧ 2 - 1 ∈ legalSizes ∧
    (executing tiny 0x70000002 []).stage.length ≠ 2 := by decide +kernel

/-- A word of each opcode in EXECUTE with its payload taken, for the second half of the same clause. -/
theorem witness_reserved_execute : (executing tiny 0x11080200 []).rst = false ∧
    (executing tiny 0x11080200 []).phase = .execute ∧ (executing tiny 0x11080200 []).remain = 0 ∧
    (executing tiny 0x11080200 []).curCmd = 0x11080200 := by decide +kernel
/-- The lowest and the highest undefined opcode, and an idle engine that is offered the word. -/
theorem witness_UndefinedOpcodeIsRejected : 9 ≤ ((0x90000000 : Word).extractLsb' 28 4).toNat ∧
    9 ≤ ((0xFFFFFFFF : Word).extractLsb' 28 4).toNat ∧
    ∃ s : State, s.rst = false ∧ s.phase = .idle ∧ s.cmdIn = ⟨0x90000000, true⟩ :: [] ∧
      s.dinIn = (([] : List Byte).map fun b => ⟨b, true⟩) ++ [⟨0x61, true⟩] ∧ 0 < s.rspTakes :=
  ⟨by decide, by decide, { engine tiny with cmdIn := [⟨0x90000000, true⟩], dinIn := [⟨0x61, true⟩], rspTakes := 1 },
    rfl, rfl, rfl, rfl, by decide⟩
theorem witness_ReservedBitsAreRejected : reservedSet 0x21000003 = true ∧ abc.length = payloadLen 0x21000003 ∧
    ∃ s : State, s.rst = false ∧ s.phase = .idle ∧ s.cmdIn = ⟨0x21000003, true⟩ :: [] ∧
      s.dinIn = (abc.map fun b => ⟨b, true⟩) ++ [] ∧ 0 < s.rspTakes :=
  ⟨by decide, by decide, { engine tiny with
    cmdIn := [⟨0x21000003, true⟩]
    dinIn := abc.map fun b => ⟨b, true⟩
    rspTakes := 1 }, rfl, rfl, rfl, rfl, by decide⟩
theorem witness_ErrorChangesOnlyTheResponse : ∃ t r, (executing tiny 0x10000003 []).rst = false ∧
    (executing tiny 0x10000003 []).phase = .execute ∧ step (executing tiny 0x10000003 []) = .next t ∧
    t.pendingRsp = some r ∧ r.extractLsb' 0 4 ≠ 0 := ⟨_, _, rfl, rfl, rfl, rfl, by decide +kernel⟩
/-- A bad size and a bad k together: the first check decides. -/
theorem witness_FirstErrorInOrderIsReported : ∃ t r, (executing tiny 0x10000003 []).rst = false ∧
    (executing tiny 0x10000003 []).phase = .execute ∧ step (executing tiny 0x10000003 []) = .next t ∧
    t.pendingRsp = some r ∧ firstError (executing tiny 0x10000003 []) = (1, 1) :=
  ⟨_, _, rfl, rfl, rfl, rfl, by decide +kernel⟩

/-- The invariant in each phase but IDLE after reset: PAYLOAD, EXECUTE, OUTPUT, RESPOND. -/
theorem witness_inv : State.Inv { engine tiny with phase := .payload, curCmd := 0x20000003, remain := 2, digestAcc := [0x61] } ∧
    State.Inv (executing tiny 0x20000003 abc) ∧
    State.Inv { engine tiny with phase := .output, curCmd := 0x60000000, outCount := 2, pendingRsp := some 0x0000000200006000 } ∧
    State.Inv { engine tiny with phase := .respond, curCmd := 0x30000003, pendingRsp := some 0x3100 } := by
  refine ⟨⟨witness_legal.1, by decide, ?_⟩, ⟨witness_legal.1, by decide, ?_⟩,
    ⟨witness_legal.1, by decide, rfl, by decide, by decide, _, rfl, ?_⟩, ⟨witness_legal.1, by decide, _, rfl, ?_⟩⟩
  · show _ ∧ _ ∧ _ ∧ _ ∧ _
    decide +kernel
  · show _ ∧ _ ∧ _ ∧ _
    decide +kernel
  · unfold LegalResponse
    decide +kernel
  · unfold LegalResponse
    decide +kernel
theorem witness_ExecuteAlwaysHoldsAResponse : State.Inv (executing tiny 0x20000003 abc) ∧
    (executing tiny 0x20000003 abc).rst = false ∧ (executing tiny 0x20000003 abc).phase = .execute :=
  ⟨witness_inv.2.1, rfl, rfl⟩
theorem witness_StepRunsTheDecodedCommand : (executing tiny 0x30000003 abc).rst = false ∧
    (executing tiny 0x30000003 abc).phase = .execute ∧ (executing tiny 0x30000003 abc).remain = 0 ∧
    decodeWord (executing tiny 0x30000003 abc).curCmd = .ok (.query 3) := by decide +kernel
theorem witness_PlacedCommandRunsNext : decodeTableWord 32 0x70FFFFFF = some (.decode 16777215) := by decide
theorem witness_IdleAcceptsTheOfferedWord : { engine tiny with cmdIn := [⟨0x40000000, true⟩] }.rst = false ∧
    { engine tiny with cmdIn := [⟨0x40000000, true⟩] }.phase = .idle ∧
    { engine tiny with cmdIn := [⟨0x40000000, true⟩] }.cmdIn = ⟨0x40000000, true⟩ :: [] := ⟨rfl, rfl, rfl⟩
/-- The last byte of a payload. -/
theorem witness_PayloadTakesBytesInOrder : ∃ s : State, s.rst = false ∧ s.phase = .payload ∧ s.remain ≠ 0 ∧
    s.dinIn = ⟨0x61, true⟩ :: [] :=
  ⟨{ engine tiny with phase := .payload, curCmd := 0x20000001, remain := 1, dinIn := [⟨0x61, true⟩] }, rfl, rfl, by decide, rfl⟩
/-- The first and the last byte of the blob of `tiny`. -/
theorem witness_OutputSendsOneByte : (∃ s : State, s.rst = false ∧ s.phase = .output ∧ 1 ≤ s.outCount.toNat ∧
      s.outCount.toNat ≤ s.arch.sizeBytes.toNat + 1 ∧ 0 < s.doutTakes ∧ s.outCount = 2) ∧
    ∃ s : State, s.rst = false ∧ s.phase = .output ∧ 1 ≤ s.outCount.toNat ∧
      s.outCount.toNat ≤ s.arch.sizeBytes.toNat + 1 ∧ 0 < s.doutTakes ∧ s.outCount = 1 :=
  ⟨⟨{ engine tiny with phase := .output, outCount := 2, doutTakes := 1 }, by decide⟩,
    ⟨{ engine tiny with phase := .output, outCount := 1, doutTakes := 1 }, by decide⟩⟩
theorem witness_RespondSendsOneResponse : ∃ s : State, s.rst = false ∧ s.phase = .respond ∧ s.pendingRsp = some 0x3100 ∧
    0 < s.rspTakes := ⟨{ engine tiny with phase := .respond, pendingRsp := some 0x3100, rspTakes := 1 }, by decide⟩
/-- Each of the four waits happens. -/
theorem witness_EngineWaitsOnlyForTheHost : faultOf (step State.reset) = some .awaitingCommand ∧
    faultOf (step { engine tiny with phase := .payload, remain := 1 }) = some .awaitingPayload ∧
    faultOf (step { engine tiny with phase := .output, outCount := 1 }) = some .awaitingOutputTaken ∧
    faultOf (step { engine tiny with phase := .respond, pendingRsp := some 0 }) = some .awaitingResponseTaken := by
  decide +kernel
theorem witness_UnstableOfferTransfersAFreeValue : (∃ s : State, s.rst = false ∧ s.phase = .idle ∧ s.cmdIn = ⟨0, false⟩ :: []) ∧
    ∃ s : State, s.rst = false ∧ s.phase = .payload ∧ s.remain ≠ 0 ∧ s.dinIn = ⟨0, false⟩ :: [] :=
  ⟨⟨{ engine tiny with cmdIn := [⟨0, false⟩] }, rfl, rfl, rfl⟩,
    ⟨{ engine tiny with phase := .payload, curCmd := 0x20000001, remain := 1, dinIn := [⟨0, false⟩] }, rfl, rfl, by decide, rfl⟩⟩
/-- Each port's valid or ready is 1 somewhere. -/
theorem witness_OutputPortsFollowPhase : State.reset.cmdReady = true ∧
    { engine tiny with phase := .payload }.dinReady = true ∧ { engine tiny with phase := .output }.doutValid = true ∧
    { engine tiny with phase := .respond, pendingRsp := some 0 }.rspValid = true ∧
    { engine tiny with outCount := 1 }.doutLast = true := by decide
/-- A busy edge of PAYLOAD, with a byte offered and none taken; and a transfer on each of the four channels. -/
theorem witness_transfers :
    (∃ s t, State.Inv s ∧ edgeFor thisBuild false s = .next t ∧ s.phase = .payload ∧ s.dinValid = true ∧
      s.dinReadyAt false = false ∧ t.dinIn = s.dinIn) ∧
    (∃ s t, State.Inv s ∧ edgeFor thisBuild true s = .next t ∧ s.cmdValid = true ∧ s.cmdReady = true) ∧
    (∃ s t, State.Inv s ∧ edgeFor thisBuild true s = .next t ∧ s.dinValid = true ∧ s.dinReadyAt true = true) ∧
    (∃ s t, State.Inv s ∧ edgeFor thisBuild true s = .next t ∧ s.doutValidAt true = true ∧ s.doutReady = true) ∧
    ∃ s t, State.Inv s ∧ edgeFor thisBuild true s = .next t ∧ s.rspValid = true ∧ s.rspReady = true :=
  have ⟨p, _, o, r⟩ := witness_inv
  ⟨⟨{ engine tiny with phase := .payload, curCmd := 0x20000003, remain := 2, digestAcc := [0x61], dinIn := [⟨0x62, true⟩] },
      _, p, rfl, rfl, rfl, rfl, rfl⟩,
    ⟨{ engine tiny with cmdIn := [⟨0x60000000, true⟩] }, _, ⟨witness_legal.1, by decide, rfl⟩, rfl, rfl, rfl⟩,
    ⟨{ engine tiny with phase := .payload, curCmd := 0x20000003, remain := 2, digestAcc := [0x61], dinIn := [⟨0x62, true⟩] },
      _, p, rfl, rfl, rfl⟩,
    ⟨{ engine tiny with
        phase := .output, curCmd := 0x60000000, outCount := 2, pendingRsp := some 0x0000000200006000, doutTakes := 2 },
      _, o, rfl, rfl, rfl⟩,
    ⟨{ engine tiny with phase := .respond, curCmd := 0x30000003, pendingRsp := some 0x3100, rspTakes := 1 },
      _, r, rfl, rfl, rfl⟩⟩
/-- Two states in different phases with the same host. -/
theorem witness_ResetAbandonsEverything : ∃ s u : State, s.rst = true ∧ u.rst = true ∧ u.cmdIn = s.cmdIn ∧
    u.dinIn = s.dinIn ∧ u.doutTakes = s.doutTakes ∧ u.rspTakes = s.rspTakes ∧ u.doutSent = s.doutSent ∧
    u.rspSent = s.rspSent ∧ u.freeCount = s.freeCount ∧ u.phase ≠ s.phase :=
  ⟨{ engine tiny with rst := true }, { executing big 0x20000003 abc with rst := true }, by decide +kernel⟩

theorem witness_EveryStepKeepsTheInvariant : ∃ t, State.Inv (executing tiny 0x10000003 []) ∧
    step (executing tiny 0x10000003 []) = .next t := by
  refine ⟨_, ⟨witness_legal.1, by decide, ?_⟩, rfl⟩
  show _ ∧ _ ∧ _ ∧ _
  decide +kernel
theorem witness_NoStopButHostWaits : State.Inv State.reset ∧ State.Inv (executing tiny 0x20000003 abc) :=
  ⟨⟨witness_legal.2.2.2.2, by decide, rfl⟩, witness_inv.2.1⟩
theorem witness_ReadyChangesOnlyByResetConstructDecode :
    (∃ t, step { engine tiny with rst := true } = .next t ∧ { engine tiny with rst := true }.arch.ready = true ∧
      t.arch.ready = false) ∧
    ∃ t, step (executing Arch.reset 0x10010001 []) = .next t ∧ (executing Arch.reset 0x10010001 []).arch.ready = false ∧
      t.arch.ready = true := ⟨⟨_, rfl, rfl, rfl⟩, ⟨_, rfl, rfl, rfl⟩⟩
theorem witness_BitsAreOnlyEverSet : ∃ t, State.Inv (executing big 0x40000000 (flat 0).toList) ∧
    (executing big 0x40000000 (flat 0).toList).rst = false ∧ step (executing big 0x40000000 (flat 0).toList) = .next t := by
  refine ⟨_, ⟨witness_legal.2.2.1, by decide, ?_⟩, rfl, rfl⟩
  show _ ∧ _ ∧ _ ∧ _
  decide +kernel
theorem witness_NoFalseNegatives : tiny.Legal ∧ tiny.ready = true := ⟨witness_legal.1, rfl⟩
theorem witness_InsertIsIdempotent : big.Legal ∧ big.ready = true := ⟨witness_legal.2.2.1, rfl⟩
/-- An arbitrary digest function, here a constant one. -/
theorem witness_InsertsKeepQueryResults : ∃ b, tiny.Legal ∧ tiny.ready = true ∧
    insertAll (fun _ => flat 0xFF) tiny [abc] = some b ∧ queryItem (fun _ => flat 0xFF) tiny xyz = some true :=
  ⟨tiny, witness_legal.1, rfl, by decide +kernel, by decide +kernel⟩
theorem witness_InsertOrderDoesNotMatter : tiny.Legal ∧ tiny.ready = true ∧ [abc, xyz].Perm [xyz, abc] :=
  ⟨witness_legal.1, rfl, by decide⟩
theorem witness_QueryOrderDoesNotMatter : (∀ n ∈ [0, 7, 1], n < tiny.sizeBytes.toNat * 8) ∧ [0, 7, 1].Perm [1, 0, 7] := by
  decide
theorem witness_EncodeDecodeRoundTrip : (tiny.Legal ∧ tiny.ready = true ∧
      (decoding Arch.reset [0x81, 0x01]).stage = emitted tiny) ∧
    ∃ t, exec (.decode (decoding Arch.reset [0xFF, 16]).stage.length) (decoding Arch.reset [0xFF, 16]) = .next t ∧
      t.pendingRsp = some 0x7000 :=
  ⟨⟨witness_legal.1, rfl, by decide +kernel⟩, ⟨_, rfl, by decide +kernel⟩⟩
theorem witness_CommandIsOneAtomicStep : ∃ s : State, s.Inv ∧ s.rst = false ∧ s.phase = .idle ∧
    s.cmdIn = ⟨0x20000003, true⟩ :: [⟨0x60000000, true⟩] ∧ s.dinIn = (abc.map fun b => ⟨b, true⟩) ++ [⟨0x00, true⟩] ∧
    abc.length = payloadLen 0x20000003 ∧ s.arch.sizeBytes.toNat + 1 ≤ s.doutTakes ∧ 0 < s.rspTakes :=
  ⟨{ engine tiny with
      cmdIn := [⟨0x20000003, true⟩, ⟨0x60000000, true⟩]
      dinIn := (abc.map fun b => ⟨b, true⟩) ++ [⟨0x00, true⟩]
      doutTakes := 2
      rspTakes := 1 },
    ⟨witness_legal.1, by decide, rfl⟩, rfl, rfl, rfl, rfl, by decide, by decide, by decide⟩
/-- The fairness that R287 assumes can be met: an engine that moves at every second edge. -/
theorem witness_Fair : Fair (fun j => j % 2 == 0) :=
  fun k => ⟨k + k % 2, Nat.le_add_right _ _, by rw [beq_iff_eq]; omega⟩
/-- Two idle engines, one of which an earlier command has left with an output counter, a word and an accumulator. -/
theorem witness_EarlierHiddenStateIsNotObserved : ∃ s u : State, seen s = seen u ∧ s.phase = .idle ∧
    s.outCount ≠ u.outCount ∧ s.curCmd ≠ u.curCmd ∧ s.digestAcc ≠ u.digestAcc ∧ s.stage ≠ u.stage :=
  ⟨{ engine tiny with cmdIn := [⟨0x60000000, true⟩] },
    { engine tiny with
      cmdIn := [⟨0x60000000, true⟩]
      curCmd := 0x20000003
      digestAcc := abc
      stage := xyz
      outCount := 5 }, rfl, rfl, by decide, by decide, by decide, by decide⟩

end Sys2Proof.Tests
end

/-! ### 10_state: the fields of a response word -/
section
namespace Sys2Proof.Machine

section
variable (op code detail : BitVec 4) (result : Bool) (value : Word)

/-- A field of a response word is what its number, whose parts are each within their widths, gives there (R113). -/
theorem responseWord_field {n : Nat} (lo : Nat) (x : BitVec n)
    (h : code.toNat < 16 → detail.toNat < 16 → result.toNat < 2 → op.toNat < 16 → value.toNat < 4294967296 →
      (code.toNat + detail.toNat * 16 + result.toNat * 256 + op.toNat * 4096 + value.toNat * 4294967296) / 2 ^ lo % 2 ^ n =
        x.toNat) : (responseWord op code detail result value).extractLsb' lo n = x :=
  BitVec.eq_of_toNat_eq (by
    rw [responseWord_slice, h code.isLt detail.isLt (Bool.toNat_lt result) op.isLt value.isLt])

@[simp] theorem responseWord_detail : (responseWord op code detail result value).extractLsb' 4 4 = detail :=
  responseWord_field _ _ _ _ _ _ _ (by omega)

@[simp] theorem responseWord_bits9to11 : (responseWord op code detail result value).extractLsb' 9 3 = 0 :=
  responseWord_field _ _ _ _ _ _ _ (by rw [BitVec.ofNat_eq_ofNat, BitVec.toNat_zero]; omega)

@[simp] theorem responseWord_op : (responseWord op code detail result value).extractLsb' 12 4 = op :=
  responseWord_field _ _ _ _ _ _ _ (by omega)

@[simp] theorem responseWord_bits16to31 : (responseWord op code detail result value).extractLsb' 16 16 = 0 :=
  responseWord_field _ _ _ _ _ _ _ (by rw [BitVec.ofNat_eq_ofNat, BitVec.toNat_zero]; omega)

@[simp] theorem responseWord_value : (responseWord op code detail result value).extractLsb' 32 32 = value :=
  responseWord_field _ _ _ _ _ _ _ (by omega)

theorem responseWord_result : (responseWord op code detail result value).getLsbD 8 = result := by
  have hcode := code.isLt
  have hdetail := detail.isLt
  rw [BitVec.getLsbD, responseWord_toNat, Nat.testBit_eq_decide_div_mod_eq]
  cases result <;> simp only [Bool.toNat_true, Bool.toNat_false, decide_eq_true_eq, decide_eq_false_iff_not] <;> omega

end

/-- Every error is a listed outcome (R114, R115). -/
theorem CommandError.mem_legalOutcomes (e : CommandError) : (e.code, e.detail) ∈ legalOutcomes := by
  cases e <;> decide

/-- A response word with a listed outcome and the command's opcode is legal, when RESULT and VALUE are used only where R113
allows them. -/
theorem legalResponse_responseWord {w : Word} {op code detail : BitVec 4} {result : Bool} {value : Word}
    (ho : (code, detail) ∈ legalOutcomes) (hop : opField w = op)
    (hr : result = true → code = 0 ∧ (op = 0x3 ∨ op = 0x5)) (hv : value ≠ 0 → code = 0 ∧ (op = 0x6 ∨ op = 0x8)) :
    LegalResponse w (responseWord op code detail result value) := by
  subst hop
  rw [LegalResponse, responseWord_code, responseWord_detail, responseWord_result, responseWord_value]
  exact ⟨ho, responseWord_bits9to11 .., responseWord_op .., responseWord_bits16to31 .., hr, hv⟩

/-- The response of an error is legal (R113–R115). -/
theorem legalResponse_of_error {w : Word} {op : BitVec 4} (e : CommandError) (hop : opField w = op) :
    LegalResponse w (responseWord op e.code e.detail false 0) :=
  legalResponse_responseWord e.mem_legalOutcomes hop nofun (fun h => absurd rfl h)

/-- The response of a success is legal, when RESULT and VALUE are used only where R113 allows them. -/
theorem legalResponse_of_success {w : Word} {op : BitVec 4} {result : Bool} {value : Word} (hop : opField w = op)
    (hr : result = true → op = 0x3 ∨ op = 0x5) (hv : value ≠ 0 → op = 0x6 ∨ op = 0x8) :
    LegalResponse w (responseWord op codeOk 0 result value) :=
  legalResponse_responseWord (by decide) hop (fun h => ⟨rfl, hr h⟩) (fun h => ⟨rfl, hv h⟩)

end Sys2Proof.Machine
end

/-! ### Legal filters (R25) and what changes one -/
section
namespace Sys2Proof.Machine

theorem Arch.Legal.storeOk {a : Arch} (h : a.Legal) : a.StoreOk := by
  rcases h with ⟨-, -, -, hs⟩ | ⟨-, -, -, -, -, hwf, hin⟩
  · refine ⟨by rw [hs]; rfl, fun c hc => ?_⟩
    rw [hs] at hc
    cases hc
  · exact ⟨hwf, hin⟩

theorem Arch.Legal.sizeBytes_le {a : Arch} (h : a.Legal) : a.sizeBytes.toNat ≤ 8192 := by
  rcases h with ⟨-, hs, -, -⟩ | ⟨-, -, hle, -⟩
  · rw [hs]; decide
  · exact hle

theorem Arch.Legal.sizeBytes_pos {a : Arch} (h : a.Legal) (hr : a.ready = true) : 0 < a.sizeBytes.toNat := by
  rcases h with ⟨hf, -⟩ | ⟨-, hp, -⟩
  · cases hr.symm.trans hf
  · exact pow2_pos hp

theorem Arch.legal_reset : Arch.reset.Legal := .inl ⟨rfl, rfl, rfl, rfl⟩

/-- A legal ready filter with another store in canonical form inside SIZE_BYTES is legal. -/
theorem Arch.Legal.withStore {a : Arch} (h : a.Legal) (hr : a.ready = true) {m : Memory}
    (hm : Arch.StoreOk { a with store := m }) : Arch.Legal { a with store := m } := by
  rcases h with ⟨hf, -⟩ | ⟨-, hp, hle, hk, hk', -, -⟩
  · cases hr.symm.trans hf
  · exact .inr ⟨hr, hp, hle, hk, hk', hm⟩

/-- The filter that a successful CONSTRUCT or DECODE leaves is legal (R200, R231). -/
theorem Arch.legal_replaced {n k : Nat} {m : Memory} (hn : pow2 n = true) (hn' : n ≤ 8192) (hk : 1 ≤ k) (hk' : k ≤ 16)
    (hm : Memory.wf m = true) (hm' : ∀ c ∈ m, c.1 < n) : (Arch.replaced n k m).Legal := by
  have hsize : (Arch.replaced n k m).sizeBytes.toNat = n := by
    rw [Arch.replaced_sizeBytes, BitVec.toNat_ofNat, Nat.mod_eq_of_lt (by omega)]
  have hkval : (Arch.replaced n k m).k.toNat = k := by
    rw [Arch.replaced_k, BitVec.toNat_ofNat, Nat.mod_eq_of_lt (by omega)]
  unfold Arch.Legal
  rw [hsize, hkval]
  exact .inr ⟨rfl, hn, hn', hk, hk', hm, hm'⟩

end Sys2Proof.Machine
end

/-! ### What a step can do, said once -/
section
namespace Sys2Proof.Machine

/-- A command's ending changes the filter, the phase, the output counter and the pending response at most. -/
theorem Ending.frame {i : Instr} {s t : State} (h : Ending i s t) :
    t = { s with arch := t.arch, phase := t.phase, outCount := t.outCount, pendingRsp := t.pendingRsp } := by
  cases h with
  | failed e ht => subst ht; rfl
  | inserted d a hi hr ha ht => subst ht; rfl
  | queried d r hi hr hq ht => subst ht; rfl
  | replaced n k m hi hn hn' hk hk' hm hm' ht => subst ht; rfl
  | encoded hi hr ht => subst ht; rfl
  | answered v hi ht => subst ht; rfl

theorem Ending.stage {i : Instr} {s t : State} (h : Ending i s t) : t.stage = s.stage := by rw [h.frame]

/-- Everything that a step can do when it answers `t`: the reset edge (R300), or one of the moves of R68, phase by phase. -/
inductive Move (s t : State) : Prop where
  /-- The reset edge (R300). -/
  | reset (hr : s.rst = true) (ht : t = s.resetEdge)
  /-- IDLE: a command word is accepted. -/
  | accepted (o : Offer Word) (rest : List (Offer Word)) (hr : s.rst = false) (hp : s.phase = .idle)
      (hc : s.cmdIn = o :: rest)
      (ht : t = { s with cmdIn := rest, freeCount := countAfter o.held s.freeCount }.acceptWord
        (transferredWord o s.freeCount))
  /-- PAYLOAD with nothing left to take (log 12). -/
  | payloadOver (hr : s.rst = false) (hp : s.phase = .payload) (h0 : s.remain = 0) (ht : t = { s with phase := .execute })
  /-- PAYLOAD: a byte is taken. -/
  | byteTaken (o : Offer Byte) (rest : List (Offer Byte)) (hr : s.rst = false) (hp : s.phase = .payload)
      (h0 : s.remain ≠ 0) (hd : s.dinIn = o :: rest)
      (ht : t = ({ s with dinIn := rest, freeCount := countAfter o.held s.freeCount }.absorb
        (transferredByte o s.freeCount)).countByte)
  /-- EXECUTE of a command. -/
  | executed (i : Instr) (hr : s.rst = false) (hp : s.phase = .execute) (h0 : s.remain = 0)
      (hi : decodeWord s.curCmd = .ok i) (he : Ending i s t)
  /-- EXECUTE of a word that is no command (R252, R253). -/
  | rejected (e : CommandError) (hr : s.rst = false) (hp : s.phase = .execute) (h0 : s.remain = 0)
      (he : e = .undefinedOpcode ∧ decodeWord s.curCmd = .error .undefinedOpcode ∨
        e = .reservedBits ∧ decodeWord s.curCmd = .error .reservedBits)
      (ht : t = s.respond (responseWord (opField s.curCmd) e.code e.detail false 0))
  /-- OUTPUT with nothing left to send (log 12). -/
  | outputOver (hr : s.rst = false) (hp : s.phase = .output) (h0 : s.outCount = 0) (ht : t = { s with phase := .respond })
  /-- OUTPUT: a byte is sent. -/
  | byteSent (hr : s.rst = false) (hp : s.phase = .output) (h0 : s.outCount ≠ 0) (hd : s.doutTakes ≠ 0)
      (ht : t = { s with
        doutSent := s.doutSent ++ [(s.doutData, s.doutLast)]
        doutTakes := s.doutTakes - 1
        outCount := s.outCount - 1
        phase := if s.outCount = 1 then .respond else .output })
  /-- RESPOND: the pending response is sent. -/
  | responded (r : Response) (hr : s.rst = false) (hp : s.phase = .respond) (hq : s.pendingRsp = some r)
      (hd : s.rspTakes ≠ 0)
      (ht : t = { s with
        rspSent := s.rspSent ++ [r]
        rspTakes := s.rspTakes - 1
        pendingRsp := none
        phase := .idle })

theorem stepIdle_next {s t : State} (hr : s.rst = false) (hp : s.phase = .idle) (h : stepIdle s = .next t) : Move s t := by
  unfold stepIdle at h
  split at h
  · cases h
  · next o rest hc => cases h; exact .accepted o rest hr hp hc rfl

theorem stepPayload_next {s t : State} (hr : s.rst = false) (hp : s.phase = .payload) (h : stepPayload s = .next t) :
    Move s t := by
  unfold stepPayload at h
  split at h
  · next h0 => cases h; exact .payloadOver hr hp h0 rfl
  next h0 =>
  split at h
  · cases h
  · next o rest hd => cases h; exact .byteTaken o rest hr hp h0 hd rfl

theorem stepOutput_next {s t : State} (hr : s.rst = false) (hp : s.phase = .output) (h : stepOutput s = .next t) :
    Move s t := by
  unfold stepOutput at h
  split at h
  · next h0 => cases h; exact .outputOver hr hp h0 rfl
  next h0 =>
  split at h
  · cases h
  · next hd => cases h; exact .byteSent hr hp h0 hd rfl

theorem stepRespond_next {s t : State} (hr : s.rst = false) (hp : s.phase = .respond) (h : stepRespond s = .next t) :
    Move s t := by
  unfold stepRespond at h
  split at h
  · cases h
  next r hq =>
  split at h
  · cases h
  · next hd => cases h; exact .responded r hr hp hq hd rfl

theorem stepExecuteFor_next {b : Config.Build} {s t : State} (hr : s.rst = false) (hp : s.phase = .execute)
    (h : stepExecuteBy (execFor b) s = .next t) : Move s t := by
  obtain ⟨h0, ⟨i, hi, hrun⟩ | ⟨e, he, ht⟩⟩ := stepExecuteBy_next h
  · exact .executed i hr hp h0 hi (execFor_next hrun)
  · exact .rejected e hr hp h0 he ht

/-- Everything that a step can do, in any build. -/
theorem stepFor_next {b : Config.Build} {s t : State} (h : stepFor b s = .next t) : Move s t := by
  unfold stepFor at h
  cases hr : s.rst with
  | true =>
    rw [stepBy_of_rst hr] at h
    cases h
    exact .reset hr rfl
  | false =>
    cases hp : s.phase with
    | idle => exact stepIdle_next hr hp (stepBy_idle hr hp ▸ h)
    | payload => exact stepPayload_next hr hp (stepBy_payload hr hp ▸ h)
    | execute => exact stepExecuteFor_next hr hp (stepBy_execute hr hp ▸ h)
    | output => exact stepOutput_next hr hp (stepBy_output hr hp ▸ h)
    | respond => exact stepRespond_next hr hp (stepBy_respond hr hp ▸ h)

/-- Everything that a step can do in this build. -/
theorem step_next {s t : State} (h : step s = .next t) : Move s t :=
  stepFor_next (b := thisBuild) (by rwa [stepFor_thisBuild])

/-! ### What a step can do to the filter -/

/-- Everything that a step can do to the filter: clear it by reset, keep it, insert a digest, or replace it by a CONSTRUCT or
DECODE that responds OK. -/
inductive FilterChange (s t : State) : Prop where
  /-- The reset edge (R300). -/
  | cleared (hr : s.rst = true) (ha : t.arch = Arch.reset)
  /-- Anything else. -/
  | kept (ha : t.arch = s.arch)
  /-- INSERT and INSERT_DIGEST (R202, R204). -/
  | inserted (d : Digest) (hready : s.arch.ready = true) (ha : s.arch.insertDigest d = some t.arch)
  /-- CONSTRUCT and DECODE (R200, R231). -/
  | replaced (hr : s.rst = false) (hp : s.phase = .execute) (hop : opField s.curCmd = 0x1 ∨ opField s.curCmd = 0x7)
      (hok : ∃ r, t.pendingRsp = some r ∧ r.extractLsb' 0 4 = 0) (hready : t.arch.ready = true)
      (hl : t.arch.Legal)

theorem Ending.filterChange {i : Instr} {s t : State} (hr : s.rst = false) (hp : s.phase = .execute)
    (hop : opField s.curCmd = i.opcode) (h : Ending i s t) : FilterChange s t := by
  cases h with
  | failed e ht => subst ht; exact .kept rfl
  | inserted d a hi hready ha ht => subst ht; exact .inserted d hready ha
  | queried d r hi hready hq ht => subst ht; exact .kept rfl
  | encoded hi hready ht => subst ht; exact .kept rfl
  | answered v hi ht => subst ht; exact .kept rfl
  | replaced n k m hi hn hn' hk hk' hm hm' ht =>
    subst ht
    refine .replaced hr hp ?_ ⟨_, rfl, responseWord_code ..⟩ rfl (Arch.legal_replaced hn hn' hk hk' hm hm')
    rw [hop]
    obtain ⟨sz, kf, rfl⟩ | ⟨len, rfl⟩ := hi
    · exact .inl rfl
    · exact .inr rfl

theorem Move.filterChange {s t : State} (h : Move s t) : FilterChange s t := by
  cases h with
  | reset hr ht => subst ht; exact .cleared hr rfl
  | accepted o rest hr hp hc ht => subst ht; exact .kept rfl
  | payloadOver hr hp h0 ht => subst ht; exact .kept rfl
  | byteTaken o rest hr hp h0 hd ht => subst ht; exact .kept (State.absorb_arch ..)
  | executed i hr hp h0 hi he => exact he.filterChange hr hp (decodeWord_ok hi).1
  | rejected e hr hp h0 he ht => subst ht; exact .kept rfl
  | outputOver hr hp h0 ht => subst ht; exact .kept rfl
  | byteSent hr hp h0 hd ht => subst ht; exact .kept rfl
  | responded r hr hp hq hd ht => subst ht; exact .kept rfl

/-- A change of the filter keeps it legal (R25). -/
theorem FilterChange.legal {s t : State} (h : FilterChange s t) (hl : s.arch.Legal) : t.arch.Legal := by
  cases h with
  | cleared hr ha => rw [ha]; exact Arch.legal_reset
  | kept ha => rwa [ha]
  | inserted d hready ha =>
    obtain ⟨m, hm, hok, -⟩ := s.arch.insertDigest_spec d hl.storeOk (hl.sizeBytes_pos hready)
    rw [← Option.some.inj (hm.symm.trans ha)]
    exact hl.withStore hready hok
  | replaced hr hp hop hok hready hl' => exact hl'

/-! ### What a step can do to the controller -/

theorem State.phaseLegal_idle {s : State} (hp : s.phase = .idle) : s.PhaseLegal ↔ s.pendingRsp = none := by
  unfold State.PhaseLegal; rw [hp]

theorem State.phaseLegal_payload {s : State} (hp : s.phase = .payload) : s.PhaseLegal ↔
    s.pendingRsp = none ∧ s.remain ≠ 0 ∧ s.remain.toNat ≤ payloadLen s.curCmd ∧
      s.PayloadTaken (payloadLen s.curCmd - s.remain.toNat) := by
  unfold State.PhaseLegal; rw [hp]

theorem State.phaseLegal_execute {s : State} (hp : s.phase = .execute) : s.PhaseLegal ↔
    s.pendingRsp = none ∧ s.remain = 0 ∧ s.PayloadTaken (payloadLen s.curCmd) := by
  unfold State.PhaseLegal; rw [hp]

theorem State.phaseLegal_output {s : State} (hp : s.phase = .output) : s.PhaseLegal ↔
    s.arch.ready = true ∧ 1 ≤ s.outCount.toNat ∧ s.outCount.toNat ≤ s.arch.sizeBytes.toNat + 1 ∧
      ∃ r, s.pendingRsp = some r ∧ LegalResponse s.curCmd r := by
  unfold State.PhaseLegal; rw [hp]

theorem State.phaseLegal_respond {s : State} (hp : s.phase = .respond) : s.PhaseLegal ↔
    ∃ r, s.pendingRsp = some r ∧ LegalResponse s.curCmd r := by
  unfold State.PhaseLegal; rw [hp]

/-- PAYLOAD and EXECUTE in one: how much is held is the payload length less what is still to take. -/
theorem State.phaseLegal_of_taking {s : State} (hp : s.phase = if s.remain = 0 then .execute else .payload)
    (hq : s.pendingRsp = none) (hle : s.remain.toNat ≤ payloadLen s.curCmd)
    (ht : s.PayloadTaken (payloadLen s.curCmd - s.remain.toNat)) : s.PhaseLegal := by
  by_cases h0 : s.remain = 0
  · rw [if_pos h0] at hp
    rw [h0] at ht
    exact (State.phaseLegal_execute hp).2 ⟨hq, h0, ht⟩
  · rw [if_neg h0] at hp
    exact (State.phaseLegal_payload hp).2 ⟨hq, h0, hle, ht⟩

/-- Absorbing one byte holds one more byte of the payload (R35, R233). -/
theorem State.PayloadTaken.absorb {s : State} {n : Nat} (h : s.PayloadTaken n) (b : Byte) :
    (s.absorb b).PayloadTaken (n + 1) := by
  obtain ⟨hacc, hstage⟩ := h
  refine ⟨fun hop => ?_, fun hop => ?_⟩
  · rw [State.absorb_curCmd] at hop
    have h7 : opNum s.curCmd ≠ 7 := fun h7 => by rw [h7] at hop; revert hop; decide
    rw [State.absorb_digestAcc, if_neg h7, List.length_append, hacc hop]
    rfl
  · rw [State.absorb_curCmd] at hop ⊢
    rw [State.absorb_stage]
    by_cases hb : blobLenOk (payloadLen s.curCmd) = true
    · rw [if_pos ⟨hop, hb⟩, List.length_append, hstage hop, if_pos hb, if_pos hb]
      rfl
    · rw [if_neg fun hh => hb hh.2, hstage hop, if_neg hb, if_neg hb]

/-- Right after a word is accepted nothing of its payload has been taken. -/
theorem State.payloadTaken_acceptWord (s : State) (w : Word) : (s.acceptWord w).PayloadTaken 0 :=
  ⟨fun _ => rfl, fun _ => (ite_self 0).symm⟩

/-- Accepting a word leaves a legal controller, when no response is pending (R68). -/
theorem State.phaseLegal_acceptWord {s : State} (w : Word) (hq : s.pendingRsp = none) : (s.acceptWord w).PhaseLegal := by
  have hlen := payloadLen_lt w
  have hrem : (s.acceptWord w).remain.toNat = payloadLen w := by
    rw [State.acceptWord_remain, BitVec.toNat_ofNat, Nat.mod_eq_of_lt (by omega)]
  refine State.phaseLegal_of_taking ?_ hq (Nat.le_of_eq hrem) ?_
  · rw [State.acceptWord_phase, ← hrem]
    by_cases h0 : (s.acceptWord w).remain = 0
    · rw [if_pos h0, h0]; rfl
    · rw [if_neg h0, if_pos (Nat.pos_of_ne_zero fun h => h0 (BitVec.eq_of_toNat_eq h))]
  · rw [hrem, State.acceptWord_curCmd, Nat.sub_self]
    exact s.payloadTaken_acceptWord w

/-- Taking a payload byte leaves a legal controller (R68, R69). -/
theorem State.phaseLegal_countByte_absorb {s : State} (b : Byte) (hq : s.pendingRsp = none) (h0 : s.remain ≠ 0)
    (hle : s.remain.toNat ≤ payloadLen s.curCmd) (ht : s.PayloadTaken (payloadLen s.curCmd - s.remain.toNat)) :
    (s.absorb b).countByte.PhaseLegal := by
  obtain ⟨n, hn⟩ : ∃ n, s.remain.toNat = n + 1 :=
    Nat.exists_eq_add_one.2 (Nat.pos_of_ne_zero fun h => h0 (BitVec.eq_of_toNat_eq h))
  obtain ⟨-, hsub, hone⟩ := counter_pred (by decide) hn
  have hrem : (s.absorb b).countByte.remain.toNat = n := by simpa using hsub
  have hcur : (s.absorb b).countByte.curCmd = s.curCmd := by simp
  have hzero : s.remain = 1 ↔ (s.absorb b).countByte.remain = 0 := by
    rw [hone, ← hrem]
    exact ⟨fun h => BitVec.eq_of_toNat_eq h, fun h => by rw [h]; rfl⟩
  refine State.phaseLegal_of_taking ?_ (by simpa using hq) (by rw [hrem, hcur]; omega) ?_
  · rw [State.countByte_phase, State.absorb_remain]
    exact if_congr hzero rfl rfl
  · rw [hrem, hcur, show payloadLen s.curCmd - n = payloadLen s.curCmd - s.remain.toNat + 1 by omega]
    exact ht.absorb b

/-- The response of a command's ending is legal, and OUTPUT begins with the whole blob to send (R68, R113–R115). -/
theorem Ending.phaseLegal {i : Instr} {s t : State} (h : Ending i s t) (hop : opField s.curCmd = i.opcode)
    (hl : s.arch.Legal) : t.PhaseLegal := by
  cases h with
  | failed e ht =>
    subst ht
    exact (State.phaseLegal_respond rfl).2 ⟨_, rfl, legalResponse_of_error e hop⟩
  | inserted d a hi hr ha ht =>
    subst ht
    exact (State.phaseLegal_respond rfl).2
      ⟨_, rfl, legalResponse_of_success hop nofun (fun h => absurd rfl h)⟩
  | queried d r hi hr hq ht =>
    subst ht
    refine (State.phaseLegal_respond rfl).2
      ⟨_, rfl, legalResponse_of_success hop (fun _ => ?_) (fun h => absurd rfl h)⟩
    obtain ⟨len, rfl⟩ | rfl := hi
    · exact .inl rfl
    · exact .inr rfl
  | replaced n k m hi hn hn' hk hk' hm hm' ht =>
    subst ht
    exact (State.phaseLegal_respond rfl).2
      ⟨_, rfl, legalResponse_of_success hop nofun (fun h => absurd rfl h)⟩
  | encoded hi hr ht =>
    subst ht
    have hle := hl.sizeBytes_le
    have hcount : (BitVec.ofNat 14 (s.arch.sizeBytes.toNat + 1)).toNat = s.arch.sizeBytes.toNat + 1 := by
      rw [BitVec.toNat_ofNat, Nat.mod_eq_of_lt (by omega)]
    refine (State.phaseLegal_output rfl).2 ⟨hr, ?_, Nat.le_of_eq hcount, _, rfl,
      legalResponse_of_success hop nofun (fun _ => ?_)⟩
    · rw [State.beginOutput_outCount, hcount]; omega
    · rw [hi]; exact .inl rfl
  | answered v hi ht =>
    subst ht
    refine (State.phaseLegal_respond rfl).2
      ⟨_, rfl, legalResponse_of_success hop nofun (fun hv => ?_)⟩
    obtain ⟨rfl, rfl⟩ | ⟨sel, rfl⟩ := hi
    · exact absurd rfl hv
    · exact .inr rfl

/-- A step leaves a legal controller (R35, R68, R113–R115). -/
theorem Move.phaseLegal {s t : State} (h : Move s t) (hl : s.arch.Legal) (hs : s.PhaseLegal) : t.PhaseLegal := by
  cases h with
  | reset hr ht => subst ht; exact (State.phaseLegal_idle rfl).2 rfl
  | accepted o rest hr hp hc ht =>
    subst ht
    exact State.phaseLegal_acceptWord _ ((State.phaseLegal_idle hp).1 hs)
  | payloadOver hr hp h0 ht =>
    obtain ⟨-, hne, -⟩ := (State.phaseLegal_payload hp).1 hs
    exact absurd h0 hne
  | byteTaken o rest hr hp h0 hd ht =>
    obtain ⟨hq, hne, hle, htaken⟩ := (State.phaseLegal_payload hp).1 hs
    subst ht
    exact State.phaseLegal_countByte_absorb _ hq hne hle htaken
  | executed i hr hp h0 hi he => exact he.phaseLegal (decodeWord_ok hi).1 hl
  | rejected e hr hp h0 he ht =>
    subst ht
    exact (State.phaseLegal_respond rfl).2 ⟨_, rfl, legalResponse_of_error e rfl⟩
  | outputOver hr hp h0 ht =>
    obtain ⟨-, hpos, -⟩ := (State.phaseLegal_output hp).1 hs
    rw [h0] at hpos
    exact absurd hpos (by decide)
  | byteSent hr hp h0 hd ht =>
    obtain ⟨hready, hpos, hle, hrsp⟩ := (State.phaseLegal_output hp).1 hs
    obtain ⟨n, hn⟩ := Nat.exists_eq_add_one.2 hpos
    obtain ⟨-, hsub, hone⟩ := counter_pred (by decide) hn
    subst ht
    by_cases h1 : s.outCount = 1
    · exact (State.phaseLegal_respond (if_pos h1)).2 hrsp
    · refine (State.phaseLegal_output (if_neg h1)).2 ⟨hready, ?_, ?_, hrsp⟩
      · rw [hsub]
        exact Nat.pos_of_ne_zero fun h => h1 (hone.2 h)
      · rw [hsub]
        show n ≤ s.arch.sizeBytes.toNat + 1
        omega
  | responded r hr hp hq hd ht => subst ht; exact (State.phaseLegal_idle rfl).2 rfl

/-- Taking a payload byte keeps STAGE within its size: only a DECODE whose length can succeed stages it (R35, R233). -/
theorem State.stage_absorb_le {s : State} (b : Byte) (h : s.stage.length ≤ Config.stagingBytes) (h0 : s.remain ≠ 0)
    (ht : s.PayloadTaken (payloadLen s.curCmd - s.remain.toNat)) : (s.absorb b).stage.length ≤ Config.stagingBytes := by
  rw [State.absorb_stage]
  by_cases hb : opNum s.curCmd = 7 ∧ blobLenOk (payloadLen s.curCmd) = true
  · obtain ⟨h7, hok⟩ := hb
    obtain ⟨-, hmax⟩ := (blobLenOk_iff _).1 hok
    have hlen := ht.2 h7
    have hpos : 0 < s.remain.toNat := Nat.pos_of_ne_zero fun h => h0 (BitVec.eq_of_toNat_eq h)
    rw [if_pos hok] at hlen
    rw [if_pos ⟨h7, hok⟩, List.length_append, hlen, List.length_singleton]
    unfold Config.stagingBytes
    omega
  · rwa [if_neg hb]

/-- A step keeps STAGE within its size (R35, R233). -/
theorem Move.stage_le {s t : State} (h : Move s t) (hs : s.PhaseLegal) (hst : s.stage.length ≤ Config.stagingBytes) :
    t.stage.length ≤ Config.stagingBytes := by
  cases h with
  | reset hr ht => subst ht; exact Nat.zero_le _
  | accepted o rest hr hp hc ht => subst ht; exact Nat.zero_le _
  | payloadOver hr hp h0 ht => subst ht; exact hst
  | byteTaken o rest hr hp h0 hd ht =>
    obtain ⟨-, hne, -, htaken⟩ := (State.phaseLegal_payload hp).1 hs
    subst ht
    exact State.stage_absorb_le _ hst hne htaken
  | executed i hr hp h0 hi he => rwa [he.stage]
  | rejected e hr hp h0 he ht => subst ht; exact hst
  | outputOver hr hp h0 ht => subst ht; exact hst
  | byteSent hr hp h0 hd ht => subst ht; exact hst
  | responded r hr hp hq hd ht => subst ht; exact hst

/-- A move keeps the invariant. -/
theorem Move.inv {s t : State} (h : Move s t) (hs : s.Inv) : t.Inv := by
  obtain ⟨hl, hst, hphase⟩ := hs
  exact ⟨h.filterChange.legal hl, h.stage_le hphase hst, h.phaseLegal hl hphase⟩

/-- The insert unit keeps READY, SIZE_BYTES and K, and sets bits only (R26). -/
theorem Arch.insertDigest_keeps {a a' : Arch} {d : Digest} (hl : a.Legal) (hr : a.ready = true)
    (h : a.insertDigest d = some a') :
    a'.ready = a.ready ∧ a'.sizeBytes = a.sizeBytes ∧ a'.k = a.k ∧ ∀ n, a.bit n = true → a'.bit n = true := by
  obtain ⟨m, hm, -, hbit⟩ := a.insertDigest_spec d hl.storeOk (hl.sizeBytes_pos hr)
  cases hm.symm.trans h
  exact ⟨rfl, rfl, rfl, fun n hn => by rw [hbit, hn, Bool.true_or]⟩

/-! ### The obligations about the invariant and the filter -/

/-- Settles O49, by cases on what a step can do. -/
theorem everyStepKeepsTheInvariant : Obligations.EveryStepKeepsTheInvariant :=
  fun _ _ hs h => (step_next h).inv hs

/-- Settles O52, by cases on what a step can do to the filter. -/
theorem bitsAreOnlyEverSet : Obligations.BitsAreOnlyEverSet := by
  intro s t hs hr h
  obtain ⟨hl, -, -⟩ := hs
  cases (step_next h).filterChange with
  | cleared hr' ha => cases hr.symm.trans hr'
  | kept ha => rw [ha]; exact .inr ⟨rfl, rfl, rfl, fun _ hn => hn⟩
  | inserted d hready ha => exact .inr (Arch.insertDigest_keeps hl hready ha)
  | replaced hr' hp hop hok hready hl' => exact .inl ⟨hp, hop, hok⟩

/-- Settles O51, by cases on what a step can do to the filter. -/
theorem readyChangesOnlyByResetConstructDecode : Obligations.ReadyChangesOnlyByResetConstructDecode := by
  refine ⟨rfl, fun s t h => ?_⟩
  cases (step_next h).filterChange with
  | cleared hr ha => exact ⟨fun _ _ => hr, fun _ ht => (nomatch (congrArg Arch.ready ha).symm.trans ht)⟩
  | kept ha =>
    rw [ha]
    exact ⟨fun h1 h0 => (nomatch h1.symm.trans h0), fun h0 h1 => (nomatch h1.symm.trans h0)⟩
  | inserted d hready ha =>
    obtain ⟨hkeep, -, -⟩ := Arch.setBits_frame ha
    rw [hkeep]
    exact ⟨fun h1 h0 => (nomatch h1.symm.trans h0), fun h0 h1 => (nomatch h1.symm.trans h0)⟩
  | replaced hr hp hop hok hready hl =>
    exact ⟨fun _ h0 => (nomatch hready.symm.trans h0), fun _ _ => ⟨hr, hp, hop, hok⟩⟩

end Sys2Proof.Machine
end

/-! ### Hidden state left by earlier commands is not observed (R20, R35) -/
section
open Sys2Proof.Spec

namespace Sys2Proof.Machine

/-- Outside OUTPUT the output counter is not seen. -/
theorem seen_outCount {s : State} (c : BitVec 14) (hp : s.phase ≠ .output) : seen { s with outCount := c } = seen s := by
  unfold seen
  cases h : s.phase with
  | output => exact absurd h hp
  | _ => rfl

theorem seen_idle {s : State} (hp : s.phase = .idle) :
    seen s = { s with curCmd := 0, remain := 0, digestAcc := [], stage := [], outCount := 0 } := by
  unfold seen; rw [hp]

theorem seen_output {s : State} (hp : s.phase = .output) : seen s = s := by
  unfold seen; rw [hp]

/-- Between IDLE and OUTPUT, and in RESPOND, only the output counter is not seen. -/
theorem seen_later {s : State} (hi : s.phase ≠ .idle) (ho : s.phase ≠ .output) : seen s = { s with outCount := 0 } := by
  unfold seen
  cases h : s.phase with
  | idle => exact absurd h hi
  | output => exact absurd h ho
  | _ => rfl

/-- What is observed of an answer in any phase but OUTPUT does not depend on the output counter. -/
theorem observed_next_outCount {s : State} (c : BitVec 14) (hp : s.phase ≠ .output) :
    observed (.next { s with outCount := c }) = observed (.next s) :=
  congrArg Host.Outcome.next (seen_outCount c hp)

/-! The commands read no output counter, and only ENCODE, which sets it, leaves one that is seen. -/
section
variable (c : BitVec 14) (s : State)

theorem State.payloadItem_outCount (len : Nat) : ({ s with outCount := c } : State).payloadItem len = s.payloadItem len := rfl

theorem State.payloadDigest_outCount : ({ s with outCount := c } : State).payloadDigest = s.payloadDigest := rfl

theorem State.payloadBlob_outCount (len : Nat) : ({ s with outCount := c } : State).payloadBlob len = s.payloadBlob len := rfl

theorem observed_insertUnit_outCount (op : BitVec 4) (d : Digest) :
    observed (insertUnit op d { s with outCount := c }) = observed (insertUnit op d s) := by
  unfold insertUnit
  cases s.arch.insertDigest d <;> rfl

theorem observed_queryUnit_outCount (op : BitVec 4) (d : Digest) :
    observed (queryUnit op d { s with outCount := c }) = observed (queryUnit op d s) := by
  unfold queryUnit
  cases s.arch.queryDigest d <;> rfl

theorem observed_execConstruct_outCount (sz kf : Nat) :
    observed (execConstruct sz kf { s with outCount := c }) = observed (execConstruct sz kf s) := by
  unfold execConstruct
  split_ifs <;> rfl

theorem observed_execInsertFor_outCount (b : Config.Build) (len : Nat) :
    observed (execInsertFor b len { s with outCount := c }) = observed (execInsertFor b len s) := by
  unfold execInsertFor
  rw [State.payloadItem_outCount]
  split_ifs
  · rfl
  · cases s.payloadItem len with
    | none => rfl
    | some item => exact observed_insertUnit_outCount ..

theorem observed_execQueryFor_outCount (b : Config.Build) (len : Nat) :
    observed (execQueryFor b len { s with outCount := c }) = observed (execQueryFor b len s) := by
  unfold execQueryFor
  rw [State.payloadItem_outCount]
  split_ifs
  · rfl
  · cases s.payloadItem len with
    | none => rfl
    | some item => exact observed_queryUnit_outCount ..

theorem observed_execInsertDigest_outCount :
    observed (execInsertDigest { s with outCount := c }) = observed (execInsertDigest s) := by
  unfold execInsertDigest
  rw [State.payloadDigest_outCount]
  split_ifs
  · rfl
  · cases s.payloadDigest with
    | none => rfl
    | some d => exact observed_insertUnit_outCount ..

theorem observed_execQueryDigest_outCount :
    observed (execQueryDigest { s with outCount := c }) = observed (execQueryDigest s) := by
  unfold execQueryDigest
  rw [State.payloadDigest_outCount]
  split_ifs
  · rfl
  · cases s.payloadDigest with
    | none => rfl
    | some d => exact observed_queryUnit_outCount ..

theorem observed_execEncode_outCount : observed (execEncode { s with outCount := c }) = observed (execEncode s) := by
  unfold execEncode
  split_ifs <;> rfl

theorem observed_execDecode_outCount (len : Nat) :
    observed (execDecode len { s with outCount := c }) = observed (execDecode len s) := by
  unfold execDecode
  rw [State.payloadBlob_outCount]
  split_ifs
  · rfl
  · rfl
  · cases s.payloadBlob len with
    | none => rfl
    | some blob => dsimp only; split_ifs <;> rfl

theorem observed_execReadRegFor_outCount (b : Config.Build) (sel : Nat) :
    observed (execReadRegFor b sel { s with outCount := c }) = observed (execReadRegFor b sel s) := by
  unfold execReadRegFor
  cases s.arch.readRegisterFor b sel <;> rfl

theorem observed_execFor_outCount (b : Config.Build) (i : Instr) :
    observed (execFor b i { s with outCount := c }) = observed (execFor b i s) := by
  cases i with
  | nop => rfl
  | construct sz kf => exact observed_execConstruct_outCount c s sz kf
  | insert len => exact observed_execInsertFor_outCount c s b len
  | query len => exact observed_execQueryFor_outCount c s b len
  | insertDigest => exact observed_execInsertDigest_outCount c s
  | queryDigest => exact observed_execQueryDigest_outCount c s
  | encode => exact observed_execEncode_outCount c s
  | decode len => exact observed_execDecode_outCount c s len
  | readReg sel => exact observed_execReadRegFor_outCount c s b sel

/-- EXECUTE reads no output counter (R35, R68). -/
theorem observed_stepExecute_outCount : observed (stepExecute { s with outCount := c }) = observed (stepExecute s) := by
  unfold stepExecute stepExecuteBy
  split_ifs
  · rfl
  · dsimp only
    cases decodeWord s.curCmd with
    | ok i => rw [← execFor_thisBuild]; exact observed_execFor_outCount c s thisBuild i
    | error e => cases e <;> rfl

theorem State.countByte_absorb_outCount (b : Byte) :
    (({ s with outCount := c } : State).absorb b).countByte = { (s.absorb b).countByte with outCount := c } := by
  rw [State.absorb_eq, State.absorb_eq]
  rfl

/-- PAYLOAD reads no output counter (R35, R68). -/
theorem observed_stepPayload_outCount : observed (stepPayload { s with outCount := c }) = observed (stepPayload s) := by
  unfold stepPayload
  split_ifs
  · rfl
  · dsimp only
    cases s.dinIn with
    | nil => rfl
    | cons o rest =>
      refine (congrArg (fun t => observed (.next t)) (State.countByte_absorb_outCount c
        { s with dinIn := rest, freeCount := countAfter o.held s.freeCount } _)).trans (observed_next_outCount c ?_)
      rw [State.countByte_phase]
      split_ifs <;> decide

/-- RESPOND reads no output counter (R35, R68). -/
theorem observed_stepRespond_outCount : observed (stepRespond { s with outCount := c }) = observed (stepRespond s) := by
  unfold stepRespond
  dsimp only
  cases s.pendingRsp with
  | none => rfl
  | some r => dsimp only; split_ifs <;> rfl

end

/-- IDLE reads none of the hidden state that an earlier command left (R35, R68). -/
theorem observed_stepIdle_seen {s : State} (hp : s.phase = .idle) : observed (stepIdle (seen s)) = observed (stepIdle s) := by
  rw [seen_idle hp]
  unfold stepIdle
  dsimp only
  cases s.cmdIn with
  | nil => rfl
  | cons o rest =>
    refine observed_next_outCount (s := { s with cmdIn := rest, freeCount := countAfter o.held s.freeCount }.acceptWord
      (transferredWord o s.freeCount)) 0 ?_
    rw [State.acceptWord_phase]
    split_ifs <;> decide

@[simp] theorem seen_rst (s : State) : (seen s).rst = s.rst := by
  unfold seen; split <;> rfl

@[simp] theorem seen_phase (s : State) : (seen s).phase = s.phase := by
  unfold seen; split <;> rfl

@[simp] theorem resetEdge_seen (s : State) : (seen s).resetEdge = s.resetEdge := by
  unfold seen; split <;> rfl

/-- One step from a state without the hidden state that an earlier command left is observed as the step from the state
itself. -/
theorem observed_step_seen (s : State) : observed (step (seen s)) = observed (step s) := by
  cases hr : s.rst with
  | true => rw [step_of_rst hr, step_of_rst ((seen_rst s).trans hr), resetEdge_seen]
  | false =>
    have hr' := (seen_rst s).trans hr
    cases hp : s.phase with
    | idle =>
      rw [step_idle hr hp, step_idle hr' ((seen_phase s).trans hp)]
      exact observed_stepIdle_seen hp
    | payload =>
      rw [step_payload hr hp, step_payload hr' ((seen_phase s).trans hp), seen_later (by simp [hp]) (by simp [hp])]
      exact observed_stepPayload_outCount 0 s
    | execute =>
      rw [step_execute hr hp, step_execute hr' ((seen_phase s).trans hp), seen_later (by simp [hp]) (by simp [hp])]
      exact observed_stepExecute_outCount 0 s
    | output => rw [seen_output hp]
    | respond =>
      rw [step_respond hr hp, step_respond hr' ((seen_phase s).trans hp), seen_later (by simp [hp]) (by simp [hp])]
      exact observed_stepRespond_outCount 0 s

section
variable {run : Instr → State → Host.Outcome State Fault Refusal}

/-- A run whose first step is a fault stops with it. -/
theorem run_of_stepBy_fault {s : State} {f : Fault} (n : Nat) (h : stepBy run s = .fault f) :
    Host.Core.run (coreBy run) (n + 1) s = .fault f := by
  have key : ∀ (M : Host.Core) (s : M.State) (f : M.Fault), M.step s = .fault f → M.run (n + 1) s = .fault f := by
    intro M s f h
    rw [Host.Core.run, h]
  exact key (coreBy run) s f h

/-- A run whose first step is a refusal stops with it. -/
theorem run_of_stepBy_refused {s : State} {r : Refusal} (n : Nat) (h : stepBy run s = .refused r) :
    Host.Core.run (coreBy run) (n + 1) s = .refused r := by
  have key : ∀ (M : Host.Core) (s : M.State) (r : M.Refusal), M.step s = .refused r → M.run (n + 1) s = .refused r := by
    intro M s r h
    rw [Host.Core.run, h]
  exact key (coreBy run) s r h

end

theorem observed_eq_fault {o : Host.Outcome State Fault Refusal} {f : Fault} (h : observed o = .fault f) : o = .fault f := by
  cases o with
  | fault g => exact h
  | next t => cases h
  | refused r => cases h

theorem observed_eq_refused {o : Host.Outcome State Fault Refusal} {r : Refusal} (h : observed o = .refused r) :
    o = .refused r := by
  cases o with
  | refused q => exact h
  | next t => cases h
  | fault f => cases h

theorem observed_eq_next {o : Host.Outcome State Fault Refusal} {x : State} (h : observed o = .next x) :
    ∃ t, o = .next t ∧ seen t = x := by
  cases o with
  | next t => exact ⟨t, rfl, Host.Outcome.next.inj h⟩
  | fault f => cases h
  | refused r => cases h

/-- Runs from states that are seen alike are observed alike: by induction on the number of steps. -/
theorem observed_run_congr (n : Nat) {s u : State} (h : seen s = seen u) :
    observed (Host.Core.run (coreBy exec) n s) = observed (Host.Core.run (coreBy exec) n u) := by
  induction n generalizing s u with
  | zero => exact congrArg Host.Outcome.next h
  | succ n ih =>
    have hstep : observed (step u) = observed (step s) := by
      rw [← observed_step_seen u, ← h, observed_step_seen s]
    cases hs : step s with
    | next s' =>
      rw [hs] at hstep
      obtain ⟨u', hu, hseen⟩ := observed_eq_next hstep
      rw [run_of_stepBy n hs, run_of_stepBy n hu]
      exact ih hseen.symm
    | fault f =>
      rw [hs] at hstep
      rw [run_of_stepBy_fault n hs, run_of_stepBy_fault n (observed_eq_fault hstep)]
    | refused r =>
      rw [hs] at hstep
      rw [run_of_stepBy_refused n hs, run_of_stepBy_refused n (observed_eq_refused hstep)]

/-- Settles O60, by the simulation of one step and induction on the number of steps. -/
theorem earlierHiddenStateIsNotObserved : Obligations.EarlierHiddenStateIsNotObserved :=
  fun _ _ h n => observed_run_congr n h

end Sys2Proof.Machine
end

/-! ### The readable registers and the reset state (R21–R24, R31–R33, R301) -/
section
namespace Sys2Proof.Machine

/-- A field of CONFIG is what its number gives there (R32). -/
theorem Arch.regConfig_field {n : Nat} (a : Arch) (lo : Nat) (x : BitVec n)
    (h : (a.sizeBytes.toNat + a.k.toNat * 65536 + a.ready.toNat * 2147483648) / 2 ^ lo % 2 ^ n = x.toNat) :
    a.regConfig.extractLsb' lo n = x :=
  BitVec.eq_of_toNat_eq (by rw [BitVec.extractLsb'_toNat, Arch.regConfig_toNat, Nat.shiftRight_eq_div_pow, h])

theorem Arch.regConfig_sizeBytes (a : Arch) : a.regConfig.extractLsb' 0 16 = a.sizeBytes.setWidth 16 :=
  a.regConfig_field 0 _ (by have := a.sizeBytes.isLt; rw [BitVec.toNat_setWidth]; omega)

theorem Arch.regConfig_k (a : Arch) : a.regConfig.extractLsb' 16 5 = a.k :=
  a.regConfig_field 16 _ (by have := a.sizeBytes.isLt; have := a.k.isLt; omega)

theorem Arch.regConfig_reserved (a : Arch) : a.regConfig.extractLsb' 21 10 = 0 :=
  a.regConfig_field 21 _ (by
    have := a.sizeBytes.isLt
    have := a.k.isLt
    simp only [BitVec.ofNat_eq_ofNat, BitVec.toNat_zero]
    omega)

theorem Arch.regConfig_ready (a : Arch) : a.regConfig.getLsbD 31 = a.ready := by
  have hs := a.sizeBytes.isLt
  have hk := a.k.isLt
  rw [BitVec.getLsbD, Arch.regConfig_toNat, Nat.testBit_eq_decide_div_mod_eq]
  cases a.ready <;> simp only [Bool.toNat_true, Bool.toNat_false, decide_eq_true_eq, decide_eq_false_iff_not] <;> omega

/-- Settles O28, from the fields of each register. -/
theorem readableRegisterFields : Obligations.ReadableRegisterFields := by
  intro a
  have ⟨htag, hrev⟩ : regId.extractLsb' 8 24 = 0x424C4D ∧ regId.extractLsb' 0 8 = 0x07 := by decide
  have hcaps : regCaps.extractLsb' 0 8 = 13 ∧ regCaps.extractLsb' 8 8 = 16 ∧ regCaps.extractLsb' 16 8 = 0x01 ∧
      regCaps.extractLsb' 24 8 = 16 := by decide
  exact ⟨rfl, htag, hrev, rfl, a.regConfig_sizeBytes, a.regConfig_k, a.regConfig_reserved, a.regConfig_ready, rfl, hcaps⟩

/-- Settles O47: the reset state is one concrete state. -/
theorem resetStateIsUnconfigured : Obligations.ResetStateIsUnconfigured :=
  ⟨rfl, rfl, rfl, rfl, rfl, rfl, by decide, by decide, by decide⟩

/-- Settles O48: the filter is unconfigured, STAGE is empty and no response is pending in IDLE. -/
theorem invariantHoldsAtReset : Obligations.InvariantHoldsAtReset :=
  ⟨Arch.legal_reset, Nat.zero_le _, (State.phaseLegal_idle rfl).2 rfl⟩

end Sys2Proof.Machine
end

/-! ### The blob (R62) -/
section
namespace Sys2Proof.Machine

@[simp] theorem Arch.length_blob (a : Arch) : a.blob.length = a.sizeBytes.toNat + 1 := by
  rw [Arch.blob, List.length_map, List.length_range]

/-- Byte `j` of the blob inside the store is the store's (R62). -/
theorem Arch.blobByte_of_lt {a : Arch} {j : Nat} (h : j < a.sizeBytes.toNat) : a.blobByte j = a.store.read j := by
  rw [Arch.blobByte, Arch.memRead, if_pos h]

/-- The last byte of the blob is K (R62). -/
theorem Arch.blobByte_size (a : Arch) : a.blobByte a.sizeBytes.toNat = a.k.setWidth 8 := by
  rw [Arch.blobByte, Arch.memRead, if_neg (Nat.lt_irrefl _)]

/-- The blob: the store's bytes, then K (R62). -/
theorem Arch.blob_eq (a : Arch) :
    a.blob = (List.range a.sizeBytes.toNat).map a.store.read ++ [a.k.setWidth 8] := by
  rw [Arch.blob, List.range_succ, List.map_append, List.map_singleton, Arch.blobByte_size]
  congr 1
  exact List.map_congr_left fun j hj => Arch.blobByte_of_lt (List.mem_range.1 hj)

end Sys2Proof.Machine
end

/-! ### The blob lengths that can succeed, and where a payload byte goes (R231, R233) -/
section
open Sys2Proof.Spec

namespace Sys2Proof.Machine

/-- The legal sizes are the powers of two up to 8192 (R22). -/
theorem mem_legalSizes_iff (n : Nat) : n ∈ legalSizes ↔ pow2 n = true ∧ n ≤ 8192 := by
  have hlist : legalSizes = (List.range 14).map (2 ^ ·) := by decide
  rw [hlist, List.mem_map, pow2_iff]
  constructor
  · rintro ⟨e, he, rfl⟩
    have := List.mem_range.1 he
    exact ⟨⟨e, rfl⟩, (Nat.pow_le_pow_iff_right (m := 13) (by decide)).2 (by omega)⟩
  · rintro ⟨⟨e, rfl⟩, hle⟩
    have := (Nat.pow_le_pow_iff_right (m := 13) (by decide)).1 hle
    exact ⟨e, List.mem_range.2 (by omega), rfl⟩

theorem blobLenOk_iff_mem_legalSizes (len : Nat) : blobLenOk len = true ↔ len - 1 ∈ legalSizes :=
  (blobLenOk_iff len).trans (mem_legalSizes_iff _).symm

theorem opNum_eq_seven_iff (w : Word) : opNum w = 7 ↔ w.extractLsb' 28 4 = 0x7 :=
  BitVec.toNat_inj (x := opField w) (y := 0x7)

/-- The accumulator after a payload byte, by the opcode bits of the word (R35). -/
theorem State.absorb_digestAcc_eq (s : State) (b : Byte) : (s.absorb b).digestAcc =
    if s.curCmd.extractLsb' 28 4 = 0x7 then s.digestAcc else s.digestAcc ++ [b] := by
  rw [State.absorb_digestAcc]
  exact if_congr (opNum_eq_seven_iff _) rfl rfl

/-- STAGE after a payload byte, by the opcode bits of the word and its blob length (R233). -/
theorem State.absorb_stage_eq (s : State) (b : Byte) : (s.absorb b).stage =
    if s.curCmd.extractLsb' 28 4 = 0x7 ∧ payloadLen s.curCmd - 1 ∈ legalSizes then s.stage ++ [b] else s.stage := by
  rw [State.absorb_stage]
  exact if_congr (and_congr (opNum_eq_seven_iff _) (blobLenOk_iff_mem_legalSizes _)) rfl rfl

end Sys2Proof.Machine
end

/-! ### The transfer of each phase (R67–R70) -/
section
namespace Sys2Proof.Machine

section
variable {run : Instr → State → Host.Outcome State Fault Refusal} {s : State}

/-- A command word accepted (R68). -/
theorem stepBy_of_idle {o : Offer Word} {rest : List (Offer Word)} (hr : s.rst = false) (hp : s.phase = .idle)
    (hc : s.cmdIn = o :: rest) :
    stepBy run s = .next ({ s with cmdIn := rest, freeCount := countAfter o.held s.freeCount }.acceptWord
      (transferredWord o s.freeCount)) := by
  rw [stepBy_idle hr hp, stepIdle, hc]

/-- A payload byte taken (R68, R69). -/
theorem stepBy_of_payload {o : Offer Byte} {rest : List (Offer Byte)} (hr : s.rst = false) (hp : s.phase = .payload)
    (h0 : s.remain ≠ 0) (hd : s.dinIn = o :: rest) :
    stepBy run s = .next (({ s with dinIn := rest, freeCount := countAfter o.held s.freeCount }.absorb
      (transferredByte o s.freeCount)).countByte) := by
  rw [stepBy_payload hr hp, stepPayload, if_neg h0, hd]

/-- EXECUTE of a word that decodes to a command is that command's meaning (R68). -/
theorem stepBy_of_execute {i : Instr} (hr : s.rst = false) (hp : s.phase = .execute) (h0 : s.remain = 0)
    (hi : decodeWord s.curCmd = .ok i) : stepBy run s = run i s := by
  rw [stepBy_execute hr hp, stepExecuteBy, if_neg (not_not_intro h0), hi]

end

/-- REMAIN of an accepted word is its payload length (R68). -/
theorem State.acceptWord_remain_toNat (s : State) (w : Word) : (s.acceptWord w).remain.toNat = payloadLen w := by
  rw [State.acceptWord_remain, BitVec.toNat_ofNat, Nat.mod_eq_of_lt (payloadLen_lt w)]

/-- A counter that is not 0 is one more than a number. -/
theorem exists_toNat_eq_succ {w : Nat} {c : BitVec w} (h : c ≠ 0) : ∃ n, c.toNat = n + 1 :=
  Nat.exists_eq_add_one.2 (Nat.pos_of_ne_zero fun h0 => h (BitVec.eq_of_toNat_eq (by simpa using h0)))

/-- Settles O37: a step in EXECUTE with the whole payload taken is the decoded command's meaning. -/
theorem stepRunsTheDecodedCommand : Obligations.StepRunsTheDecodedCommand := by
  refine ⟨fun s i hr hp h0 hi => ⟨stepBy_of_execute hr hp h0 hi, fun b => stepBy_of_execute hr hp h0 hi⟩, fun s => ?_,
    fun i s => ?_⟩
  · rw [stepFor_thisBuild]
  · rw [execFor_thisBuild]

/-- A word of the opcode table is the 32-bit word that the decoder reads. -/
theorem decodeTableWord_eq_some {nbits w : Nat} {i : Instr} (h : decodeTableWord nbits w = some i) :
    decodeWord (BitVec.ofNat 32 (w % 2 ^ nbits)) = .ok i := by
  unfold decodeTableWord at h
  split at h
  · next j hj => rw [hj, Option.some.inj h]
  · cases h

/-- Settles O38: a placed word is in EXECUTE with nothing left to take. -/
theorem placedCommandRunsNext : Obligations.PlacedCommandRunsNext :=
  fun s w _ h => stepBy_of_execute (s := s.withFetchWord 32 w) rfl rfl rfl (decodeTableWord_eq_some h)

/-- Settles O39: the step is the acceptance of the offered word. -/
theorem idleAcceptsTheOfferedWord : Obligations.IdleAcceptsTheOfferedWord := by
  intro s w rest hr hp hc
  refine ⟨_, stepBy_of_idle hr hp hc, rfl, State.acceptWord_remain_toNat .., ?_, rfl, rfl, rfl⟩
  rw [State.acceptWord_phase]
  show (if 0 < payloadLen w then _ else _) = _
  split_ifs with hpos h0
  · omega
  · rfl
  · rfl
  · omega

/-- Settles O40: the step absorbs the offered byte and counts it. -/
theorem payloadTakesBytesInOrder : Obligations.PayloadTakesBytesInOrder := by
  intro s b rest hr hp h0 hd
  obtain ⟨n, hn⟩ := exists_toNat_eq_succ h0
  obtain ⟨-, hsub, -⟩ := counter_pred (by decide) hn
  refine ⟨_, stepBy_of_payload hr hp h0 hd, ?_, ?_, State.absorb_digestAcc_eq .., State.absorb_stage_eq .., ?_⟩
  · rw [State.countByte_remain, State.absorb_remain, hsub, hn]
  · rw [State.countByte_phase, State.countByte_remain]
    exact if_congr sub_eq_zero.symm rfl rfl
  · rw [State.absorb_eq]
    rfl

/-- `dout_data` is K on the last byte and the next byte of the store before it (R62, R70). -/
theorem State.doutData_eq {s : State} (h1 : 1 ≤ s.outCount.toNat) (hle : s.outCount.toNat ≤ s.arch.sizeBytes.toNat + 1) :
    s.doutData = if s.outCount = 1 then s.arch.k.setWidth 8
      else s.arch.store.read (s.arch.sizeBytes.toNat + 1 - s.outCount.toNat) := by
  unfold State.doutData
  by_cases hlast : s.outCount = 1
  · rw [if_pos hlast, hlast]
    exact s.arch.blobByte_size
  · have hne : s.outCount.toNat ≠ 1 := fun h => hlast (BitVec.eq_of_toNat_eq h)
    rw [if_neg hlast, Arch.blobByte_of_lt (by omega)]

/-- Settles O41: the step sends the byte that the counter selects and counts it. -/
theorem outputSendsOneByte : Obligations.OutputSendsOneByte := by
  intro s hr hp h1 hle htakes
  obtain ⟨n, hn⟩ := Nat.exists_eq_add_one.2 h1
  obtain ⟨h0, hsub, -⟩ := counter_pred (by decide) hn
  refine ⟨_, stepBy_of_output hr hp h0 (by omega), ?_, rfl, ?_, rfl⟩
  · show (s.outCount - 1).toNat + 1 = _
    rw [hsub, hn]
  · rw [State.doutData_eq h1 hle]
    rfl

/-- Settles O42: the step sends the pending response. -/
theorem respondSendsOneResponse : Obligations.RespondSendsOneResponse :=
  fun _ _ hr hp hq htakes => stepBy_of_respond hr hp hq htakes

/-- Settles O44: the acceptance of a word and the taking of a byte, with an offer that is not held. -/
theorem unstableOfferTransfersAFreeValue : Obligations.UnstableOfferTransfersAFreeValue := by
  intro s hr
  refine ⟨fun v rest hp hc => ⟨_, stepBy_of_idle hr hp hc, rfl, rfl, rfl⟩, fun v rest hp h0 hd => ?_⟩
  refine ⟨_, _, stepBy_of_payload hr hp h0 hd, rfl, ?_, ?_, State.absorb_digestAcc_eq .., State.absorb_stage_eq ..⟩
  · rw [State.countByte_freeCount, State.absorb_freeCount]
    rfl
  · rw [State.countByte_arch, State.absorb_arch]

end Sys2Proof.Machine
end

/-! ### A command as one atomic step (R71) -/
section
namespace Sys2Proof.Machine

/-- The whole payload of the current command is held where EXECUTE reads it: in the accumulator, or in STAGE for a DECODE whose
length can succeed (R35, R233). -/
structure State.Holds (s : State) (payload : List Byte) : Prop where
  /-- The accumulator holds it for every command but DECODE. -/
  acc : opNum s.curCmd ≠ 7 → s.digestAcc = payload
  /-- STAGE holds it for a DECODE whose length can succeed. -/
  staged : opNum s.curCmd = 7 → blobLenOk (payloadLen s.curCmd) = true → s.stage = payload

/-- EXECUTE from `s` carries out the effect of the atomic command: the response is held, and the filter has been replaced, or
the whole blob is about to go out. -/
inductive Performs (s : State) : Option CommandEffect → Host.Outcome State Fault Refusal → Prop where
  /-- Every command but a successful ENCODE. -/
  | answers (a : Arch) (r : Response) : Performs s (some ⟨a, [], r⟩) (.next ((s.withArch a).respond r))
  /-- ENCODE (R230). -/
  | emits (r : Response) :
      Performs s (some ⟨s.arch, s.arch.blob, r⟩) (.next (s.beginOutput (s.arch.sizeBytes.toNat + 1) r))

theorem opNum_of_ok {w : Word} {i : Instr} (h : decodeWord w = .ok i) : opNum w = i.opcode.toNat := by
  rw [opNum, (decodeWord_ok h).1]

section
variable {s : State}

/-- An error is carried out by `raise` (R275). -/
theorem Performs.raise (op : BitVec 4) (e : CommandError) :
    Performs s (some ⟨s.arch, [], responseWord op e.code e.detail false 0⟩) (raise op e s) := .answers s.arch _

/-- A success that keeps the filter. -/
theorem Performs.succeed (op : BitVec 4) (result : Bool) (value : Word) :
    Performs s (some ⟨s.arch, [], responseWord op codeOk 0 result value⟩) (succeed op result value s) := .answers s.arch _

theorem Performs.insertUnit (op : BitVec 4) (d : Digest) (hl : s.arch.Legal) (hr : s.arch.ready = true) :
    Performs s ((s.arch.insertDigest d).map fun a => ⟨a, [], responseWord op codeOk 0 false 0⟩) (insertUnit op d s) := by
  obtain ⟨m, hm, -, -⟩ := s.arch.insertDigest_spec d hl.storeOk (hl.sizeBytes_pos hr)
  unfold Machine.insertUnit
  rw [hm]
  exact .answers _ _

theorem Performs.queryUnit (op : BitVec 4) (d : Digest) (hl : s.arch.Legal) (hr : s.arch.ready = true) :
    Performs s ((s.arch.queryDigest d).map fun r => ⟨s.arch, [], responseWord op codeOk 0 r 0⟩) (queryUnit op d s) := by
  unfold Machine.queryUnit
  rw [s.arch.queryDigest_spec d (hl.sizeBytes_pos hr)]
  exact .succeed _ _ _

/-- A held payload of the item's length is the item (R160). -/
theorem State.payloadItem_of_length {len : Nat} (h : s.digestAcc.length = len) : s.payloadItem len = some s.digestAcc :=
  if_pos h

/-- A staged payload of the blob's length is the blob (R231, R233). -/
theorem State.payloadBlob_of_length {len : Nat} (h : s.stage.length = len) (h0 : len ≠ 0) :
    ∃ kb, s.stage[len - 1]? = some kb ∧ s.payloadBlob len = some (s.stage.take (len - 1), kb) := by
  have hlt : len - 1 < s.stage.length := by omega
  have hkb := List.getElem?_eq_getElem hlt
  exact ⟨_, hkb, by rw [State.payloadBlob, if_pos h, hkb]⟩

/-! Each command, with the opcode that its word carries. -/

variable {b : Config.Build} {w : Word} {payload : List Byte}

theorem performs_nop (h : decodeWord w = .ok .nop) :
    Performs s (atomicCommandFor b s.arch w payload) (execNop s) := by
  simp only [atomicCommandFor, h, (decodeWord_ok h).1]
  exact .succeed _ _ _

theorem performs_construct {sz kf : Nat} (h : decodeWord w = .ok (.construct sz kf)) :
    Performs s (atomicCommandFor b s.arch w payload) (execConstruct sz kf s) := by
  simp only [atomicCommandFor, h, (decodeWord_ok h).1, Memory.ofBytes_zeros]
  unfold execConstruct Config.sizeMaxBytes Config.kMin Config.kMax
  split_ifs
  · exact .raise _ _
  · exact .raise _ _
  · exact .raise _ _
  · exact .answers _ _

theorem performs_insert {len : Nat} (h : decodeWord w = .ok (.insert len)) (hl : s.arch.Legal)
    (hp : s.digestAcc = payload) (hlen : payload.length = len) :
    Performs s (atomicCommandFor b s.arch w payload) (execInsertFor b len s) := by
  simp only [atomicCommandFor, h, (decodeWord_ok h).1]
  unfold execInsertFor
  split_ifs with hr
  · exact .raise _ _
  · rw [State.payloadItem_of_length (hp ▸ hlen), hp]
    exact .insertUnit _ _ hl (by simpa using hr)

theorem performs_query {len : Nat} (h : decodeWord w = .ok (.query len)) (hl : s.arch.Legal)
    (hp : s.digestAcc = payload) (hlen : payload.length = len) :
    Performs s (atomicCommandFor b s.arch w payload) (execQueryFor b len s) := by
  simp only [atomicCommandFor, h, (decodeWord_ok h).1]
  unfold execQueryFor
  split_ifs with hr
  · exact .raise _ _
  · rw [State.payloadItem_of_length (hp ▸ hlen), hp]
    exact .queryUnit _ _ hl (by simpa using hr)

theorem performs_insertDigest (h : decodeWord w = .ok .insertDigest) (hl : s.arch.Legal)
    (hp : s.digestAcc = payload) (hlen : payload.length = 32) :
    Performs s (atomicCommandFor b s.arch w payload) (execInsertDigest s) := by
  obtain ⟨d, hd⟩ := digestOfBytes_isSome hlen
  simp only [atomicCommandFor, h, (decodeWord_ok h).1]
  unfold execInsertDigest
  split_ifs with hr
  · exact .raise _ _
  · rw [State.payloadDigest, hp, hd]
    exact .insertUnit _ _ hl (by simpa using hr)

theorem performs_queryDigest (h : decodeWord w = .ok .queryDigest) (hl : s.arch.Legal)
    (hp : s.digestAcc = payload) (hlen : payload.length = 32) :
    Performs s (atomicCommandFor b s.arch w payload) (execQueryDigest s) := by
  obtain ⟨d, hd⟩ := digestOfBytes_isSome hlen
  simp only [atomicCommandFor, h, (decodeWord_ok h).1]
  unfold execQueryDigest
  split_ifs with hr
  · exact .raise _ _
  · rw [State.payloadDigest, hp, hd]
    exact .queryUnit _ _ hl (by simpa using hr)

theorem performs_encode (h : decodeWord w = .ok .encode) :
    Performs s (atomicCommandFor b s.arch w payload) (execEncode s) := by
  simp only [atomicCommandFor, h, (decodeWord_ok h).1]
  unfold execEncode
  split_ifs
  · exact .raise _ _
  · exact .emits _

theorem performs_decode {len : Nat} (h : decodeWord w = .ok (.decode len))
    (hp : blobLenOk len = true → s.stage = payload) (hlen : payload.length = len) :
    Performs s (atomicCommandFor b s.arch w payload) (execDecode len s) := by
  simp only [atomicCommandFor, h, (decodeWord_ok h).1]
  unfold execDecode Config.kMin Config.kMax
  split_ifs with h0 hok
  · exact .raise _ _
  · exact .raise _ _
  · have hst := hp (by simpa using hok)
    obtain ⟨kb, hkb, hblob⟩ := State.payloadBlob_of_length (hst ▸ hlen) h0
    rw [hblob, ← hst, hkb]
    dsimp only [Option.bind_some]
    split_ifs
    · exact .raise _ _
    · exact .answers _ _

theorem performs_readReg {sel : Nat} (h : decodeWord w = .ok (.readReg sel)) :
    Performs s (atomicCommandFor b s.arch w payload) (execReadRegFor b sel s) := by
  simp only [atomicCommandFor, h, (decodeWord_ok h).1]
  unfold execReadRegFor
  cases s.arch.readRegisterFor b sel with
  | some v => exact .succeed _ _ _
  | none => exact .raise _ _

theorem performs_rejectWord {e : DecodeError} (h : decodeWord s.curCmd = .error e) :
    Performs s (atomicCommandFor b s.arch s.curCmd payload) (rejectWord e s) := by
  cases e with
  | undefinedOpcode =>
    simp only [atomicCommandFor, h]
    exact .raise _ _
  | reservedBits =>
    simp only [atomicCommandFor, h]
    exact .raise _ _

/-- Every command carries out its atomic effect, when its whole payload is held (R71). -/
theorem performs_execFor {i : Instr} (h : decodeWord s.curCmd = .ok i) (hl : s.arch.Legal) (hp : s.Holds payload)
    (hlen : payload.length = i.payload) :
    Performs s (atomicCommandFor b s.arch s.curCmd payload) (execFor b i s) := by
  have hop := opNum_of_ok h
  have hacc : i.opcode.toNat ≠ 7 → s.digestAcc = payload := fun h7 => hp.acc (by rwa [hop])
  cases i with
  | nop => exact performs_nop h
  | construct sz kf => exact performs_construct h
  | insert len => exact performs_insert h hl (hacc (fun h7 => nomatch h7)) hlen
  | query len => exact performs_query h hl (hacc (fun h7 => nomatch h7)) hlen
  | insertDigest => exact performs_insertDigest h hl (hacc (fun h7 => nomatch h7)) hlen
  | queryDigest => exact performs_queryDigest h hl (hacc (fun h7 => nomatch h7)) hlen
  | encode => exact performs_encode h
  | decode len => exact performs_decode h (fun hok => hp.staged hop (by rwa [payloadLen_of_ok h])) hlen
  | readReg sel => exact performs_readReg h

/-- EXECUTE carries out the atomic effect of every word, when its whole payload is held (R71, R111). -/
theorem performs_stepExecuteFor (hl : s.arch.Legal) (h0 : s.remain = 0) (hp : s.Holds payload)
    (hlen : payload.length = payloadLen s.curCmd) :
    Performs s (atomicCommandFor b s.arch s.curCmd payload) (stepExecuteBy (execFor b) s) := by
  rw [stepExecuteBy, if_neg (not_not_intro h0)]
  cases h : decodeWord s.curCmd with
  | ok i => exact performs_execFor h hl hp (hlen.trans (payloadLen_of_ok h))
  | error e => exact performs_rejectWord h

end

/-! ### From IDLE to EXECUTE, and from EXECUTE back to IDLE -/

/-- The state in EXECUTE with the word `w` and its whole payload taken, and `words` and `bytes` still on the channels. -/
def State.loaded (s : State) (w : Word) (payload : List Byte) (words : List (Offer Word)) (bytes : List (Offer Byte)) :
    State :=
  { s with
    phase := .execute
    curCmd := w
    remain := 0
    cmdIn := words
    dinIn := bytes
    digestAcc := if opNum w = 7 then [] else payload
    stage := if opNum w = 7 ∧ blobLenOk (payloadLen w) = true then payload else [] }

theorem State.holds_loaded (s : State) (w : Word) (payload : List Byte) (words : List (Offer Word))
    (bytes : List (Offer Byte)) : (s.loaded w payload words bytes).Holds payload :=
  ⟨fun h7 => if_neg h7, fun h7 hok => if_pos ⟨h7, hok⟩⟩

/-- The state in IDLE after the effect `e` has reached the host, with `c` left in the output counter. -/
def State.finished (s : State) (e : CommandEffect) (c : BitVec 14) : State :=
  { s with
    arch := e.arch
    phase := .idle
    outCount := c
    pendingRsp := none
    doutTakes := s.doutTakes - e.output.length
    rspTakes := s.rspTakes - 1
    doutSent := s.doutSent ++ markLast e.output
    rspSent := s.rspSent ++ [e.response] }

/-- Only the last transfer of an output is marked (R70). -/
theorem markLast_concat (bs : List Byte) (b : Byte) : markLast (bs ++ [b]) = bs.map (fun x => (x, false)) ++ [(b, true)] := by
  induction bs with
  | nil => rfl
  | cons x xs ih =>
    obtain ⟨y, ys, hy⟩ := List.exists_cons_of_ne_nil (List.append_ne_nil_of_right_ne_nil xs (List.cons_ne_nil b []))
    rw [List.cons_append, hy, markLast, ← hy, ih]
    rfl

/-- The transfers of a whole blob are its bytes, the last one marked (R70). -/
theorem Arch.lastTransfers_size (a : Arch) : a.lastTransfers a.sizeBytes.toNat = markLast a.blob := by
  rw [Arch.blob_eq, markLast_concat, Arch.lastTransfers, Nat.sub_self, ← List.range_eq_range', List.map_map]
  rfl

section
variable {run : Instr → State → Host.Outcome State Fault Refusal}

/-- A run from IDLE over a word and its whole payload, offered and held: EXECUTE is next (R68, R69). -/
theorem run_loaded {s : State} {w : Word} {words : List (Offer Word)} {payload : List Byte} {bytes : List (Offer Byte)}
    (n : Nat) (hr : s.rst = false) (hp : s.phase = .idle) (hc : s.cmdIn = ⟨w, true⟩ :: words)
    (hd : s.dinIn = (payload.map fun x => ⟨x, true⟩) ++ bytes) (hlen : payload.length = payloadLen w) :
    Host.Core.run (coreBy run) (payload.length + n + 1) s =
      Host.Core.run (coreBy run) n (s.loaded w payload words bytes) := by
  have haccept : stepBy run s = .next ({ s with cmdIn := words }.acceptWord w) := by
    rw [stepBy_of_idle hr hp hc]
    rfl
  rw [run_of_stepBy _ haccept]
  by_cases hne : payload = []
  · subst hne
    rw [List.length_nil, Nat.zero_add]
    congr 1
    unfold State.acceptWord State.loaded
    rw [← hlen, hd, ite_self, ite_self]
    rfl
  · have hpos : 0 < payloadLen w := hlen ▸ List.length_pos_iff.2 hne
    have hrem : ({ s with cmdIn := words }.acceptWord w).remain.toNat = payload.length :=
      (State.acceptWord_remain_toNat ..).trans hlen.symm
    exact run_payload payload ({ s with cmdIn := words }.acceptWord w) bytes n hr (if_pos hpos) hrem hne hd

/-- A run from EXECUTE to IDLE delivers exactly the effect that EXECUTE carries out (R70, R71). -/
theorem Performs.run_finished {s : State} {o : Option CommandEffect} (h : Performs s o (stepBy run s))
    (hr : s.rst = false) (hl : s.arch.sizeBytes.toNat ≤ 8192) (hd : s.arch.sizeBytes.toNat + 1 ≤ s.doutTakes)
    (hq : 0 < s.rspTakes) :
    ∃ e c, o = some e ∧ Host.Core.run (coreBy run) (e.output.length + 2) s = .next (s.finished e c) := by
  generalize hx : stepBy run s = x at h
  cases h with
  | answers a r =>
    refine ⟨_, s.outCount, rfl, ?_⟩
    have hrespond := stepBy_of_respond (run := run) (s := (s.withArch a).respond r) hr rfl rfl hq
    refine (run_of_stepBy 1 hx).trans ((run_of_stepBy 0 hrespond).trans ?_)
    unfold State.finished
    rw [markLast, List.append_nil]
    rfl
  | emits r =>
    refine ⟨_, 0, rfl, ?_⟩
    have hcount : (s.beginOutput (s.arch.sizeBytes.toNat + 1) r).outCount.toNat = s.arch.sizeBytes.toNat + 1 := by
      rw [State.beginOutput_outCount, BitVec.toNat_ofNat, Nat.mod_eq_of_lt (by omega)]
    have hsent := run_output (run := run) s.arch.sizeBytes.toNat (s.beginOutput (s.arch.sizeBytes.toNat + 1) r) hr rfl hcount
      (Nat.le_refl _) hd
    dsimp only
    rw [Arch.length_blob]
    refine (run_of_stepBy _ hx).trans (run_then_stepBy _ hsent ?_)
    refine (stepBy_of_respond (r := r) ?_ ?_ ?_ ?_).trans ?_
    · exact hr
    · rfl
    · rfl
    · exact hq
    unfold State.finished
    rw [← Arch.lastTransfers_size, Arch.length_blob]
    rfl

end

/-- Settles O59, by running the three parts of a command: the word and its payload, EXECUTE, the output and the response. -/
theorem commandIsOneAtomicStep : Obligations.CommandIsOneAtomicStep := by
  refine ⟨coreFor_thisBuild, fun b s w words payload bytes hs hr hp hc hd hlen hout hrsp => ?_⟩
  obtain ⟨hl, -, hphase⟩ := hs
  have hexec : Performs (s.loaded w payload words bytes) (atomicCommandFor b s.arch w payload)
      (stepBy (execFor b) (s.loaded w payload words bytes)) := by
    rw [stepBy_execute (s := s.loaded w payload words bytes) hr rfl]
    exact performs_stepExecuteFor hl rfl (s.holds_loaded ..) hlen
  obtain ⟨e, c, he, hfin⟩ := hexec.run_finished hr hl.sizeBytes_le hout hrsp
  have hrun : Host.Core.run (coreFor b) (payload.length + e.output.length + 3) s =
      .next ((s.loaded w payload words bytes).finished e c) :=
    (run_loaded (e.output.length + 2) hr hp hc hd hlen).trans hfin
  exact ⟨e, _, he, hrun, rfl, rfl, rfl, hr, rfl, rfl, rfl, rfl, rfl, rfl, rfl,
    fun moves hf k => edgesFor_of_run hf _ hrun k⟩

end Sys2Proof.Machine
end

/-! ### What a command leaves unchanged (R65) -/
section
namespace Sys2Proof.Machine

section
variable {i : Instr} {s t : State} (h : Ending i s t)
include h

/-- Only ENCODE sets the output counter, and every other command goes on to RESPOND (R68, R230). -/
theorem Ending.responds (hi : i ≠ .encode) : t.outCount = s.outCount ∧ t.phase = .respond := by
  cases h with
  | failed e ht => subst ht; exact ⟨rfl, rfl⟩
  | inserted d a hi' hr ha ht => subst ht; exact ⟨rfl, rfl⟩
  | queried d r hi' hr hq ht => subst ht; exact ⟨rfl, rfl⟩
  | replaced n k m hi' hn hn' hk hk' hm hm' ht => subst ht; exact ⟨rfl, rfl⟩
  | encoded hi' hr ht => exact absurd hi' hi
  | answered v hi' ht => subst ht; exact ⟨rfl, rfl⟩

/-- What a command that neither configures nor decodes does to the filter: nothing, or the insert unit's sets. -/
theorem Ending.arch_cases (hc : ∀ sz kf, i ≠ .construct sz kf) (hd : ∀ len, i ≠ .decode len) :
    t.arch = s.arch ∨ ((∃ len, i = .insert len) ∨ i = .insertDigest) ∧ ∃ d, s.arch.insertDigest d = some t.arch := by
  cases h with
  | failed e ht => subst ht; exact .inl rfl
  | inserted d a hi hr ha ht => subst ht; exact .inr ⟨hi, d, ha⟩
  | queried d r hi hr hq ht => subst ht; exact .inl rfl
  | replaced n k m hi hn hn' hk hk' hm hm' ht =>
    obtain ⟨sz, kf, hi⟩ | ⟨len, hi⟩ := hi
    · exact absurd hi (hc sz kf)
    · exact absurd hi (hd len)
  | encoded hi hr ht => subst ht; exact .inl rfl
  | answered v hi ht => subst ht; exact .inl rfl

end

/-- Settles O29, by cases on how a command can end. -/
theorem commandFrame : Obligations.CommandFrame := by
  intro i s t h
  have he := exec_next h
  refine ⟨he.frame, he.responds, fun hc hd => ?_, fun hc hd hins hdig => ?_⟩
  · obtain ha | ⟨-, d, ha⟩ := he.arch_cases hc hd
    · rw [ha]
      exact ⟨rfl, rfl, rfl⟩
    · exact Arch.setBits_frame ha
  · obtain ha | ⟨⟨len, hi⟩ | hi, -⟩ := he.arch_cases hc hd
    · exact ha
    · exact absurd hi (hins len)
    · exact absurd hi hdig

end Sys2Proof.Machine
end

/-! ### What a step can stop with, said once (R77, R142) -/
section
namespace Sys2Proof.Machine

/-- A stop of EXECUTE: a bit outside the store, or a payload that is not whole. No run reaches either (log 9, log 12). -/
def Fault.IsExecuteStop (f : Fault) : Prop := f = .bitOutOfRange ∨ f = .payloadIncomplete

section
variable {s : State} {f : Fault}

theorem insertUnit_fault {op : BitVec 4} {d : Digest} (h : insertUnit op d s = .fault f) : f.IsExecuteStop := by
  unfold insertUnit at h
  split at h
  · cases h
  · cases h; exact .inl rfl

theorem queryUnit_fault {op : BitVec 4} {d : Digest} (h : queryUnit op d s = .fault f) : f.IsExecuteStop := by
  unfold queryUnit at h
  split at h
  · cases h
  · cases h; exact .inl rfl

theorem execConstruct_ne_fault {sz kf : Nat} : execConstruct sz kf s ≠ .fault f := by
  unfold execConstruct
  split_ifs <;> exact nofun

theorem execInsertFor_fault {b : Config.Build} {len : Nat} (h : execInsertFor b len s = .fault f) : f.IsExecuteStop := by
  unfold execInsertFor at h
  split at h
  · cases h
  split at h
  · cases h; exact .inr rfl
  · exact insertUnit_fault h

theorem execQueryFor_fault {b : Config.Build} {len : Nat} (h : execQueryFor b len s = .fault f) : f.IsExecuteStop := by
  unfold execQueryFor at h
  split at h
  · cases h
  split at h
  · cases h; exact .inr rfl
  · exact queryUnit_fault h

theorem execInsertDigest_fault (h : execInsertDigest s = .fault f) : f.IsExecuteStop := by
  unfold execInsertDigest at h
  split at h
  · cases h
  split at h
  · cases h; exact .inr rfl
  · exact insertUnit_fault h

theorem execQueryDigest_fault (h : execQueryDigest s = .fault f) : f.IsExecuteStop := by
  unfold execQueryDigest at h
  split at h
  · cases h
  split at h
  · cases h; exact .inr rfl
  · exact queryUnit_fault h

theorem execEncode_ne_fault : execEncode s ≠ .fault f := by
  unfold execEncode
  split_ifs <;> exact nofun

theorem execDecode_fault {len : Nat} (h : execDecode len s = .fault f) : f.IsExecuteStop := by
  unfold execDecode at h
  split at h
  · cases h
  split at h
  · cases h
  split at h
  · cases h; exact .inr rfl
  · split at h <;> cases h

theorem execReadRegFor_ne_fault {b : Config.Build} {sel : Nat} : execReadRegFor b sel s ≠ .fault f := by
  unfold execReadRegFor
  split <;> exact nofun

/-- Everything that a command can stop with, in any build. -/
theorem execFor_fault {b : Config.Build} {i : Instr} (h : execFor b i s = .fault f) : f.IsExecuteStop := by
  cases i with
  | nop => cases h
  | construct sz kf => exact absurd h execConstruct_ne_fault
  | insert len => exact execInsertFor_fault h
  | query len => exact execQueryFor_fault h
  | insertDigest => exact execInsertDigest_fault h
  | queryDigest => exact execQueryDigest_fault h
  | encode => exact absurd h execEncode_ne_fault
  | decode len => exact execDecode_fault h
  | readReg sel => exact absurd h execReadRegFor_ne_fault

/-- Everything that EXECUTE can stop with, in any build. -/
theorem stepExecuteFor_fault {b : Config.Build} (h : stepExecuteBy (execFor b) s = .fault f) : f.IsExecuteStop := by
  unfold stepExecuteBy at h
  split at h
  · cases h; exact .inr rfl
  split at h
  · exact execFor_fault h
  · next e _ => cases e <;> cases h

end

/-- Everything that a step can stop with: one of the four waits for the host, a stop of EXECUTE, or a RESPOND phase that holds no
response. -/
inductive Stop (s : State) : Fault → Prop where
  /-- IDLE with no command offered. -/
  | awaitingCommand (hr : s.rst = false) (hp : s.phase = .idle) (hc : s.cmdIn = []) : Stop s .awaitingCommand
  /-- PAYLOAD with no byte offered. -/
  | awaitingPayload (hr : s.rst = false) (hp : s.phase = .payload) (h0 : s.remain ≠ 0) (hd : s.dinIn = []) :
      Stop s .awaitingPayload
  /-- EXECUTE. -/
  | executing {f : Fault} (hr : s.rst = false) (hp : s.phase = .execute) (hf : f.IsExecuteStop) : Stop s f
  /-- OUTPUT with the byte not taken. -/
  | awaitingOutputTaken (hr : s.rst = false) (hp : s.phase = .output) (h0 : s.outCount ≠ 0) (hd : s.doutTakes = 0) :
      Stop s .awaitingOutputTaken
  /-- RESPOND with no response held (log 12). -/
  | noPendingResponse (hr : s.rst = false) (hp : s.phase = .respond) (hq : s.pendingRsp = none) : Stop s .noPendingResponse
  /-- RESPOND with the response not taken. -/
  | awaitingResponseTaken (hr : s.rst = false) (hp : s.phase = .respond) (hq : s.pendingRsp ≠ none) (hd : s.rspTakes = 0) :
      Stop s .awaitingResponseTaken

section
variable {s : State} {f : Fault}

theorem stepIdle_fault (hr : s.rst = false) (hp : s.phase = .idle) (h : stepIdle s = .fault f) : Stop s f := by
  unfold stepIdle at h
  split at h
  · next hc => cases h; exact .awaitingCommand hr hp hc
  · cases h

theorem stepPayload_fault (hr : s.rst = false) (hp : s.phase = .payload) (h : stepPayload s = .fault f) : Stop s f := by
  unfold stepPayload at h
  split at h
  · cases h
  next h0 =>
  split at h
  · next hd => cases h; exact .awaitingPayload hr hp h0 hd
  · cases h

theorem stepOutput_fault (hr : s.rst = false) (hp : s.phase = .output) (h : stepOutput s = .fault f) : Stop s f := by
  unfold stepOutput at h
  split at h
  · cases h
  next h0 =>
  split at h
  · next hd => cases h; exact .awaitingOutputTaken hr hp h0 hd
  · cases h

theorem stepRespond_fault (hr : s.rst = false) (hp : s.phase = .respond) (h : stepRespond s = .fault f) : Stop s f := by
  unfold stepRespond at h
  split at h
  · next hq => cases h; exact .noPendingResponse hr hp hq
  next r hq =>
  split at h
  · next hd => cases h; exact .awaitingResponseTaken hr hp (by rw [hq]; exact nofun) hd
  · cases h

/-- Everything that a step can stop with, in any build. -/
theorem stepFor_fault {b : Config.Build} (h : stepFor b s = .fault f) : Stop s f := by
  unfold stepFor at h
  cases hr : s.rst with
  | true =>
    rw [stepBy_of_rst hr] at h
    cases h
  | false =>
    cases hp : s.phase with
    | idle => exact stepIdle_fault hr hp (stepBy_idle hr hp ▸ h)
    | payload => exact stepPayload_fault hr hp (stepBy_payload hr hp ▸ h)
    | execute => exact .executing hr hp (stepExecuteFor_fault (stepBy_execute hr hp ▸ h))
    | output => exact stepOutput_fault hr hp (stepBy_output hr hp ▸ h)
    | respond => exact stepRespond_fault hr hp (stepBy_respond hr hp ▸ h)

/-- Everything that a step can stop with in this build. -/
theorem step_fault (h : step s = .fault f) : Stop s f :=
  stepFor_fault (b := thisBuild) (by rwa [stepFor_thisBuild])

theorem not_isExecuteStop_of_isHostWait (h : f.IsHostWait) : ¬ f.IsExecuteStop := by
  rintro (rfl | rfl) <;> exact h

end

/-- Settles O43: the stops of a step name their phase and what the host withholds, and each wait happens there. -/
theorem engineWaitsOnlyForTheHost : Obligations.EngineWaitsOnlyForTheHost := by
  intro s
  refine ⟨⟨fun h => ?_, fun ⟨hr, hp, hc⟩ => ?_⟩, ⟨fun h => ?_, fun ⟨hr, hp, h0, hd⟩ => ?_⟩,
    ⟨fun h => ?_, fun ⟨hr, hp, h0, hd⟩ => ?_⟩, ⟨fun h => ?_, fun ⟨hr, hp, hq, hd⟩ => ?_⟩⟩
  · cases step_fault h with
    | awaitingCommand hr hp hc => exact ⟨hr, hp, hc⟩
    | executing hr hp hf => exact absurd hf (not_isExecuteStop_of_isHostWait trivial)
  · rw [step_idle hr hp, stepIdle, hc]
  · cases step_fault h with
    | awaitingPayload hr hp h0 hd => exact ⟨hr, hp, h0, hd⟩
    | executing hr hp hf => exact absurd hf (not_isExecuteStop_of_isHostWait trivial)
  · rw [step_payload hr hp, stepPayload, if_neg h0, hd]
  · cases step_fault h with
    | awaitingOutputTaken hr hp h0 hd => exact ⟨hr, hp, h0, hd⟩
    | executing hr hp hf => exact absurd hf (not_isExecuteStop_of_isHostWait trivial)
  · rw [step_output hr hp, stepOutput, if_neg h0, if_pos hd]
  · cases step_fault h with
    | awaitingResponseTaken hr hp hq hd => exact ⟨hr, hp, hq, hd⟩
    | executing hr hp hf => exact absurd hf (not_isExecuteStop_of_isHostWait trivial)
  · obtain ⟨r, hr'⟩ := Option.ne_none_iff_exists'.1 hq
    rw [step_respond hr hp, stepRespond, hr']
    exact if_pos hd

/-- Settles O31: each meaning checks the length of the payload that it needs. -/
theorem incompletePayloadStops : Obligations.IncompletePayloadStops := by
  intro s
  refine ⟨fun hr hp h0 => ?_, fun len hready hne => ?_, fun hready hne => ?_, fun len h0 hlen hne => ?_⟩
  · rw [step_execute hr hp, stepExecute, stepExecuteBy, if_pos h0]
  · have hitem : s.payloadItem len = none := if_neg hne
    have hr : ¬ s.arch.ready = false := by rw [hready]; decide
    constructor
    · show execInsertFor thisBuild len s = _
      rw [execInsertFor, if_neg hr, hitem]
    · show execQueryFor thisBuild len s = _
      rw [execQueryFor, if_neg hr, hitem]
  · have hdigest : s.payloadDigest = none := dif_neg hne
    have hr : ¬ s.arch.ready = false := by rw [hready]; decide
    constructor
    · show execInsertDigest s = _
      rw [execInsertDigest, if_neg hr, hdigest]
    · show execQueryDigest s = _
      rw [execQueryDigest, if_neg hr, hdigest]
  · have hok := (blobLenOk_iff_mem_legalSizes len).2 hlen
    have hblob : s.payloadBlob len = none := if_neg hne
    show execDecode len s = _
    rw [execDecode, if_neg h0, if_neg (by rw [hok]; decide), hblob]

end Sys2Proof.Machine
end

/-! ### The ports at a clock edge (R67) -/
section
namespace Sys2Proof.Machine

section
variable (s : State)

theorem State.cmdReady_iff : s.cmdReady = true ↔ s.rst = false ∧ s.phase = .idle := by
  simp [State.cmdReady]

theorem State.dinReadyAt_iff (moves : Bool) :
    s.dinReadyAt moves = true ↔ s.rst = false ∧ s.phase = .payload ∧ moves = true := by
  simp [State.dinReadyAt, and_assoc]

theorem State.doutValidAt_iff (moves : Bool) :
    s.doutValidAt moves = true ↔ s.rst = false ∧ s.phase = .output ∧ moves = true := by
  simp [State.doutValidAt, and_assoc]

theorem State.rspValid_iff :
    s.rspValid = true ↔ s.rst = false ∧ s.phase = .respond ∧ ∃ r, s.rspData = some r := by
  simp [State.rspValid, State.rspData, and_assoc, Option.isSome_iff_exists]

/-! Each channel is closed outside its phase (R67). -/

theorem State.cmdReady_of_phase {s : State} (h : s.phase ≠ .idle) : s.cmdReady = false :=
  Bool.eq_false_iff.2 fun hh => h (s.cmdReady_iff.1 hh).2

theorem State.dinReadyAt_of_phase {s : State} (moves : Bool) (h : s.phase ≠ .payload) : s.dinReadyAt moves = false :=
  Bool.eq_false_iff.2 fun hh => h ((s.dinReadyAt_iff moves).1 hh).2.1

theorem State.doutValidAt_of_phase {s : State} (moves : Bool) (h : s.phase ≠ .output) : s.doutValidAt moves = false :=
  Bool.eq_false_iff.2 fun hh => h ((s.doutValidAt_iff moves).1 hh).2.1

theorem State.rspValid_of_phase {s : State} (h : s.phase ≠ .respond) : s.rspValid = false :=
  Bool.eq_false_iff.2 fun hh => h (s.rspValid_iff.1 hh).2.1

end

/-- From `s` to `t` a transfer happens on each channel exactly where its `valid` and `ready` are 1 at the edge (R67). -/
structure Transfers (moves : Bool) (s t : State) : Prop where
  cmd : t.cmdIn = if s.cmdValid = true ∧ s.cmdReady = true then s.cmdIn.tail else s.cmdIn
  din : t.dinIn = if s.dinValid = true ∧ s.dinReadyAt moves = true then s.dinIn.tail else s.dinIn
  dout : t.doutSent =
    if s.doutValidAt moves = true ∧ s.doutReady = true then s.doutSent ++ [(s.doutData, s.doutLast)] else s.doutSent
  rsp : t.rspSent = if s.rspValid = true ∧ s.rspReady = true then s.rspSent ++ s.rspData.toList else s.rspSent

section
variable {moves : Bool} {s t : State}

/-- Nothing is transferred where all four channels are closed. -/
theorem Transfers.none (hc : s.cmdReady = false) (hd : s.dinReadyAt moves = false) (ho : s.doutValidAt moves = false)
    (hq : s.rspValid = false) (htc : t.cmdIn = s.cmdIn) (htd : t.dinIn = s.dinIn) (hto : t.doutSent = s.doutSent)
    (htq : t.rspSent = s.rspSent) : Transfers moves s t := by
  constructor
  · rw [htc, hc, if_neg fun h => nomatch h.2]
  · rw [htd, hd, if_neg fun h => nomatch h.2]
  · rw [hto, ho, if_neg fun h => nomatch h.1]
  · rw [htq, hq, if_neg fun h => nomatch h.1]

/-- EXECUTE transfers nothing (R68). -/
theorem transfers_of_execute (hp : s.phase = .execute) (htc : t.cmdIn = s.cmdIn) (htd : t.dinIn = s.dinIn)
    (hto : t.doutSent = s.doutSent) (htq : t.rspSent = s.rspSent) : Transfers moves s t :=
  .none (State.cmdReady_of_phase (by simp [hp])) (State.dinReadyAt_of_phase _ (by simp [hp]))
    (State.doutValidAt_of_phase _ (by simp [hp])) (State.rspValid_of_phase (by simp [hp])) htc htd hto htq

/-- A move transfers exactly where `valid` and `ready` are 1, at an edge that does not leave the engine busy (R67). -/
theorem Move.transfers (h : Move s t) (hs : s.PhaseLegal) (hm : s.rst = true ∨ s.mayBeBusy = false ∨ moves = true) :
    Transfers moves s t := by
  cases h with
  | reset hr ht =>
    subst ht
    exact .none (by simp [State.cmdReady, hr]) (by simp [State.dinReadyAt, hr]) (by simp [State.doutValidAt, hr])
      (by simp [State.rspValid, hr]) rfl rfl rfl rfl
  | accepted o rest hr hp hc ht =>
    subst ht
    constructor
    · simp [State.cmdValid, State.cmdReady, hr, hp, hc]
    · simp [State.dinReadyAt, hp]
    · simp [State.doutValidAt, hp]
    · simp [State.rspValid, hp]
  | payloadOver hr hp h0 ht =>
    obtain ⟨-, hne, -⟩ := (State.phaseLegal_payload hp).1 hs
    exact absurd h0 hne
  | byteTaken o rest hr hp h0 hd ht =>
    have hmoves : moves = true := by simpa [hr, hp, State.mayBeBusy] using hm
    subst ht
    constructor
    · simp [State.cmdReady, hp]
    · simp [State.dinValid, State.dinReadyAt, hr, hp, hd, hmoves]
    · simp [State.doutValidAt, hp]
    · simp [State.rspValid, hp]
  | executed i hr hp h0 hi he =>
    rw [he.frame]
    exact transfers_of_execute hp rfl rfl rfl rfl
  | rejected e hr hp h0 he ht =>
    subst ht
    exact transfers_of_execute hp rfl rfl rfl rfl
  | outputOver hr hp h0 ht =>
    obtain ⟨-, hpos, -⟩ := (State.phaseLegal_output hp).1 hs
    rw [h0] at hpos
    exact absurd hpos (by decide)
  | byteSent hr hp h0 hd ht =>
    have hmoves : moves = true := by simpa [hr, hp, State.mayBeBusy] using hm
    subst ht
    constructor
    · simp [State.cmdReady, hp]
    · simp [State.dinReadyAt, hp]
    · simp [State.doutValidAt, State.doutReady, hr, hp, hmoves, Nat.pos_of_ne_zero hd]
    · simp [State.rspValid, hp]
  | responded r hr hp hq hd ht =>
    subst ht
    constructor
    · simp [State.cmdReady, hp]
    · simp [State.dinReadyAt, hp]
    · simp [State.doutValidAt, hp]
    · simp [State.rspValid, State.rspReady, State.rspData, hr, hp, hq, Nat.pos_of_ne_zero hd]

/-- Everything that a clock edge can do when it answers `t`: a move of the engine, or nothing where the engine is busy (R68,
log 14). -/
theorem edgeFor_next {b : Config.Build} (h : edgeFor b moves s = .next t) :
    Move s t ∧ (s.rst = true ∨ s.mayBeBusy = false ∨ moves = true) ∨
      t = s ∧ s.mayBeBusy = true ∧ moves = false := by
  unfold edgeFor at h
  split at h
  · next hm => exact .inl ⟨stepFor_next h, by simpa [or_assoc] using hm⟩
  · next hm =>
    cases h
    obtain ⟨⟨-, hb⟩, hmoves⟩ : (s.rst = false ∧ s.mayBeBusy = true) ∧ moves = false := by simpa using hm
    exact .inr ⟨rfl, hb, hmoves⟩

/-- A busy edge transfers nothing (R67). -/
theorem transfers_of_busy (hb : s.mayBeBusy = true) : Transfers false s s := by
  have hidle : s.phase ≠ .idle := fun hp => by simp [State.mayBeBusy, hp] at hb
  have hrespond : s.phase ≠ .respond := fun hp => by simp [State.mayBeBusy, hp] at hb
  exact .none (State.cmdReady_of_phase hidle) s.dinReadyAt_false s.doutValidAt_false (State.rspValid_of_phase hrespond)
    rfl rfl rfl rfl

/-- A clock edge of a state with a legal controller transfers exactly where `valid` and `ready` are 1 (R67). -/
theorem edgeFor_transfers {b : Config.Build} (hs : s.PhaseLegal) (h : edgeFor b moves s = .next t) :
    Transfers moves s t := by
  obtain ⟨hmove, hm⟩ | ⟨rfl, hb, rfl⟩ := edgeFor_next h
  · exact hmove.transfers hs hm
  · exact transfers_of_busy hb

end

/-- Settles O45, by cases on what a clock edge can do, and on the ports as functions of PHASE. -/
theorem outputPortsFollowPhase : Obligations.OutputPortsFollowPhase := by
  refine ⟨fun b moves s t hs h => ?_, fun s moves => ⟨s.dinReadyAt_iff moves, s.doutValidAt_iff moves⟩, fun s =>
    ⟨s.cmdReady_iff, ?_, ?_, s.rspValid_iff, beq_iff_eq⟩⟩
  · obtain ⟨-, -, hphase⟩ := hs
    obtain ⟨hcmd, hdin, hdout, hrsp⟩ := edgeFor_transfers hphase h
    exact ⟨hcmd, hdin, hdout, hrsp⟩
  · simpa using s.dinReadyAt_iff true
  · simpa using s.doutValidAt_iff true

end Sys2Proof.Machine
end

/-! ### The fields of a command word as numbers (R100–R105), and its encoding -/
section
namespace Sys2Proof

/-- A slice of a word as a number (R105). -/
theorem slice_toNat (w : Word) (lo n : Nat) : (w.extractLsb' lo n).toNat = w.toNat / 2 ^ lo % 2 ^ n := by
  rw [BitVec.extractLsb'_toNat, Nat.shiftRight_eq_div_pow]

/-- An opcode in its place `w[31:28]` as a number (R100). -/
theorem opcode_shiftLeft_toNat (op : BitVec 4) : (op.setWidth 32 <<< 28).toNat = op.toNat * 2 ^ 28 := by
  have hop := op.isLt
  rw [BitVec.toNat_shiftLeft, BitVec.toNat_setWidth, Nat.shiftLeft_eq]
  omega

/-- A word is put together from its opcode and its 28 bits below (R100). -/
theorem opcode_or_eq {w x : Word} {op : BitVec 4} (hop : opField w = op) (hx : x.toNat = w.toNat % 2 ^ 28) :
    op.setWidth 32 <<< 28 ||| x = w := by
  have hw := w.isLt
  have hnum : op.toNat = w.toNat / 2 ^ 28 % 2 ^ 4 := by rw [← hop, opField, slice_toNat]
  apply BitVec.eq_of_toNat_eq
  rw [BitVec.toNat_or, opcode_shiftLeft_toNat, ← Nat.shiftLeft_eq, Nat.or_comm, Machine.or_shifted (by omega)]
  omega

/-- Format L: with the reserved field at 0 the 28 bits below the opcode are LEN (R103). -/
theorem ofNat_lenField {w : Word} (hr : rsvCL w = 0) : (BitVec.ofNat 32 (lenField w)).toNat = w.toNat % 2 ^ 28 := by
  have hlen := lenField_lt w
  rw [Laws.EncodingRoundTrip.toNat_of_lt _ (by omega)]
  rw [rsvCL, slice_toNat] at hr
  rw [lenField, slice_toNat]
  omega

/-- The operand bits of a command that reads from a word are the 28 bits below its opcode (R101–R104). -/
theorem Instr.ReadsFrom.operandBits {w : Word} {i : Instr} (h : i.ReadsFrom w) :
    i.operandBits.toNat = w.toNat % 2 ^ 28 := by
  have hZ : rsvZ w = 0 → (0 : Word).toNat = w.toNat % 2 ^ 28 := fun hr => by
    rw [rsvZ, slice_toNat, pow_zero, Nat.div_one] at hr
    exact hr.symm
  cases i with
  | nop => exact hZ h
  | construct sz kf =>
    obtain ⟨rfl, rfl, hr⟩ := h
    have hsz := szField_lt w
    have hkf := kfField_lt w
    rw [Instr.operandBits, Laws.EncodingRoundTrip.constructBits _ _ hsz hkf,
      Laws.EncodingRoundTrip.toNat_of_lt _ (by omega)]
    rw [rsvCL, slice_toNat] at hr
    rw [szField, kfField, slice_toNat, slice_toNat]
    omega
  | insert len => obtain ⟨rfl, hr⟩ := h; exact ofNat_lenField hr
  | query len => obtain ⟨rfl, hr⟩ := h; exact ofNat_lenField hr
  | insertDigest => exact hZ h
  | queryDigest => exact hZ h
  | encode => exact hZ h
  | decode len => obtain ⟨rfl, hr⟩ := h; exact ofNat_lenField hr
  | readReg sel =>
    obtain ⟨rfl, hr⟩ := h
    have hsel := selField_lt w
    rw [Instr.operandBits, Laws.EncodingRoundTrip.toNat_of_lt _ (by omega)]
    rw [rsvS, slice_toNat] at hr
    rw [selField, slice_toNat]
    omega

/-- Decoding the encoding of a well-formed command gives it back (R100–R106). -/
theorem decodeWord_encode {i : Instr} (h : i.wf = true) : decodeWord (encode i) = .ok i := by
  cases i with
  | nop => exact Laws.EncodingRoundTrip.nop h
  | construct sz kf => exact Laws.EncodingRoundTrip.construct sz kf h
  | insert len => exact Laws.EncodingRoundTrip.insert len h
  | query len => exact Laws.EncodingRoundTrip.query len h
  | insertDigest => exact Laws.EncodingRoundTrip.insertDigest h
  | queryDigest => exact Laws.EncodingRoundTrip.queryDigest h
  | encode => exact Laws.EncodingRoundTrip.encode h
  | decode len => exact Laws.EncodingRoundTrip.decode len h
  | readReg sel => exact Laws.EncodingRoundTrip.readReg sel h

/-- Settles O1, one round trip per constructor. -/
theorem encodeThenDecodeGivesTheCommand : Obligations.EncodeThenDecodeGivesTheCommand :=
  fun _ h => decodeWord_encode h

/-- Settles O2: the opcode and the operand bits of a decoded command are the word's. -/
theorem decodedWordIsItsEncoding : Obligations.DecodedWordIsItsEncoding := by
  intro w i h
  obtain ⟨hop, hwf, hreads⟩ := decodeWord_ok h
  exact ⟨opcode_or_eq hop hreads.operandBits, hwf⟩

/-- Settles O4, word by word. -/
theorem sampleWordsDecode : Obligations.SampleWordsDecode := by
  unfold Obligations.SampleWordsDecode
  decide

/-- Settles O5, by cases on the opcode. -/
theorem payloadLengthOfEveryWord : Obligations.PayloadLengthOfEveryWord := by
  intro w
  refine ⟨fun h => ?_, fun h => ?_, fun h => ?_⟩
  · have hop : opField w = 0x2 ∨ opField w = 0x3 ∨ opField w = 0x7 := by simpa [opField] using h
    rw [payloadLen, opNum]
    obtain hop | hop | hop := hop <;> (rw [hop]; rfl)
  · have hop : opField w = 0x4 ∨ opField w = 0x5 := by simpa [opField] using h
    rw [payloadLen, opNum]
    obtain hop | hop := hop <;> (rw [hop]; rfl)
  · have hne {n : Nat} (hn : opNum w = n) : BitVec.ofNat 4 n ∉ ([0x2, 0x3, 0x7, 0x4, 0x5] : List (BitVec 4)) :=
      opField_of_opNum hn ▸ h
    unfold payloadLen
    split
    case h_6 => rfl
    all_goals next hn => exact absurd (by decide) (hne hn)

end Sys2Proof
end

/-! ### The rows of the opcode table (R106), and the words that no row accepts (R109–R111) -/
section
open Sys2Proof.Spec

namespace Sys2Proof

/-- The lowest reserved bit of the command's format: `w[27:0]` of format Z, `w[27:24]` of formats C and L, `w[27:8]` of format
S (R101–R104). -/
def Instr.reservedLow : Instr → Nat
  | .nop => 0
  | .construct _ _ => 24
  | .insert _ => 24
  | .query _ => 24
  | .insertDigest => 0
  | .queryDigest => 0
  | .encode => 0
  | .decode _ => 24
  | .readReg _ => 8

/-- The reserved field of the command's format is 0 in the word (R101–R104). -/
def Instr.ReservedZero (i : Instr) (w : Word) : Prop := w.extractLsb' i.reservedLow (28 - i.reservedLow) = 0

/-- The command's row of the opcode table: its opcode, and every reserved bit at 0 (R106). -/
def Instr.row (i : Instr) : OpcodeRow :=
  ⟨i.mnemonic, i.opcode.setWidth 32 <<< 28, BitVec.allOnes 32 <<< i.reservedLow⟩

/-- One command of each row of the opcode table, in its order (R106). -/
def tableCommands : List Instr :=
  [.nop, .construct 0 0, .insert 0, .query 0, .insertDigest, .queryDigest, .encode, .decode 0, .readReg 0]

/-- The opcode table has the rows of the nine commands and no others (R106). -/
theorem opcodeTable_eq : opcodeTable = tableCommands.map Instr.row := by decide

theorem Instr.row_mem_opcodeTable (i : Instr) : i.row ∈ opcodeTable := by
  have hmem : ∀ j ∈ tableCommands, j.row ∈ opcodeTable := fun j hj => opcodeTable_eq ▸ List.mem_map_of_mem hj
  cases i with
  | nop => exact hmem .nop (by decide)
  | construct sz kf => exact hmem (.construct 0 0) (by decide)
  | insert len => exact hmem (.insert 0) (by decide)
  | query len => exact hmem (.query 0) (by decide)
  | insertDigest => exact hmem .insertDigest (by decide)
  | queryDigest => exact hmem .queryDigest (by decide)
  | encode => exact hmem .encode (by decide)
  | decode len => exact hmem (.decode 0) (by decide)
  | readReg sel => exact hmem (.readReg 0) (by decide)

theorem exists_row_of_mem {r : OpcodeRow} (h : r ∈ opcodeTable) : ∃ i : Instr, i.row = r := by
  rw [opcodeTable_eq, List.mem_map] at h
  exact h.imp fun _ => And.right

/-- Masking a word down to `w[31:lo]` gives an opcode alone iff it is the word's and `w[27:lo]` is 0, in each format. -/
theorem and_mask_eq_iff (w : Word) (op : BitVec 4) {lo : Nat} (hlo : lo = 0 ∨ lo = 8 ∨ lo = 24) :
    w &&& BitVec.allOnes 32 <<< lo = op.setWidth 32 <<< 28 ↔ opField w = op ∧ w.extractLsb' lo (28 - lo) = 0 := by
  have hw := w.isLt
  rw [← BitVec.shiftLeft_ushiftRight, ← BitVec.toNat_inj, ← BitVec.toNat_inj, ← BitVec.toNat_inj, opcode_shiftLeft_toNat,
    opField, slice_toNat, slice_toNat, BitVec.toNat_shiftLeft, BitVec.toNat_ushiftRight, Nat.shiftRight_eq_div_pow,
    Nat.shiftLeft_eq, BitVec.ofNat_eq_ofNat, BitVec.toNat_zero]
  obtain rfl | rfl | rfl := hlo <;> omega

/-- A row accepts the words with its command's opcode and no reserved bit of its format set (R106, R109). -/
theorem Instr.row_accepts_iff (i : Instr) (w : Word) :
    i.row.accepts w = true ↔ opField w = i.opcode ∧ i.ReservedZero w := by
  have hlow : i.reservedLow = 0 ∨ i.reservedLow = 8 ∨ i.reservedLow = 24 := by cases i <;> simp [Instr.reservedLow]
  rw [OpcodeRow.accepts, beq_iff_eq]
  exact and_mask_eq_iff w i.opcode hlow

/-- A decoded word has the reserved field of its command at 0 (R109). -/
theorem Instr.ReadsFrom.reservedZero {w : Word} {i : Instr} (h : i.ReadsFrom w) : i.ReservedZero w := by
  apply BitVec.eq_of_toNat_eq
  cases i with
  | nop => exact h
  | construct sz kf => obtain ⟨-, -, hr⟩ := h; exact hr
  | insert len => obtain ⟨-, hr⟩ := h; exact hr
  | query len => obtain ⟨-, hr⟩ := h; exact hr
  | insertDigest => exact h
  | queryDigest => exact h
  | encode => exact h
  | decode len => obtain ⟨-, hr⟩ := h; exact hr
  | readReg sel => obtain ⟨-, hr⟩ := h; exact hr

/-- A word with a command's opcode and its reserved field at 0 decodes, to a command of the same row (R106). -/
theorem exists_decodeWord_ok {w : Word} {i : Instr} (hop : opField w = i.opcode) (hr : i.ReservedZero w) :
    ∃ j, decodeWord w = .ok j ∧ j.row = i.row := by
  have hr := congrArg BitVec.toNat hr
  have hn : opNum w = i.opcode.toNat := congrArg BitVec.toNat hop
  rw [decodeWord, hn]
  cases i <;> exact ⟨_, if_pos hr, rfl⟩

/-- The opcodes below 9 are the commands' (R106, R110). -/
theorem opNum_lt_nine_iff (w : Word) : opNum w < 9 ↔ ∃ i : Instr, opField w = i.opcode := by
  constructor
  · have hops : ∀ op : BitVec 4, op.toNat < 9 → op ∈ tableCommands.map Instr.opcode := by decide
    intro h
    obtain ⟨i, -, hi⟩ := List.mem_map.1 (hops (opField w) h)
    exact ⟨i, hi.symm⟩
  · rintro ⟨i, hi⟩
    rw [opNum, hi]
    cases i <;> simp [Instr.opcode]

/-- The reserved bits of a word with a command's opcode, by the command's format (R101–R104). -/
theorem reservedSet_eq_false_iff {w : Word} {i : Instr} (hop : opField w = i.opcode) :
    reservedSet w = false ↔ i.ReservedZero w := by
  have hop : w.extractLsb' 28 4 = i.opcode := hop
  rw [reservedSet, hop]
  cases i <;> exact bne_eq_false_iff_eq

/-- A word with an undefined opcode has no reserved bits (R110). -/
theorem reservedSet_of_undefined {w : Word} (h : 9 ≤ opNum w) : reservedSet w = false := by
  have hops : ∀ op : BitVec 4, 9 ≤ op.toNat →
      op ∉ ([0x0, 0x4, 0x5, 0x6] : List (BitVec 4)) ∧ op ∉ ([0x1, 0x2, 0x3, 0x7] : List (BitVec 4)) ∧ op ≠ 0x8 := by decide
  obtain ⟨hZ, hCL, hS⟩ := hops _ h
  exact (if_neg hZ).trans ((if_neg hCL).trans (if_neg hS))

/-- The opcodes from 9 on are rejected by their number alone (R110). -/
theorem decodeWord_undefinedOpcode_iff (w : Word) : decodeWord w = .error .undefinedOpcode ↔ 9 ≤ opNum w := by
  constructor
  · intro h
    obtain ⟨-, h9⟩ | ⟨he, -⟩ := decodeWord_error h
    · exact h9
    · cases he
  · intro h9
    cases h : decodeWord w with
    | ok i => exact absurd ((opNum_lt_nine_iff w).2 ⟨i, (decodeWord_ok h).1⟩) (by omega)
    | error e =>
      obtain ⟨rfl, -⟩ | ⟨-, hlt⟩ := decodeWord_error h
      · rfl
      · omega

/-- The words of a defined opcode that are no command are those with a reserved bit of its format set (R109). -/
theorem decodeWord_reservedBits_iff (w : Word) : decodeWord w = .error .reservedBits ↔ reservedSet w = true := by
  constructor
  · intro h
    obtain ⟨he, -⟩ | ⟨-, hlt⟩ := decodeWord_error h
    · cases he
    obtain ⟨i, hi⟩ := (opNum_lt_nine_iff w).1 hlt
    rw [← Bool.not_eq_false, reservedSet_eq_false_iff hi]
    intro h0
    obtain ⟨j, hj, -⟩ := exists_decodeWord_ok hi h0
    cases hj.symm.trans h
  · intro hr
    cases h : decodeWord w with
    | ok i =>
      obtain ⟨hop, -, hreads⟩ := decodeWord_ok h
      cases hr.symm.trans ((reservedSet_eq_false_iff hop).2 hreads.reservedZero)
    | error e =>
      obtain ⟨-, h9⟩ | ⟨rfl, -⟩ := decodeWord_error h
      · cases hr.symm.trans (reservedSet_of_undefined h9)
      · rfl

/-- The row that accepts a word is that of the command the word decodes to (R106). -/
theorem accepts_iff_decodes {r : OpcodeRow} (h : r ∈ opcodeTable) (w : Word) :
    r.accepts w = true ↔ ∃ i, decodeWord w = .ok i ∧ i.row = r := by
  obtain ⟨i, rfl⟩ := exists_row_of_mem h
  constructor
  · intro ha
    obtain ⟨hop, hr⟩ := (i.row_accepts_iff w).1 ha
    exact exists_decodeWord_ok hop hr
  · rintro ⟨j, hj, hrow⟩
    obtain ⟨hop, -, hreads⟩ := decodeWord_ok hj
    rw [← hrow]
    exact (j.row_accepts_iff w).2 ⟨hop, hreads.reservedZero⟩

/-- Settles O3: a row accepts a word exactly when the word decodes to the row's command. -/
theorem everyWordIsCommandOrNamedReject : Obligations.EveryWordIsCommandOrNamedReject := by
  intro w
  refine ⟨fun i hi => ⟨i.row, i.row_mem_opcodeTable, ?_, rfl, fun r hr ha => ?_⟩, decodeWord_undefinedOpcode_iff w,
    ⟨fun h => ⟨?_, (decodeWord_reservedBits_iff w).1 h⟩, fun ⟨_, hr⟩ => (decodeWord_reservedBits_iff w).2 hr⟩,
    fun e he r hr => ?_⟩
  · exact (accepts_iff_decodes i.row_mem_opcodeTable w).2 ⟨i, hi, rfl⟩
  · obtain ⟨j, hj, rfl⟩ := (accepts_iff_decodes hr w).1 ha
    cases hi.symm.trans hj
    rfl
  · obtain ⟨he, -⟩ | ⟨-, hlt⟩ := decodeWord_error h
    · cases he
    · exact hlt
  · rw [Bool.eq_false_iff, Ne, accepts_iff_decodes hr w]
    rintro ⟨i, hi, -⟩
    cases hi.symm.trans he

end Sys2Proof
end

/-! ### Assembled lines (R107, R116) and the response word (R113) -/
section
namespace Sys2Proof.Machine

/-- What a command assembles to is a word that decodes to it, with the given payload (R116). -/
theorem assembleInstr_eq_some {i : Instr} {payload : List Byte} {c : HostCommand} (h : assembleInstr i payload = some c) :
    decodeWord c.word = .ok i ∧ c.payload = payload ∧ payloadLen c.word = i.payload := by
  obtain ⟨hwf, hc⟩ := Option.ite_none_right_eq_some.1 h
  cases hc
  have hdec := decodeWord_encode hwf
  exact ⟨hdec, rfl, payloadLen_of_ok hdec⟩

/-- A digest form assembles only with 32 bytes (R116). -/
theorem assembleDigest_eq_some {i : Instr} {payload : List Byte} {c : HostCommand} (h : assembleDigest i payload = some c) :
    payload.length = 32 ∧ assembleInstr i payload = some c :=
  Option.ite_none_right_eq_some.1 h

/-- Settles O7, by cases on the line: each mnemonic assembles its one command. -/
theorem assembledLineIsOneFramedCommand : Obligations.AssembledLineIsOneFramedCommand := by
  intro l c h
  cases l with
  | nop => obtain ⟨hdec, hp, -⟩ := assembleInstr_eq_some h; exact ⟨hdec, hp⟩
  | construct size k => obtain ⟨hdec, hp, -⟩ := assembleInstr_eq_some h; exact ⟨hdec, hp⟩
  | insert bytes => obtain ⟨hdec, hp, hlen⟩ := assembleInstr_eq_some h; exact ⟨hdec, hp, hlen.symm⟩
  | query bytes => obtain ⟨hdec, hp, hlen⟩ := assembleInstr_eq_some h; exact ⟨hdec, hp, hlen.symm⟩
  | insertDigest bytes =>
    obtain ⟨h32, h⟩ := assembleDigest_eq_some h
    obtain ⟨hdec, hp, hlen⟩ := assembleInstr_eq_some h
    exact ⟨hdec, hp, h32.trans hlen.symm⟩
  | queryDigest bytes =>
    obtain ⟨h32, h⟩ := assembleDigest_eq_some h
    obtain ⟨hdec, hp, hlen⟩ := assembleInstr_eq_some h
    exact ⟨hdec, hp, h32.trans hlen.symm⟩
  | encode => obtain ⟨hdec, hp, -⟩ := assembleInstr_eq_some h; exact ⟨hdec, hp⟩
  | decode bytes => obtain ⟨hdec, hp, hlen⟩ := assembleInstr_eq_some h; exact ⟨hdec, hp, hlen.symm⟩
  | readReg sel => obtain ⟨hdec, hp, -⟩ := assembleInstr_eq_some h; exact ⟨hdec, hp⟩
  | cmd word bytes =>
    obtain ⟨hlt, hc⟩ := Option.ite_none_right_eq_some.1 h
    cases hc
    exact ⟨by rw [BitVec.toNat_ofNat, Nat.mod_eq_of_lt hlt], rfl⟩

/-- Settles O6, field by field. -/
theorem responseWordFields : Obligations.ResponseWordFields :=
  fun _ _ _ _ _ =>
    ⟨responseWord_code .., responseWord_detail .., responseWord_result .., responseWord_bits9to11 .., responseWord_op ..,
      responseWord_bits16to31 .., responseWord_value ..⟩

end Sys2Proof.Machine
end

/-! ### Words that are no command (R109, R110, R252, R253) -/
section
open Sys2Proof.Spec

namespace Sys2Proof.Machine

/-- The error that a rejection of the decoder reports (R252, R253). -/
def rejection : DecodeError → CommandError
  | .undefinedOpcode => .undefinedOpcode
  | .reservedBits => .reservedBits

/-- The response of an error as a number: OP, DETAIL and CODE (R113). -/
theorem responseWord_error_eq (op : BitVec 4) (e : CommandError) :
    responseWord op e.code e.detail false 0 =
      BitVec.ofNat 64 (op.toNat * 2 ^ 12 + (e.detail.toNat * 16 + e.code.toNat)) := by
  have hop := op.isLt
  have hcode := e.code.isLt
  have hdetail := e.detail.isLt
  apply BitVec.eq_of_toNat_eq
  rw [responseWord_toNat, BitVec.toNat_ofNat, Nat.mod_eq_of_lt (by omega), Bool.toNat_false, BitVec.ofNat_eq_ofNat,
    BitVec.toNat_zero]
  omega

/-- EXECUTE of a word that is no command is its rejection (R252, R253). -/
theorem stepBy_of_error {run : Instr → State → Host.Outcome State Fault Refusal} {s : State} {e : DecodeError}
    (hr : s.rst = false) (hp : s.phase = .execute) (h0 : s.remain = 0) (he : decodeWord s.curCmd = .error e) :
    stepBy run s = raise (opField s.curCmd) (rejection e) s := by
  rw [stepBy_execute hr hp, stepExecuteBy, if_neg (not_not_intro h0), he]
  cases e <;> rfl

/-- A word that is no command is only answered, with its rejection (R109, R110): from IDLE to EXECUTE with the whole payload
taken, then the rejection, then the response. -/
theorem onlyAnswered_of_error {w : Word} {payload : List Byte} {e : DecodeError} (he : decodeWord w = .error e)
    (hlen : payload.length = payloadLen w) :
    OnlyAnswered w payload ((w.extractLsb' 28 4).toNat * 2 ^ 12 +
      ((rejection e).detail.toNat * 16 + (rejection e).code.toNat)) := by
  intro s words bytes hr hp hc hd hq
  have hload := run_loaded (run := exec) 2 hr hp hc hd hlen
  have hreject := stepBy_of_error (run := exec) (s := s.loaded w payload words bytes) hr rfl rfl he
  have hrespond := stepBy_of_respond (run := exec) (s := (s.loaded w payload words bytes).respond
    (responseWord (opField w) (rejection e).code (rejection e).detail false 0)) hr rfl rfl hq
  refine ⟨_, hload.trans ((run_of_stepBy 1 hreject).trans (run_of_stepBy 0 hrespond)), rfl, rfl, rfl, rfl, rfl, ?_⟩
  rw [← opField, ← responseWord_error_eq]
  rfl

/-- Settles O32: the payload length is 0, and the decoder rejects the word. -/
theorem undefinedOpcodeIsRejected : Obligations.UndefinedOpcodeIsRejected := by
  intro w h9
  have hops : ∀ op : BitVec 4, 9 ≤ op.toNat → op ∉ ([0x2, 0x3, 0x7, 0x4, 0x5] : List (BitVec 4)) := by decide
  obtain ⟨-, -, hnone⟩ := payloadLengthOfEveryWord w
  have hlen := hnone (hops _ h9)
  exact ⟨hlen, onlyAnswered_of_error ((decodeWord_undefinedOpcode_iff w).2 h9) hlen.symm⟩

/-- Settles O33: the decoder rejects the word, whatever its payload is. -/
theorem reservedBitsAreRejected : Obligations.ReservedBitsAreRejected :=
  fun w _ hr hlen => onlyAnswered_of_error ((decodeWord_reservedBits_iff w).2 hr) hlen

end Sys2Proof.Machine
end

/-! ### EXECUTE answers in every reachable state (R111, R287) -/
section
namespace Sys2Proof.Machine

section
variable {s : State} {b : Config.Build}

/-- A command whose payload has been taken as R233 and R35 say carries out an effect (R71). -/
theorem performs_of_payloadTaken {i : Instr} (h : decodeWord s.curCmd = .ok i) (hl : s.arch.Legal)
    (ht : s.PayloadTaken (payloadLen s.curCmd)) : ∃ o, Performs s o (execFor b i s) := by
  obtain ⟨hacc, hstage⟩ := ht
  rw [payloadLen_of_ok h, opNum_of_ok h] at hacc hstage
  cases i with
  | nop => exact ⟨_, performs_nop (b := b) (payload := []) h⟩
  | construct sz kf => exact ⟨_, performs_construct (b := b) (payload := []) h⟩
  | insert len => exact ⟨_, performs_insert h hl rfl (hacc (show 2 ∈ [2, 3, 4, 5] by decide))⟩
  | query len => exact ⟨_, performs_query h hl rfl (hacc (show 3 ∈ [2, 3, 4, 5] by decide))⟩
  | insertDigest => exact ⟨_, performs_insertDigest (b := b) h hl rfl (hacc (by decide))⟩
  | queryDigest => exact ⟨_, performs_queryDigest (b := b) h hl rfl (hacc (by decide))⟩
  | encode => exact ⟨_, performs_encode (b := b) (payload := []) h⟩
  | decode len =>
    by_cases hok : blobLenOk len = true
    · exact ⟨_, performs_decode (b := b) h (fun _ => rfl) ((hstage rfl).trans (if_pos hok))⟩
    · exact ⟨_, performs_decode (b := b) (payload := List.replicate len 0) h (fun h => absurd h hok) List.length_replicate⟩
  | readReg sel => exact ⟨_, performs_readReg (b := b) (payload := []) h⟩

/-- EXECUTE under the invariant carries out an effect of every word (R71, R111). -/
theorem State.Inv.performs (hs : s.Inv) (hp : s.phase = .execute) : ∃ o, Performs s o (stepExecuteBy (execFor b) s) := by
  obtain ⟨hl, -, hphase⟩ := hs
  obtain ⟨-, h0, ht⟩ := (State.phaseLegal_execute hp).1 hphase
  rw [stepExecuteBy, if_neg (not_not_intro h0)]
  cases h : decodeWord s.curCmd with
  | ok i => exact performs_of_payloadTaken h hl ht
  | error e => exact ⟨_, performs_rejectWord (b := b) (payload := []) h⟩

/-- What carries out an effect answers a next state, in RESPOND or in OUTPUT, of the same command. -/
theorem Performs.next {o : Option CommandEffect} {x : Host.Outcome State Fault Refusal} (h : Performs s o x) :
    ∃ t, x = .next t ∧ t.curCmd = s.curCmd ∧ (t.phase = .respond ∨ t.phase = .output) := by
  cases h with
  | answers a r => exact ⟨_, rfl, rfl, .inl rfl⟩
  | emits r => exact ⟨_, rfl, rfl, .inr rfl⟩

end

/-- Settles O36: EXECUTE carries out an effect, and the step keeps the invariant, which holds a legal response. -/
theorem executeAlwaysHoldsAResponse : Obligations.ExecuteAlwaysHoldsAResponse := by
  intro s hs hr hp
  obtain ⟨o, ho⟩ := hs.performs (b := thisBuild) hp
  obtain ⟨t, ht, hcmd, hphase⟩ := ho.next
  have hstep : step s = .next t := by rw [step_execute hr hp, stepExecute, ← execFor_thisBuild, ht]
  obtain ⟨-, -, hlegal⟩ := (step_next hstep).inv hs
  have hrsp : ∃ r, t.pendingRsp = some r ∧ LegalResponse t.curCmd r := by
    obtain hph | hph := hphase
    · exact (State.phaseLegal_respond hph).1 hlegal
    · obtain ⟨-, -, -, hrsp⟩ := (State.phaseLegal_output hph).1 hlegal
      exact hrsp
  obtain ⟨r, hq, hlr⟩ := hrsp
  exact ⟨t, r, hstep, hq, hcmd ▸ hlr, hphase⟩

end Sys2Proof.Machine
end

/-! ### Every stop is a wait for the host (R77, R142, R287) -/
section
namespace Sys2Proof.Machine

section
variable {s : State}

theorem stepIdle_ne_refused {r : Refusal} : stepIdle s ≠ .refused r := by
  unfold stepIdle
  split <;> exact nofun

theorem stepPayload_ne_refused {r : Refusal} : stepPayload s ≠ .refused r := by
  unfold stepPayload
  split
  · exact nofun
  · split <;> exact nofun

theorem stepOutput_ne_refused {r : Refusal} : stepOutput s ≠ .refused r := by
  unfold stepOutput
  split_ifs <;> exact nofun

theorem stepRespond_ne_refused {r : Refusal} : stepRespond s ≠ .refused r := by
  unfold stepRespond
  split
  · exact nofun
  · split <;> exact nofun

/-- Under the invariant EXECUTE answers a next state (R111, R287). -/
theorem State.Inv.step_execute (hs : s.Inv) (hr : s.rst = false) (hp : s.phase = .execute) : ∃ t, step s = .next t := by
  obtain ⟨t, -, ht, -⟩ := executeAlwaysHoldsAResponse s hs hr hp
  exact ⟨t, ht⟩

/-- Under the invariant nothing is refused (R111). -/
theorem State.Inv.step_ne_refused {r : Refusal} (hs : s.Inv) : step s ≠ .refused r := by
  cases hr : s.rst with
  | true =>
    rw [step_of_rst hr]
    exact nofun
  | false =>
    cases hp : s.phase with
    | idle => exact step_idle hr hp ▸ stepIdle_ne_refused
    | payload => exact step_payload hr hp ▸ stepPayload_ne_refused
    | execute =>
      obtain ⟨t, ht⟩ := hs.step_execute hr hp
      rw [ht]
      exact nofun
    | output => exact step_output hr hp ▸ stepOutput_ne_refused
    | respond => exact step_respond hr hp ▸ stepRespond_ne_refused

/-- Under the invariant a step stops only to wait for the host: EXECUTE does not stop, and RESPOND holds a response. -/
theorem State.Inv.isHostWait_of_step_fault {f : Fault} (hs : s.Inv) (h : step s = .fault f) : f.IsHostWait := by
  cases step_fault h with
  | awaitingCommand | awaitingPayload | awaitingOutputTaken | awaitingResponseTaken => trivial
  | executing hr hp =>
    obtain ⟨t, ht⟩ := hs.step_execute hr hp
    cases ht.symm.trans h
  | noPendingResponse hr hp hq =>
    obtain ⟨-, -, hphase⟩ := hs
    obtain ⟨r, hrsp, -⟩ := (State.phaseLegal_respond hp).1 hphase
    cases hq.symm.trans hrsp

end

/-- Settles O50, by cases on what a step can answer. -/
theorem noStopButHostWaits : Obligations.NoStopButHostWaits := by
  intro s hs
  cases h : step s with
  | next t => exact .inl ⟨t, rfl⟩
  | fault f => exact .inr ⟨f, rfl, hs.isHostWait_of_step_fault h⟩
  | refused r => exact absurd h hs.step_ne_refused

end Sys2Proof.Machine
end

/-! ### The primitives of the bit store (R140–R146) -/
section
namespace Sys2Proof.Machine

/-- Bit `n` of the filter as a quotient: `(STORE[n div 8] >> (n mod 8)) AND 1` (R140). -/
theorem Arch.bit_eq_decide_div_mod (a : Arch) (n : Nat) :
    a.bit n = decide ((a.store.read (n / 8)).toNat / 2 ^ (n % 8) % 2 = 1) :=
  Nat.testBit_eq_decide_div_mod_eq

/-- Settles O8: both primitives answer exactly inside the store. -/
theorem bitReadInsideAndOutside : Obligations.BitReadInsideAndOutside := by
  intro a n
  refine ⟨fun hn => ?_, fun hn => ?_⟩
  · rw [Arch.bitRead_eq, if_pos hn, Arch.bit_eq_decide_div_mod]
  · have hout : ¬ n < a.sizeBytes.toNat * 8 := Nat.not_lt.2 hn
    rw [Arch.bitRead_eq, Arch.bitSet_eq, if_neg hout, if_neg hout]
    exact ⟨rfl, rfl⟩

/-- Settles O9, from what BitSet does to every bit. -/
theorem bitSetChangesOneBit : Obligations.BitSetChangesOneBit := by
  intro a n ha hn
  obtain ⟨m, hm, hok, hbit⟩ := a.bitSet_spec ha hn
  refine ⟨m, hm, hok, ?_, fun i hi => ?_⟩
  · rw [hbit, decide_eq_true rfl, Bool.or_true]
  · rw [hbit, decide_eq_false hi.symm, Bool.or_false]

/-- Byte `j` of the store after BitSet: the mask is merged in where the address lies in byte `j` (R141). -/
theorem Arch.read_of_bitSet {a b : Arch} (ha : a.StoreOk) {n : Nat} (h : a.bitSet n = some b) (j : Nat) :
    b.store.read j = if n / 8 = j then a.store.read j ||| (1 : Byte) <<< (n % 8) else a.store.read j := by
  rw [Arch.bitSet_eq] at h
  split at h
  · cases h
    rw [Memory.read_write ha.1]
    split
    · next hj => rw [hj]
    · rfl
  · cases h

/-- The byte `b` at address `j` with the masks of the addresses of `ns` that lie in it merged in, in the order of `ns` (R143). -/
def mergedByte (j : Nat) (ns : List Nat) (b : Byte) : Byte :=
  ((ns.filter fun n => n / 8 = j).map fun n => (1 : Byte) <<< (n % 8)).foldl (· ||| ·) b

theorem mergedByte_cons (j n : Nat) (ns : List Nat) (b : Byte) :
    mergedByte j (n :: ns) b = mergedByte j ns (if n / 8 = j then b ||| (1 : Byte) <<< (n % 8) else b) := by
  by_cases h : n / 8 = j <;> simp [mergedByte, h]

/-- Several sets, byte by byte (R143). -/
theorem Arch.read_of_setBits {ns : List Nat} {a b : Arch} (ha : a.StoreOk) (hn : ∀ n ∈ ns, n < a.sizeBytes.toNat * 8)
    (h : a.setBits ns = some b) (j : Nat) : b.store.read j = mergedByte j ns (a.store.read j) := by
  induction ns generalizing a with
  | nil => cases h; rfl
  | cons n ns ih =>
    obtain ⟨hhd, htl⟩ := List.forall_mem_cons.1 hn
    obtain ⟨m, hm, hok, -⟩ := a.bitSet_spec ha hhd
    rw [Arch.setBits, hm] at h
    rw [ih hok htl h, Arch.read_of_bitSet ha hm, mergedByte_cons]

/-- Several sets give the same filter in any order: the bits that they set are those of the list's members (R143). -/
theorem Arch.setBits_perm {ns ms : List Nat} (hp : ms.Perm ns) {a : Arch} (ha : a.StoreOk)
    (hn : ∀ n ∈ ns, n < a.sizeBytes.toNat * 8) : a.setBits ms = a.setBits ns := by
  obtain ⟨m, hm, hok, hbit⟩ := Arch.setBits_spec ns a ha hn
  obtain ⟨m', hm', hok', hbit'⟩ := Arch.setBits_spec ms a ha fun n h => hn n (hp.mem_iff.1 h)
  have hstore : m' = m := Arch.store_ext hok' hok fun i => by
    rw [hbit, hbit', decide_eq_decide.2 hp.mem_iff]
  rw [hm, hm', hstore]

/-- Settles O10: byte by byte by induction on the addresses, and in any order because the same bits are set. -/
theorem severalSetsMergeByOr : Obligations.SeveralSetsMergeByOr := by
  intro a ns ha hn
  obtain ⟨m, hm, -⟩ := Arch.setBits_spec ns a ha hn
  exact ⟨m, hm, Arch.read_of_setBits ha hn hm, fun ms hp => (Arch.setBits_perm hp ha hn).trans hm⟩

/-- Settles O11, from the laws of a write to the store's bytes. -/
theorem memWriteThenMemRead : Obligations.MemWriteThenMemRead := by
  intro a j v ha hj
  obtain ⟨hwf, hbound⟩ := ha
  refine ⟨{ a with store := a.store.write j v }, if_pos hj,
    ⟨Memory.wf_write hwf j v, Memory.bound_write hbound hj⟩, ?_, fun i hi => ?_, rfl, rfl, rfl⟩
  · rw [Arch.memRead, if_pos hj, Memory.read_write hwf, if_pos rfl]
  · rw [Arch.memRead, Memory.read_write hwf, if_neg hi.symm, Arch.memRead]

/-- A byte count up to 8192 fits SIZE_BYTES (R22). -/
theorem Arch.replaced_sizeBytes_toNat {n : Nat} (h : n ≤ 8192) (k : Nat) (m : Memory) :
    (Arch.replaced n k m).sizeBytes.toNat = n := by
  rw [Arch.replaced_sizeBytes, BitVec.toNat_ofNat, Nat.mod_eq_of_lt (by omega)]

/-- Settles O12, from the laws of `StoreReplace` at the store's full length. -/
theorem storeReplaceHoldsEveryByte : Obligations.StoreReplaceHoldsEveryByte := by
  intro bs k hlen
  have hsize := Arch.replaced_sizeBytes_toNat hlen k (Memory.ofBytes bs)
  refine ⟨⟨Memory.wf_ofBytes bs, ?_⟩, fun j => ?_⟩
  · rw [hsize]
    exact Memory.bound_ofBytes bs
  · rw [Arch.memRead, hsize, Arch.replaced_store, Memory.read_ofBytes]
    split
    · next hj => rw [List.getD_eq_getElem _ _ hj, List.getElem?_eq_getElem hj]
    · next hj => rw [List.getElem?_eq_none (Nat.not_lt.1 hj)]

end Sys2Proof.Machine
end

/-! ### The candidates as bytes and as slices of the 256-bit number (R162) -/
section
namespace Sys2Proof.Machine

/-- The number that a byte sequence spells, most significant byte first: `DW` of a digest (R162). -/
def bigEndian (bs : List Byte) : Nat := bs.foldl (fun n b => n * 256 + b.toNat) 0

/-- The big-endian number has the bytes, last first, as its digits in base 256. -/
theorem bigEndian_eq_ofDigits (bs : List Byte) : bigEndian bs = Nat.ofDigits 256 (bs.reverse.map BitVec.toNat) := by
  rw [bigEndian, Nat.ofDigits_eq_foldr, List.foldr_map, List.foldr_reverse]
  simp only [Nat.cast_id, Nat.add_comm, Nat.mul_comm]

/-- Without its last bytes, a big-endian number is the quotient by their weight. -/
theorem bigEndian_append_div (xs ys : List Byte) : bigEndian (xs ++ ys) / 256 ^ ys.length = bigEndian xs := by
  rw [bigEndian_eq_ofDigits, bigEndian_eq_ofDigits, Nat.ofDigits_div_pow_eq_ofDigits_drop _ (by decide),
    List.reverse_append, List.map_append, List.drop_left' (by rw [List.length_map, List.length_reverse])]
  intro n hn
  obtain ⟨b, -, rfl⟩ := List.mem_map.1 hn
  exact b.isLt

/-- The last two bytes of a big-endian number are its residue modulo 2^16. -/
theorem bigEndian_pair_mod (xs : List Byte) (b c : Byte) :
    bigEndian (xs ++ [b, c]) % 2 ^ 16 = b.toNat * 256 + c.toNat := by
  have hb := b.isLt
  have hc := c.isLt
  rw [bigEndian, List.foldl_append, List.foldl_cons, List.foldl_cons, List.foldl_nil]
  omega

/-- The bytes `j` and `j + 1` are the 16-bit slice of the big-endian number above the bytes that follow them. -/
theorem bigEndian_slice (bs : List Byte) {j : Nat} (h : j + 1 < bs.length) :
    bigEndian bs / 256 ^ (bs.length - (j + 2)) % 2 ^ 16 = bs[j].toNat * 256 + bs[j + 1].toNat := by
  have htake : bs.take (j + 2) = bs.take j ++ [bs[j], bs[j + 1]] := by
    rw [List.take_succ_eq_append_getElem h, List.take_succ_eq_append_getElem (by omega), List.append_assoc,
      List.singleton_append]
  calc bigEndian bs / 256 ^ (bs.length - (j + 2)) % 2 ^ 16
      = bigEndian (bs.take (j + 2) ++ bs.drop (j + 2)) / 256 ^ (bs.drop (j + 2)).length % 2 ^ 16 := by
        rw [List.take_append_drop, List.length_drop]
    _ = bs[j].toNat * 256 + bs[j + 1].toNat := by rw [bigEndian_append_div, htake, bigEndian_pair_mod]

/-- A candidate as a number: the big-endian pair of its two digest bytes (R162). -/
theorem candidate_toNat (d : Digest) (i : Fin 16) : (candidate d i).toNat =
    (d.toList.getD (2 * i.val) 0).toNat * 256 + (d.toList.getD (2 * i.val + 1) 0).toNat := by
  have hi := i.isLt
  have hlen : d.toList.length = 32 := d.length_toList
  rw [List.getD_eq_getElem _ _ (by omega), List.getD_eq_getElem _ _ (by omega), Vector.getElem_toList, Vector.getElem_toList,
    candidate]
  generalize d[2 * i.val] = b, d[2 * i.val + 1] = c
  have hb := b.isLt
  have hc := c.isLt
  rw [BitVec.toNat_or, BitVec.toNat_shiftLeft, BitVec.toNat_setWidth, BitVec.toNat_setWidth, Nat.shiftLeft_eq,
    Nat.mod_eq_of_lt (by omega : b.toNat < 2 ^ 16), Nat.mod_eq_of_lt (by omega : c.toNat < 2 ^ 16),
    Nat.mod_eq_of_lt (by omega : b.toNat * 2 ^ 8 < 2 ^ 16), Nat.mul_comm, ← Nat.two_pow_add_eq_or_of_lt hc, Nat.mul_comm]

/-- Settles O13: the pair of bytes, and the slice of `DW` that any two neighbouring bytes are. -/
theorem candidatesAreBigEndianSlices : Obligations.CandidatesAreBigEndianSlices := by
  intro d i
  have hi := i.isLt
  have hlen : d.toList.length = 32 := d.length_toList
  have hpow : 256 ^ (d.toList.length - (2 * i.val + 2)) = 2 ^ (240 - 16 * i.val) := by
    rw [show 256 = 2 ^ 8 from rfl, ← Nat.pow_mul]
    congr 1
    omega
  refine ⟨candidate_toNat d i, ?_⟩
  rw [candidate_toNat, List.getD_eq_getElem _ _ (by omega), List.getD_eq_getElem _ _ (by omega), ← hpow]
  exact (bigEndian_slice d.toList (by omega)).symm

end Sys2Proof.Machine
end

/-! ### The masked indices, the derived list and the disabled lanes (R163–R165) -/
section
open Sys2Proof.Spec

namespace Sys2Proof.Machine

/-- A legal size in bits is a power of two up to 2^16 (R22, R163). -/
theorem exists_bits_eq_two_pow {n : Nat} (h : n ∈ legalSizes) : ∃ e, n * 8 = 2 ^ e ∧ n * 8 ≤ 2 ^ 16 := by
  obtain ⟨hp, hle⟩ := (mem_legalSizes_iff n).1 h
  obtain ⟨e, rfl⟩ := (pow2_iff n).1 hp
  exact ⟨e + 3, (Nat.pow_add 2 e 3).symm, by omega⟩

/-- Settles O14: masking with a power of two less one is the residue. -/
theorem maskedIndexIsCandidateModuloSize : Obligations.MaskedIndexIsCandidateModuloSize := by
  intro a d i h
  obtain ⟨e, he, hle⟩ := exists_bits_eq_two_pow h
  have hpos : 0 < a.sizeBytes.toNat := by have := Nat.two_pow_pos e; omega
  have hmask : a.indexMask.toNat = a.sizeBytes.toNat * 8 - 1 := by
    rw [Arch.indexMask, BitVec.toNat_ofNat, Nat.mod_eq_of_lt (by omega)]
  refine ⟨hmask, ?_, a.maskedIndex_lt d i hpos⟩
  rw [Arch.maskedIndex, BitVec.toNat_and, hmask, he, Nat.and_two_pow_sub_one_eq_mod]

/-- The lanes below `k`, in lane order, are `0, …, k − 1`. -/
theorem map_val_filter_finRange {n k : Nat} (h : k ≤ n) :
    ((List.finRange n).filter fun i => decide (i.val < k)).map Fin.val = List.range k :=
  calc ((List.finRange n).filter fun i => decide (i.val < k)).map Fin.val
      = ((List.finRange n).map Fin.val).filter fun j => decide (j < k) := by
        rw [List.filter_map, Function.comp_def]
    _ = (List.Ico 0 n).filter fun j => decide (j < k) := by rw [List.map_coe_finRange_eq_range, List.Ico.zero_bot]
    _ = List.range k := by rw [List.Ico.filter_lt_of_ge h, List.Ico.zero_bot]

/-- Settles O15: each masked index is the residue of its candidate, and the enabled lanes are the first K. -/
theorem deriveListsFirstKLanes : Obligations.DeriveListsFirstKLanes := by
  intro a d hs hk
  rw [Arch.derive_eq, ← map_val_filter_finRange hk, List.map_map]
  refine List.map_congr_left fun i _ => ?_
  obtain ⟨-, hmod, -⟩ := maskedIndexIsCandidateModuloSize a d i hs
  rw [hmod, candidate_toNat, Function.comp_apply]

/-- The enable mask as a number, for every K that the 16 lanes admit (R164). -/
theorem Arch.laneEnable_toNat {a : Arch} (h : a.k.toNat ≤ 16) : a.laneEnable.toNat = 2 ^ a.k.toNat - 1 := by
  have hpow := Nat.pow_le_pow_right (n := 2) (by decide) h
  have hpos := Nat.two_pow_pos a.k.toNat
  rw [Arch.laneEnable, BitVec.toNat_ofNat, Nat.one_shiftLeft, Nat.mod_eq_of_lt (by omega)]

/-- The derived list depends on the digest only through the bytes of the enabled lanes (R164, R165). -/
theorem Arch.derive_congr_digest {a : Arch} {d e : Digest}
    (h : ∀ j, j < 2 * a.k.toNat → d.toList.getD j 0 = e.toList.getD j 0) : a.derive d = a.derive e := by
  rw [Arch.derive_eq, Arch.derive_eq]
  refine List.map_congr_left fun i hi => ?_
  have hlane : i.val < a.k.toNat := of_decide_eq_true (List.mem_filter.1 hi).2
  have hcand : candidate d i = candidate e i := BitVec.eq_of_toNat_eq (by
    rw [candidate_toNat, candidate_toNat, h _ (by omega), h _ (by omega)])
  rw [Arch.maskedIndex, hcand, Arch.maskedIndex]

/-- Settles O16: both units use the digest only through the list that it derives. -/
theorem disabledLanesHaveNoEffect : Obligations.DisabledLanesHaveNoEffect := by
  refine ⟨fun a _ i => a.laneEnable_bit i, fun _ _ hk => Arch.laneEnable_toNat hk, fun a d e h => ?_⟩
  have hderive := Arch.derive_congr_digest h
  exact ⟨congrArg a.setBits hderive, congrArg a.allBits hderive⟩

end Sys2Proof.Machine
end

/-! ### The padding of SHA-256 and its digests as numbers (R181, R185, R186) -/
section
namespace Sys2Proof.Machine

theorem bigEndian_concat (bs : List Byte) (b : Byte) : bigEndian (bs ++ [b]) = bigEndian bs * 256 + b.toNat := by
  rw [bigEndian, List.foldl_append, List.foldl_cons, List.foldl_nil, bigEndian]

namespace Sha256

@[simp] theorem length_bytesBE (n x : Nat) : (bytesBE n x).length = n := by
  rw [bytesBE, List.length_map, List.length_range]

/-- The last of the low bytes is the residue, and the bytes before it are those of the quotient. -/
theorem bytesBE_succ (n x : Nat) : bytesBE (n + 1) x = bytesBE n (x / 256) ++ [BitVec.ofNat 8 x] := by
  rw [bytesBE, List.range_succ, List.map_append, List.map_singleton, bytesBE]
  congr 1
  · refine List.map_congr_left fun i hi => ?_
    have hi : i < n := List.mem_range.1 hi
    have hshift : 8 * (n + 1 - 1 - i) = 8 + 8 * (n - 1 - i) := by omega
    rw [hshift, Nat.shiftRight_add, Nat.shiftRight_eq_div_pow x 8]
  · rw [Nat.add_sub_cancel, Nat.sub_self, Nat.mul_zero, Nat.shiftRight_zero]

/-- Appending the low bytes of a number to a sequence shifts the sequence's number and adds theirs. -/
theorem bigEndian_append_bytesBE (bs : List Byte) (n x : Nat) :
    bigEndian (bs ++ bytesBE n x) = bigEndian bs * 256 ^ n + x % 256 ^ n := by
  induction n generalizing x with
  | zero => rw [bytesBE, List.range_zero, List.map_nil, List.append_nil, Nat.pow_zero, Nat.mod_one, Nat.mul_one,
      Nat.add_zero]
  | succ n ih =>
    have hmod : x % 256 ^ (n + 1) = x % 256 + 256 * (x / 256 % 256 ^ n) := by rw [Nat.pow_succ', Nat.mod_mul]
    rw [bytesBE_succ, ← List.append_assoc, bigEndian_concat, ih, BitVec.toNat_ofNat, hmod, Nat.pow_succ]
    ring

/-- A number that fits in `n` bytes is what its `n` bytes spell. -/
theorem bigEndian_bytesBE {n x : Nat} (h : x < 256 ^ n) : bigEndian (bytesBE n x) = x := by
  have happend := bigEndian_append_bytesBE [] n x
  rwa [List.nil_append, Nat.mod_eq_of_lt h, show bigEndian [] = 0 from rfl, Nat.zero_mul, Nat.zero_add] at happend

/-- The zero bytes of the padding bring the length to 56 modulo 64 (R181). -/
theorem padZeros_mod (len : Nat) : (len + 1 + padZeros len) % 64 = 56 := by
  unfold padZeros
  omega

/-- No fewer zero bytes do (R181). -/
theorem padZeros_le {len z : Nat} (h : (len + 1 + z) % 64 = 56) : padZeros len ≤ z := by
  unfold padZeros
  omega

theorem length_pad (m : List Byte) : (pad m).length = m.length + 1 + padZeros m.length + 8 := by
  rw [pad, List.length_append, List.length_append, List.length_append, List.length_singleton, List.length_replicate,
    length_bytesBE]

/-- The padded message is a whole number of blocks (R181). -/
theorem length_pad_mod (m : List Byte) : (pad m).length % 64 = 0 := by
  have hmod := padZeros_mod m.length
  rw [length_pad]
  omega

/-- Compression keeps the number of words of the hash state (R185). -/
theorem length_compress {hash : List Word} (block : List Byte) (h : hash.length = 8) : (compress hash block).length = 8 := by
  unfold compress
  rw [List.length_zipWith, h]
  rfl

theorem length_hashOf (m : List Byte) : (hashOf m).length = 8 :=
  List.foldlRecOn (motive := fun hash => hash.length = 8) _ compress rfl fun _ h block _ => length_compress block h

/-- The digest is the hash state's eight words, each as its four bytes (R186). -/
theorem digest_toList (m : List Byte) : (digest m).toList = (hashOf m).flatMap fun w => bytesBE 4 w.toNat := by
  have hlen := length_hashOf m
  rw [digest, Vector.toList_ofFn]
  generalize hashOf m = hash at hlen
  match hash, hlen with
  | [_, _, _, _, _, _, _, _], _ => rfl

/-- The number that a sequence of words spells, most significant word first. -/
def bigEndianWords (ws : List Word) : Nat := ws.foldl (fun n w => n * 2 ^ 32 + w.toNat) 0

/-- Words and their bytes spell the same number. -/
theorem bigEndian_flatMap_bytesBE (ws : List Word) :
    bigEndian (ws.flatMap fun w => bytesBE 4 w.toNat) = bigEndianWords ws := by
  induction ws using List.reverseRecOn with
  | nil => rfl
  | append_singleton ws w ih =>
    have hw : w.toNat < 256 ^ 4 := w.isLt
    rw [List.flatMap_append, List.flatMap_singleton, bigEndian_append_bytesBE, ih, Nat.mod_eq_of_lt hw,
      show 256 ^ 4 = 2 ^ 32 from rfl, bigEndianWords, bigEndianWords, List.foldl_append, List.foldl_cons, List.foldl_nil]

/-- The digest as a 256-bit number is the final hash state (R186). -/
theorem bigEndian_digest (m : List Byte) : bigEndian (digest m).toList = bigEndianWords (hashOf m) := by
  rw [digest_toList, bigEndian_flatMap_bytesBE]

/-! The final hash states of the three items of R186: one block each, so 64 rounds evaluated by the kernel. -/

theorem hashOf_empty : hashOf [] =
    [0xe3b0c442, 0x98fc1c14, 0x9afbf4c8, 0x996fb924, 0x27ae41e4, 0x649b934c, 0xa495991b, 0x7852b855] := by
  decide +kernel

theorem hashOf_abc : hashOf [0x61, 0x62, 0x63] =
    [0xba7816bf, 0x8f01cfea, 0x414140de, 0x5dae2223, 0xb00361a3, 0x96177a9c, 0xb410ff61, 0xf20015ad] := by
  decide +kernel

theorem hashOf_xyz : hashOf [0x78, 0x79, 0x7a] =
    [0x3608bca1, 0xe44ea6c4, 0xd268eb6d, 0xb0226026, 0x9892c0b4, 0x2b86bbf1, 0xe77a6fa1, 0x6c3c9282] := by
  decide +kernel

end Sha256

/-- Settles O18: the model's count of zero bytes is the least, and the bit length fits in its eight bytes. -/
theorem paddedMessageShape : Obligations.PaddedMessageShape := fun m hlen =>
  ⟨Sha256.padZeros m.length, rfl, Sha256.padZeros_mod m.length, fun _ hz => Sha256.padZeros_le hz,
    Sha256.length_pad_mod m, Sha256.length_bytesBE 8 _, Sha256.bigEndian_bytesBE hlen⟩

/-- Settles O17: each digest as a number is its final hash state. -/
theorem digestKnownAnswers : Obligations.DigestKnownAnswers := by
  refine ⟨(Sha256.bigEndian_digest []).trans ?_, (Sha256.bigEndian_digest [0x61, 0x62, 0x63]).trans ?_,
    (Sha256.bigEndian_digest [0x78, 0x79, 0x7a]).trans ?_⟩
  · rw [Sha256.hashOf_empty]; rfl
  · rw [Sha256.hashOf_abc]; rfl
  · rw [Sha256.hashOf_xyz]; rfl

end Sys2Proof.Machine
end

/-! ### Bits set in any order and any number of times, and INSERTs of several items as one list of bits (R143, R206, R207) -/
section
open Sys2Proof.Spec

namespace Sys2Proof.Machine

/-- Setting the bits of two lists, one after the other (R143). -/
theorem Arch.setBits_append (a : Arch) (ns ms : List Nat) :
    a.setBits (ns ++ ms) = (a.setBits ns).bind fun b => b.setBits ms := by
  induction ns generalizing a with
  | nil => rfl
  | cons n ns ih =>
    rw [List.cons_append, Arch.setBits, Arch.setBits]
    cases a.bitSet n with
    | none => rfl
    | some b => exact ih b

/-- Lists with the same members set the same bits, whatever their order and repetitions (R143). -/
theorem Arch.setBits_congr_mem {a : Arch} {ns ms : List Nat} (ha : a.StoreOk) (hn : ∀ n ∈ ns, n < a.sizeBytes.toNat * 8)
    (h : ∀ n, n ∈ ms ↔ n ∈ ns) : a.setBits ms = a.setBits ns := by
  obtain ⟨m, hm, hok, hbit⟩ := Arch.setBits_spec ns a ha hn
  obtain ⟨m', hm', hok', hbit'⟩ := Arch.setBits_spec ms a ha fun n hmem => hn n ((h n).1 hmem)
  have hstore : m' = m := Arch.store_ext hok' hok fun i => by rw [hbit, hbit', decide_eq_decide.2 (h i)]
  rw [hm, hm', hstore]

/-- The AND of the bits is 1 iff every bit is (R206). -/
theorem Arch.allBits_eq_some_true_iff {a : Arch} {ns : List Nat} (hn : ∀ n ∈ ns, n < a.sizeBytes.toNat * 8) :
    a.allBits ns = some true ↔ ∀ n ∈ ns, a.bit n = true := by
  rw [Arch.allBits_spec ns a hn, Option.some.injEq, List.all_eq_true]

/-- The AND of the bits is 0 iff some bit read is (R206). -/
theorem Arch.allBits_eq_some_false_iff {a : Arch} {ns : List Nat} (hn : ∀ n ∈ ns, n < a.sizeBytes.toNat * 8) :
    a.allBits ns = some false ↔ ∃ n ∈ ns, a.bitRead n = some false := by
  rw [Arch.allBits_spec ns a hn, Option.some.injEq, List.all_eq_false]
  refine exists_congr fun n => and_congr_right fun hmem => ?_
  rw [Arch.bitRead_eq, if_pos (hn n hmem), Option.some.injEq, Bool.not_eq_true]

/-- Settles O57: the AND over a list is that over its members. -/
theorem queryOrderDoesNotMatter : Obligations.QueryOrderDoesNotMatter := by
  intro a ns ms hn hp
  refine ⟨?_, Arch.allBits_eq_some_false_iff hn⟩
  rw [Arch.allBits_spec ns a hn, Arch.allBits_spec ms a fun n h => hn n (hp.mem_iff.2 h), hp.all_eq]

section
variable (dg : List Byte → Digest) {a : Arch}

/-- Every bit address that the items `xs` derive, item by item (R165). -/
def derivedByAll (a : Arch) (xs : List (List Byte)) : List Nat := xs.flatMap fun x => a.derive (dg x)

/-- INSERTs of several items set the bits that the items derive: no INSERT changes what a later one derives (R202). -/
theorem insertAll_eq_setBits (a : Arch) (xs : List (List Byte)) :
    insertAll dg a xs = a.setBits (derivedByAll dg a xs) := by
  induction xs generalizing a with
  | nil => rfl
  | cons x xs ih =>
    rw [insertAll, derivedByAll, List.flatMap_cons, Arch.setBits_append]
    refine Option.bind_congr fun b hb => ?_
    obtain ⟨-, hs, hk⟩ := Arch.setBits_frame hb
    rw [ih, derivedByAll, List.flatMap_congr fun y _ => Arch.derive_congr (dg y) hs hk]

/-- Every bit that the items derive is inside a store that is not empty (R142). -/
theorem derivedByAll_lt (h : 0 < a.sizeBytes.toNat) (xs : List (List Byte)) :
    ∀ n ∈ derivedByAll dg a xs, n < a.sizeBytes.toNat * 8 := by
  intro n hn
  obtain ⟨x, -, hx⟩ := List.mem_flatMap.1 hn
  exact a.derive_lt (dg x) h n hx

/-- INSERTs of items that derive the same bits leave the same filter. -/
theorem insertAll_congr {xs ys : List (List Byte)} (hl : a.Legal) (hr : a.ready = true)
    (h : ∀ n, n ∈ derivedByAll dg a ys ↔ n ∈ derivedByAll dg a xs) : insertAll dg a ys = insertAll dg a xs := by
  rw [insertAll_eq_setBits, insertAll_eq_setBits]
  exact Arch.setBits_congr_mem hl.storeOk (derivedByAll_lt dg (hl.sizeBytes_pos hr) xs) h

/-- INSERTs into a legal ready filter answer, with the bits that the items derive added and nothing else changed. -/
theorem insertAll_spec (hl : a.Legal) (hr : a.ready = true) (xs : List (List Byte)) :
    ∃ m, insertAll dg a xs = some { a with store := m } ∧
      ∀ n, Arch.bit { a with store := m } n = (a.bit n || decide (n ∈ derivedByAll dg a xs)) := by
  obtain ⟨m, hm, -, hbit⟩ := Arch.setBits_spec _ a hl.storeOk (derivedByAll_lt dg (hl.sizeBytes_pos hr) xs)
  exact ⟨m, (insertAll_eq_setBits dg a xs).trans hm, hbit⟩

/-- QUERY of an item gives 1 iff every bit that the item derives is 1 (R203). -/
theorem queryItem_eq_some_true_iff (h : 0 < a.sizeBytes.toNat) (x : List Byte) :
    queryItem dg a x = some true ↔ ∀ n ∈ a.derive (dg x), a.bit n = true :=
  Arch.allBits_eq_some_true_iff (a.derive_lt (dg x) h)

end

/-- Settles O53: the bits that `x` derives are among those that the INSERTs set. -/
theorem noFalseNegatives : Obligations.NoFalseNegatives := by
  intro dg a x ys hl hr
  obtain ⟨m, hm, hbit⟩ := insertAll_spec dg hl hr (x :: ys)
  have hpos := hl.sizeBytes_pos hr
  refine ⟨_, hm, (queryItem_eq_some_true_iff dg (a := { a with store := m }) hpos x).2 fun n hn => ?_⟩
  have hset : n ∈ derivedByAll dg a (x :: ys) := List.mem_flatMap.2 ⟨x, List.mem_cons_self, hn⟩
  rw [hbit, decide_eq_true hset, Bool.or_true]

/-- Settles O54: the second INSERT derives no bit that the first does not. -/
theorem insertIsIdempotent : Obligations.InsertIsIdempotent := by
  intro dg a x hl hr
  obtain ⟨m, hm, -⟩ := insertAll_spec dg hl hr [x]
  refine ⟨_, hm, (insertAll_congr dg hl hr fun n => ?_).trans hm⟩
  simp [derivedByAll]

/-- Settles O55: the INSERTs keep every bit that QUERY has found to be 1. -/
theorem insertsKeepQueryResults : Obligations.InsertsKeepQueryResults := by
  intro dg a b x ys hl hr hb hq
  have hpos := hl.sizeBytes_pos hr
  obtain ⟨m, hm, hbit⟩ := insertAll_spec dg hl hr ys
  cases hm.symm.trans hb
  refine (queryItem_eq_some_true_iff dg (a := { a with store := m }) hpos x).2 fun n hn => ?_
  rw [hbit, (queryItem_eq_some_true_iff dg hpos x).1 hq n hn, Bool.true_or]

/-- Settles O56: in any order the items derive the same bits. -/
theorem insertOrderDoesNotMatter : Obligations.InsertOrderDoesNotMatter := by
  intro dg a xs ys hl hr hp
  obtain ⟨m, hm, -⟩ := insertAll_spec dg hl hr xs
  exact ⟨_, hm, (insertAll_congr dg hl hr fun _ => (hp.flatMap_right _).symm.mem_iff).trans hm⟩

end Sys2Proof.Machine
end

/-! ### The filter operations (R200–R205) -/
section
open Sys2Proof.Spec

namespace Sys2Proof.Machine

/-- A word with a command's opcode and a reserved bit of its format set is rejected and only answered (R109, R253). -/
theorem rejectsReserved (i : Instr) : RejectsReserved i.opcode i.reservedLow := by
  intro w hop hne
  have hreserved : reservedSet w = true := by
    rw [← Bool.not_eq_false, reservedSet_eq_false_iff hop]
    exact hne
  have he := (decodeWord_reservedBits_iff w).2 hreserved
  refine ⟨he, fun s hw hr hp h0 => ?_⟩
  have hcode : CommandError.reservedBits.detail.toNat * 16 + CommandError.reservedBits.code.toNat = 0x024 := rfl
  subst hw
  have hstep := stepBy_of_error (run := exec) hr hp h0 he
  rw [show opField s.curCmd = i.opcode from hop, raise, rejection, responseWord_error_eq, hcode] at hstep
  exact hstep

/-- The filter of a successful CONSTRUCT: `sz` zero bytes and `kf` hash values (R200). -/
theorem Arch.replaced_zeros_spec {sz kf : Nat} (hs : sz ≤ 8192) (hk : kf ≤ 16) :
    (Arch.replaced sz kf Memory.zeros).sizeBytes.toNat = sz ∧ (Arch.replaced sz kf Memory.zeros).k.toNat = kf ∧
      (Arch.replaced sz kf Memory.zeros).StoreOk ∧
      ∀ j, j < sz → (Arch.replaced sz kf Memory.zeros).memRead j = some 0 := by
  have hsize := Arch.replaced_sizeBytes_toNat hs kf Memory.zeros
  refine ⟨hsize, ?_, ⟨rfl, nofun⟩, fun j hj => if_pos (hj.trans_eq hsize.symm)⟩
  rw [Arch.replaced_k, BitVec.toNat_ofNat, Nat.mod_eq_of_lt (by omega)]

/-- Settles O20: each check fails after those before it have passed, and then the filter is replaced. -/
theorem constructConfiguresOrReports : Obligations.ConstructConfiguresOrReports := by
  refine ⟨rejectsReserved (.construct 0 0), fun sz kf s => ?_⟩
  have hexec : exec (.construct sz kf) s = execConstruct sz kf s := rfl
  have hpow {n : Nat} (hn : sz = 2 ^ n) : ¬ pow2 sz = false := by rw [(pow2_iff sz).2 ⟨n, hn⟩]; decide
  rw [hexec, execConstruct, Config.sizeMaxBytes, Config.kMin, Config.kMax]
  refine ⟨fun hne => ?_, fun n hn hs => ?_, fun n hn hs hk => ?_, fun n hn hs hk hk' => ?_⟩
  · have hnot : pow2 sz = false := Bool.eq_false_iff.2 fun h => ((pow2_iff sz).1 h).elim hne
    rw [if_pos hnot]
    rfl
  · rw [if_neg (hpow hn), if_pos hs]
    rfl
  · rw [if_neg (hpow hn), if_neg (Nat.not_lt.2 hs), if_pos hk]
    rfl
  · rw [if_neg (hpow hn), if_neg (Nat.not_lt.2 hs), if_neg (by omega)]
    exact ⟨Arch.replaced sz kf Memory.zeros, rfl, rfl, Arch.replaced_zeros_spec hs hk'⟩

section
variable {s : State}

/-- The insert unit inside a store that is not empty: it responds OK, with the derived bits set (R143, R202, R204). -/
theorem insertUnit_ended (op : BitVec 4) (d : Digest) (ha : s.arch.StoreOk) (h : 0 < s.arch.sizeBytes.toNat) :
    ∃ m, insertUnit op d s = .next (ended s { s.arch with store := m } (responseWord op codeOk 0 false 0)) ∧
      Arch.StoreOk { s.arch with store := m } ∧
      ∀ n, Arch.bit { s.arch with store := m } n = (s.arch.bit n || decide (n ∈ s.arch.derive d)) := by
  obtain ⟨m, hm, hok, hbit⟩ := s.arch.insertDigest_spec d ha h
  refine ⟨m, ?_, hok, hbit⟩
  rw [insertUnit, hm]
  rfl

/-- The query unit inside a store that is not empty: RESULT is whether every derived bit is 1 (R203, R205, R206). -/
theorem queryUnit_ended (op : BitVec 4) (d : Digest) (h : 0 < s.arch.sizeBytes.toNat) :
    queryUnit op d s = .next (ended s s.arch
      (if ∀ n ∈ s.arch.derive d, s.arch.bit n = true then responseWord op codeOk 0 true 0
        else responseWord op codeOk 0 false 0)) := by
  rw [queryUnit, s.arch.queryDigest_spec d h]
  split_ifs with hall
  · rw [List.all_eq_true.2 hall]
    rfl
  · rw [Bool.eq_false_iff.2 (mt List.all_eq_true.1 hall)]
    rfl

variable {b : Config.Build} {len : Nat}

theorem execInsertFor_of_ready (hr : s.arch.ready = true) (hlen : s.digestAcc.length = len) :
    execInsertFor b len s = insertUnit 0x2 (b.digestFn s.digestAcc) s := by
  rw [execInsertFor, if_neg (by rw [hr]; decide), State.payloadItem_of_length hlen]

theorem execQueryFor_of_ready (hr : s.arch.ready = true) (hlen : s.digestAcc.length = len) :
    execQueryFor b len s = queryUnit 0x3 (b.digestFn s.digestAcc) s := by
  rw [execQueryFor, if_neg (by rw [hr]; decide), State.payloadItem_of_length hlen]

/-- A held digest is the payload of the digest forms (R204, R205). -/
theorem State.payloadDigest_of_toList {d : Digest} (h : s.digestAcc = d.toList) : s.payloadDigest = some d := by
  rw [State.payloadDigest, h, digestOfBytes_toList]

theorem execInsertDigest_of_ready {d : Digest} (hr : s.arch.ready = true) (h : s.digestAcc = d.toList) :
    execInsertDigest s = insertUnit 0x4 d s := by
  rw [execInsertDigest, if_neg (by rw [hr]; decide), State.payloadDigest_of_toList h]

theorem execQueryDigest_of_ready {d : Digest} (hr : s.arch.ready = true) (h : s.digestAcc = d.toList) :
    execQueryDigest s = queryUnit 0x5 d s := by
  rw [execQueryDigest, if_neg (by rw [hr]; decide), State.payloadDigest_of_toList h]

end

/-- Settles O21, from what the insert unit does. -/
theorem insertSetsDerivedBits : Obligations.InsertSetsDerivedBits := by
  refine ⟨rejectsReserved (.insert 0), fun len s => ⟨fun hr => if_pos hr, fun hr ha hpos hlen => ?_⟩⟩
  obtain ⟨m, hm, hok, hbit⟩ := insertUnit_ended 0x2 (digestFn s.digestAcc) ha hpos
  exact ⟨m, (execInsertFor_of_ready hr hlen).trans hm, hok, hbit⟩

/-- Settles O22, from what the query unit does. -/
theorem queryReportsAllDerivedBits : Obligations.QueryReportsAllDerivedBits :=
  ⟨rejectsReserved (.query 0), fun _ _ => ⟨fun hr => if_pos hr, fun hr hpos hlen =>
    (execQueryFor_of_ready hr hlen).trans (queryUnit_ended 0x3 _ hpos)⟩⟩

/-- Settles O23, from what the insert unit does. -/
theorem insertDigestSetsDerivedBits : Obligations.InsertDigestSetsDerivedBits := by
  refine ⟨rejectsReserved .insertDigest, fun s d => ⟨fun hr => if_pos hr, fun hr ha hpos hd => ?_⟩⟩
  obtain ⟨m, hm, hok, hbit⟩ := insertUnit_ended 0x4 d ha hpos
  exact ⟨m, (execInsertDigest_of_ready hr hd).trans hm, hok, hbit⟩

/-- Settles O24, from what the query unit does. -/
theorem queryDigestReportsAllDerivedBits : Obligations.QueryDigestReportsAllDerivedBits :=
  ⟨rejectsReserved .queryDigest, fun _ _ => ⟨fun hr => if_pos hr, fun hr hpos hd =>
    (execQueryDigest_of_ready hr hd).trans (queryUnit_ended 0x5 _ hpos)⟩⟩

/-! ### The digest forms beside the item forms (R204, R205) -/

/-- Replacing the opcode of a response word gives the word with that opcode (R113). -/
theorem withOp_responseWord (op op' code detail : BitVec 4) (result : Bool) (value : Word) :
    withOp op (responseWord op' code detail result value) = responseWord op code detail result value := by
  have hcode := code.isLt
  have hdetail := detail.isLt
  have hop := op.isLt
  have hop' := op'.isLt
  have hresult := Bool.toNat_lt result
  apply BitVec.eq_of_toNat_eq
  rw [withOp, BitVec.toNat_append, BitVec.toNat_append, Nat.or_comm, Nat.or_comm (_ <<< _) op.toNat, or_shifted hop,
    or_shifted (BitVec.isLt _), responseWord_slice, responseWord_slice, responseWord_toNat]
  omega

section
variable {s : State} {op op' : BitVec 4} {d : Digest} {acc : List Byte}

/-- A held response, seen as the digest form's (R204, R205). -/
theorem asDigestForm_respond (t : State) (code detail : BitVec 4) (result : Bool) (value : Word) :
    asDigestForm op d (.next (t.respond (responseWord op' code detail result value))) =
      .next ({ t with digestAcc := d.toList }.respond (responseWord op code detail result value)) := by
  rw [asDigestForm, State.respond_pendingRsp, Option.map_some, withOp_responseWord]
  rfl

theorem asDigestForm_raise (e : CommandError) :
    asDigestForm op d (raise op' e { s with digestAcc := acc }) = raise op e { s with digestAcc := d.toList } :=
  asDigestForm_respond ..

theorem asDigestForm_insertUnit :
    asDigestForm op d (insertUnit op' d { s with digestAcc := acc }) = insertUnit op d { s with digestAcc := d.toList } := by
  unfold insertUnit
  cases s.arch.insertDigest d with
  | some a => exact asDigestForm_respond ..
  | none => rfl

theorem asDigestForm_queryUnit :
    asDigestForm op d (queryUnit op' d { s with digestAcc := acc }) = queryUnit op d { s with digestAcc := d.toList } := by
  unfold queryUnit
  cases s.arch.queryDigest d with
  | some r => exact asDigestForm_respond ..
  | none => rfl

end

section
variable (b : Config.Build) (s : State) (x : List Byte)

/-- INSERT_DIGEST of an item's digest beside INSERT of the item: both raise NOT_READY, or the insert unit ends both. -/
theorem execInsertDigest_eq_asDigestForm : execInsertDigest { s with digestAcc := (b.digestFn x).toList } =
    asDigestForm 0x4 (b.digestFn x) (execInsertFor b x.length { s with digestAcc := x }) := by
  cases hr : s.arch.ready with
  | false => rw [execInsertDigest, if_pos hr, execInsertFor, if_pos hr, asDigestForm_raise]
  | true =>
    rw [execInsertDigest_of_ready (s := { s with digestAcc := (b.digestFn x).toList }) hr rfl,
      execInsertFor_of_ready (s := { s with digestAcc := x }) hr rfl, asDigestForm_insertUnit]

/-- QUERY_DIGEST of an item's digest beside QUERY of the item: both raise NOT_READY, or the query unit ends both. -/
theorem execQueryDigest_eq_asDigestForm : execQueryDigest { s with digestAcc := (b.digestFn x).toList } =
    asDigestForm 0x5 (b.digestFn x) (execQueryFor b x.length { s with digestAcc := x }) := by
  cases hr : s.arch.ready with
  | false => rw [execQueryDigest, if_pos hr, execQueryFor, if_pos hr, asDigestForm_raise]
  | true =>
    rw [execQueryDigest_of_ready (s := { s with digestAcc := (b.digestFn x).toList }) hr rfl,
      execQueryFor_of_ready (s := { s with digestAcc := x }) hr rfl, asDigestForm_queryUnit]

end

/-- Settles O30: every build has the equivalence, this one among them. -/
theorem digestFormsMatchItemForms : Obligations.DigestFormsMatchItemForms :=
  ⟨fun s x => ⟨execInsertDigest_eq_asDigestForm thisBuild s x, execQueryDigest_eq_asDigestForm thisBuild s x⟩,
    fun b s x => ⟨execInsertDigest_eq_asDigestForm b s x, execQueryDigest_eq_asDigestForm b s x⟩⟩

end Sys2Proof.Machine
end

/-! ### The codec: ENCODE and DECODE (R230–R233) -/
section
open Sys2Proof.Spec

namespace Sys2Proof.Machine

/-! ENCODE (R230). -/

/-- The bytes that a list of transfers sends are the bytes that were marked (R70). -/
theorem map_fst_markLast (bs : List Byte) : (markLast bs).map Prod.fst = bs := by
  induction bs using List.reverseRecOn with
  | nil => rfl
  | append_singleton bs b => simp [markLast_concat, Function.comp_def]

/-- The transfers of a blob, written out: every byte of the store, then K with `dout_last` (R70, R230). -/
theorem Arch.markLast_blob (a : Arch) : markLast a.blob =
    ((List.range a.sizeBytes.toNat).map fun j => (a.store.read j, false)) ++ [(a.k.setWidth 8, true)] := by
  rw [Arch.blob_eq, markLast_concat, List.map_map]
  rfl

/-- ENCODE of a ready filter goes to OUTPUT with the whole blob to emit (R230). -/
theorem exec_encode_of_ready {s : State} (hr : s.arch.ready = true) :
    exec .encode s = .next (s.beginOutput (s.arch.sizeBytes.toNat + 1)
      (responseWord 0x6 codeOk 0 false (BitVec.ofNat 32 (s.arch.sizeBytes.toNat + 1)))) :=
  if_neg (by rw [hr]; decide)

/-- A host that takes the output gets the whole blob, before the response (R70, R230). -/
theorem run_beginOutput {run : Instr → State → Host.Outcome State Fault Refusal} {s : State} (r : Response)
    (hr : s.rst = false) (hle : s.arch.sizeBytes.toNat ≤ 8192) (ht : s.arch.sizeBytes.toNat + 1 ≤ s.doutTakes) :
    Host.Core.run (coreBy run) (s.arch.sizeBytes.toNat + 1) (s.beginOutput (s.arch.sizeBytes.toNat + 1) r) =
      .next ({ s with
        phase := .respond
        outCount := 0
        pendingRsp := some r
        doutTakes := s.doutTakes - (s.arch.sizeBytes.toNat + 1)
        doutSent := s.doutSent ++ markLast s.arch.blob } : State) := by
  have hcount : (s.beginOutput (s.arch.sizeBytes.toNat + 1) r).outCount.toNat = s.arch.sizeBytes.toNat + 1 := by
    rw [State.beginOutput_outCount, BitVec.toNat_ofNat, Nat.mod_eq_of_lt (by omega)]
  rw [← Arch.lastTransfers_size]
  exact run_output s.arch.sizeBytes.toNat (s.beginOutput (s.arch.sizeBytes.toNat + 1) r) hr rfl hcount (Nat.le_refl _) ht

/-- A run from EXECUTE of ENCODE sends the whole blob of a ready filter (R230). -/
theorem run_encode {s : State} (hrst : s.rst = false) (hp : s.phase = .execute) (h0 : s.remain = 0)
    (hi : decodeWord s.curCmd = .ok .encode) (hr : s.arch.ready = true) (hle : s.arch.sizeBytes.toNat ≤ 8192)
    (ht : s.arch.sizeBytes.toNat + 1 ≤ s.doutTakes) :
    ∃ t, Host.Core.run Sys2Proof.core (s.arch.sizeBytes.toNat + 2) s = .next t ∧
      t.doutSent = s.doutSent ++ markLast s.arch.blob := by
  have hstep := (stepBy_of_execute (run := exec) hrst hp h0 hi).trans (exec_encode_of_ready hr)
  exact ⟨_, (run_of_stepBy _ hstep).trans (run_beginOutput _ hrst hle ht), rfl⟩

/-- Running ENCODE sends the blob of a ready filter (R62, R230). -/
theorem emitted_eq_blob {a : Arch} (hr : a.ready = true) (hle : a.sizeBytes.toNat ≤ 8192) : emitted a = a.blob := by
  obtain ⟨t, hrun, hsent⟩ := run_encode (s := { State.reset with
      arch := a
      phase := .execute
      curCmd := 0x60000000
      doutTakes := a.sizeBytes.toNat + 1 }) rfl rfl rfl
    (show decodeWord 0x60000000 = .ok .encode by decide) hr hle (Nat.le_refl _)
  rw [emitted, hrun]
  exact (congrArg _ hsent).trans (map_fst_markLast a.blob)

/-- Settles O25: a ready filter goes to OUTPUT, and the run over the output sends the blob. -/
theorem encodeStreamsStoreThenK : Obligations.EncodeStreamsStoreThenK := by
  refine ⟨rejectsReserved .encode, fun s => ⟨fun hr => if_pos hr, fun hr hle => ?_⟩⟩
  refine ⟨_, _, exec_encode_of_ready hr, rfl, rfl, ?_, rfl, fun hrst ht => ?_⟩
  · rw [responseWord_toNat, BitVec.toNat_ofNat, Nat.mod_eq_of_lt (by omega), Nat.add_comm]
    rfl
  · rw [List.append_assoc, ← Arch.markLast_blob]
    exact run_beginOutput _ hrst hle ht

/-! DECODE (R231). -/

section
variable {s : State} {len : Nat} {bits : List Byte} {kb : Byte}

/-- A staged blob is read as its bits and its k byte (R231, R233). -/
theorem State.payloadBlob_of_stage (hs : s.stage = bits ++ [kb]) : s.payloadBlob (bits.length + 1) = some (bits, kb) := by
  simp [State.payloadBlob, hs]

/-- EMPTY, the first check of DECODE (R231). -/
theorem exec_decode_empty (s : State) : exec (.decode 0) s = .next (ended s s.arch 0x7012) := rfl

/-- SIZE, the second check of DECODE (R231). -/
theorem exec_decode_of_badSize (h0 : len ≠ 0) (hsize : len - 1 ∉ legalSizes) :
    exec (.decode len) s = .next (ended s s.arch 0x7022) := by
  have hok : blobLenOk len = false := Bool.eq_false_iff.2 (mt (blobLenOk_iff_mem_legalSizes len).1 hsize)
  show execDecode len s = _
  rw [execDecode, if_neg h0, if_pos hok]
  rfl

/-- DECODE of a whole blob whose length can succeed: the k byte decides (R231). -/
theorem exec_decode_of_blob (hsize : bits.length ∈ legalSizes) (hs : s.stage = bits ++ [kb]) :
    exec (.decode (bits.length + 1)) s =
      if kb.toNat < 1 ∨ 16 < kb.toNat then .next (ended s s.arch 0x7032)
      else .next (ended s (Arch.replaced bits.length kb.toNat (Memory.ofBytes bits)) 0x7000) := by
  have hok : blobLenOk (bits.length + 1) = true := (blobLenOk_iff_mem_legalSizes _).2 hsize
  show execDecode (bits.length + 1) s = _
  rw [execDecode, if_neg (Nat.succ_ne_zero _), if_neg (by rw [hok]; decide), State.payloadBlob_of_stage hs]
  rfl

/-- A DECODE that responds OK had a blob of a legal size with a k byte in range, and has replaced the filter (R231). -/
theorem exec_decode_ok {t : State} (h : exec (.decode s.stage.length) s = .next t) (hok : t.pendingRsp = some 0x7000) :
    ∃ bits kb, s.stage = bits ++ [kb] ∧ bits.length ∈ legalSizes ∧ kb.toNat ≤ 16 ∧
      t.arch = Arch.replaced bits.length kb.toNat (Memory.ofBytes bits) := by
  obtain hnil | ⟨bits, kb, hs⟩ := s.stage.eq_nil_or_concat'
  · rw [hnil, List.length_nil, exec_decode_empty] at h
    cases h
    cases hok
  have hlen : s.stage.length = bits.length + 1 := by rw [hs, List.length_append, List.length_singleton]
  rw [hlen] at h
  by_cases hsize : bits.length ∈ legalSizes
  · rw [exec_decode_of_blob hsize hs] at h
    split_ifs at h with hk
    · cases h
      cases hok
    · cases h
      exact ⟨bits, kb, hs, hsize, by omega, rfl⟩
  · rw [exec_decode_of_badSize (Nat.succ_ne_zero _) hsize] at h
    cases h
    cases hok

end

/-- K of a replaced filter (R23, R231). -/
theorem Arch.replaced_k_toNat {k : Nat} (h : k ≤ 16) (n : Nat) (m : Memory) : (Arch.replaced n k m).k.toNat = k := by
  rw [Arch.replaced_k, BitVec.toNat_ofNat, Nat.mod_eq_of_lt (by omega)]

theorem le_of_mem_legalSizes {n : Nat} (h : n ∈ legalSizes) : n ≤ 8192 := ((mem_legalSizes_iff n).1 h).2

/-- Settles O26: the checks in their order, and then the filter with the blob's bytes and K. -/
theorem decodeReplacesOrReports : Obligations.DecodeReplacesOrReports := by
  refine ⟨rejectsReserved (.decode 0), fun len s => ⟨?_, exec_decode_of_badSize, fun bits kb hsize hlen hs => ?_⟩⟩
  · rintro rfl
    exact exec_decode_empty s
  subst hlen
  rw [exec_decode_of_blob hsize hs]
  have hle := le_of_mem_legalSizes hsize
  refine ⟨fun hk => if_pos hk, fun hk hk' => ⟨_, if_neg (by omega), rfl, Arch.replaced_sizeBytes_toNat hle _ _,
    Arch.replaced_k_toNat hk' _ _, storeReplaceHoldsEveryByte bits kb.toNat hle⟩⟩

/-! The round trip (R232). -/

/-- The bytes of `StoreReplace(B)`, read back, are `B` (R146). -/
theorem Memory.map_read_ofBytes (bs : List Byte) : (List.range bs.length).map (Memory.ofBytes bs).read = bs := by
  refine List.ext_getElem (by rw [List.length_map, List.length_range]) fun j _ hj => ?_
  rw [List.getElem_map, List.getElem_range, Memory.read_ofBytes, List.getD_eq_getElem _ _ hj]

/-- The blob of the filter that a blob describes is that blob (R62, R231). -/
theorem Arch.blob_replaced {bits : List Byte} {kb : Byte} (hle : bits.length ≤ 8192) (hk : kb.toNat ≤ 16) :
    (Arch.replaced bits.length kb.toNat (Memory.ofBytes bits)).blob = bits ++ [kb] := by
  have hkb : (Arch.replaced bits.length kb.toNat (Memory.ofBytes bits)).k.setWidth 8 = kb := by
    apply BitVec.eq_of_toNat_eq
    rw [BitVec.toNat_setWidth, Arch.replaced_k_toNat hk, Nat.mod_eq_of_lt kb.isLt]
  rw [Arch.blob_eq, Arch.replaced_sizeBytes_toNat hle, Arch.replaced_store, Memory.map_read_ofBytes,
    hkb]

/-- No byte is listed at or above SIZE_BYTES (R24; log 2). -/
theorem Arch.StoreOk.read_of_le {a : Arch} (h : a.StoreOk) {j : Nat} (hj : a.sizeBytes.toNat ≤ j) :
    a.store.read j = Memory.unlisted := by
  obtain ⟨-, hin⟩ := h
  exact (a.store.read_eq_unlisted_or_mem j).resolve_right fun hmem => Nat.not_lt.2 hj (hin _ hmem)

/-- `StoreReplace` of the bytes of a store is that store (R146). -/
theorem Arch.StoreOk.ofBytes_read {a : Arch} (h : a.StoreOk) :
    Memory.ofBytes ((List.range a.sizeBytes.toNat).map a.store.read) = a.store := by
  refine Memory.ext_read (Memory.wf_ofBytes _) h.1 fun j => ?_
  rw [Memory.read_ofBytes]
  by_cases hj : j < a.sizeBytes.toNat
  · rw [List.getD_eq_getElem _ _ (by simpa using hj), List.getElem_map, List.getElem_range]
  · rw [List.getD_eq_default _ _ (by simpa using hj), h.read_of_le (Nat.not_lt.1 hj)]

/-- A ready filter is the replacement with its own size, K and store. -/
theorem Arch.replaced_self {a : Arch} (hr : a.ready = true) : Arch.replaced a.sizeBytes.toNat a.k.toNat a.store = a := by
  rw [Arch.replaced, BitVec.ofNat_toNat, BitVec.ofNat_toNat, BitVec.setWidth_eq, BitVec.setWidth_eq, ← hr]

/-- A legal ready filter has a size and a K that DECODE accepts (R25). -/
theorem Arch.Legal.ranges {a : Arch} (h : a.Legal) (hr : a.ready = true) :
    a.sizeBytes.toNat ∈ legalSizes ∧ 1 ≤ a.k.toNat ∧ a.k.toNat ≤ 16 := by
  obtain ⟨hf, -⟩ | ⟨-, hp, hle, hk, hk', -⟩ := h
  · cases hr.symm.trans hf
  · exact ⟨(mem_legalSizes_iff _).2 ⟨hp, hle⟩, hk, hk'⟩

/-- DECODE of a legal ready filter's blob restores the filter (R232). -/
theorem exec_decode_blob {a : Arch} {s : State} (hl : a.Legal) (hr : a.ready = true) (hs : s.stage = a.blob) :
    exec (.decode a.blob.length) s = .next (ended s a 0x7000) := by
  obtain ⟨hsize, hk, hk'⟩ := hl.ranges hr
  have hkb : (a.k.setWidth 8).toNat = a.k.toNat := by
    rw [BitVec.toNat_setWidth, Nat.mod_eq_of_lt (by omega)]
  have hlen : ((List.range a.sizeBytes.toNat).map a.store.read).length = a.sizeBytes.toNat := by
    rw [List.length_map, List.length_range]
  have hexec := exec_decode_of_blob (hlen.symm ▸ hsize) (hs.trans a.blob_eq)
  rw [hlen, hkb, if_neg (by omega), hl.storeOk.ofBytes_read, Arch.replaced_self hr] at hexec
  rwa [Arch.length_blob]

/-- Settles O58: ENCODE sends the blob, DECODE of the blob restores the filter, and an accepted blob is the blob of the filter
that it describes. -/
theorem encodeDecodeRoundTrip : Obligations.EncodeDecodeRoundTrip := by
  refine ⟨fun a hl hr s hs => ?_, fun s t h hok => ?_⟩
  · rw [emitted_eq_blob hr hl.sizeBytes_le] at hs ⊢
    exact exec_decode_blob hl hr hs
  · obtain ⟨bits, kb, hs, hsize, hk, ha⟩ := exec_decode_ok h hok
    have hle := le_of_mem_legalSizes hsize
    rw [ha, emitted_eq_blob rfl ((Arch.replaced_sizeBytes_toNat hle _ _).trans_le hle), Arch.blob_replaced hle hk, hs]

end Sys2Proof.Machine
end

/-! ### The control commands: NOP and READ_REG (R250, R251) -/
section
open Sys2Proof.Spec

namespace Sys2Proof.Machine

/-- Settles O19: a word of opcode 0 with a bit of `w[27:0]` set is rejected, and NOP's response word is 0. -/
theorem nopOnlyResponds : Obligations.NopOnlyResponds :=
  ⟨rejectsReserved .nop, fun _ => rfl⟩

/-- No register has a selector above 0x02 (R30). -/
theorem Arch.readRegister_of_two_lt (a : Arch) {sel : Nat} (h : 2 < sel) : a.readRegister sel = none := by
  obtain ⟨n, rfl⟩ := Nat.exists_eq_add_of_le' h
  rfl

section
variable {s : State} {sel : Nat}

/-- A selector of a register: its value in VALUE (R251). -/
theorem exec_readReg_of_some {v : Word} {r : Response} (h : s.arch.readRegister sel = some v)
    (hr : responseWord 0x8 codeOk 0 false v = r) : exec (.readReg sel) s = .next (ended s s.arch r) := by
  subst hr
  change execReadRegFor thisBuild sel s = _
  rw [execReadRegFor, show s.arch.readRegisterFor thisBuild sel = some v from h]
  rfl

/-- A selector of no register: BAD_SELECTOR (R251). -/
theorem exec_readReg_of_none (h : s.arch.readRegister sel = none) :
    exec (.readReg sel) s = .next (ended s s.arch 0x8034) := by
  change execReadRegFor thisBuild sel s = _
  rw [execReadRegFor, show s.arch.readRegisterFor thisBuild sel = none from h]
  rfl

end

/-- The response with CONFIG in VALUE, as a number (R32, R113, R251). -/
theorem responseWord_regConfig_toNat (a : Arch) : (responseWord 0x8 codeOk 0 false a.regConfig).toNat =
    ((if a.ready then 2 ^ 31 else 0) + a.k.toNat * 2 ^ 16 + a.sizeBytes.toNat) * 2 ^ 32 + 0x8000 := by
  have hstatus : codeOk.toNat + (0 : BitVec 4).toNat * 16 + false.toNat * 256 + (0x8 : BitVec 4).toNat * 4096 = 0x8000 := rfl
  have hready : a.ready.toNat * 2147483648 = if a.ready then 2 ^ 31 else 0 := by cases a.ready <;> rfl
  rw [responseWord_toNat, hstatus, Arch.regConfig_toNat, hready]
  ring

/-- Settles O27, selector by selector: ID, CONFIG and CAPS, and no register above 0x02. -/
theorem readRegReturnsSelectedRegister : Obligations.ReadRegReturnsSelectedRegister := by
  refine ⟨rejectsReserved (.readReg 0), fun s => ⟨?_, ?_, ?_, fun sel hsel => ?_⟩⟩
  · exact exec_readReg_of_some (v := regId) rfl rfl
  · exact ⟨_, exec_readReg_of_some rfl rfl, responseWord_regConfig_toNat s.arch⟩
  · exact exec_readReg_of_some (v := regCaps) rfl rfl
  · exact exec_readReg_of_none (s.arch.readRegister_of_two_lt hsel)

end Sys2Proof.Machine
end

/-! ### Errors and their priority (R275, R276) -/
section
open Sys2Proof.Spec

namespace Sys2Proof.Machine

/-- The error that a command reports: the first of its own checks that applies, in the order of R276. -/
def State.commandFailure (s : State) : Instr → Option CommandError
  | .nop => none
  | .construct sz kf =>
    if pow2 sz = false then some .sizeNotPow2
    else if 8192 < sz then some .sizeRange
    else if kf < 1 ∨ 16 < kf then some .kRange
    else none
  | .insert _ => if s.arch.ready = false then some .notReady else none
  | .query _ => if s.arch.ready = false then some .notReady else none
  | .insertDigest => if s.arch.ready = false then some .notReady else none
  | .queryDigest => if s.arch.ready = false then some .notReady else none
  | .encode => if s.arch.ready = false then some .notReady else none
  | .decode len =>
    let kb := (s.stage.getD (len - 1) 0).toNat
    if len = 0 then some .blobEmpty
    else if blobLenOk len = false then some .blobSize
    else if kb < 1 ∨ 16 < kb then some .blobK
    else none
  | .readReg sel => if 2 < sel then some .badSelector else none

/-- The error that EXECUTE of the current word reports: the decoder's rejection comes before the command's own checks (R276). -/
def State.failure (s : State) : Option CommandError :=
  match decodeWord s.curCmd with
  | .ok i => s.commandFailure i
  | .error e => some (rejection e)

/-- The CODE and DETAIL of an error, or of none (R114, R115). -/
def outcomeOf : Option CommandError → BitVec 4 × BitVec 4
  | some e => (e.code, e.detail)
  | none => (codeOk, 0)

/-- `t` is how EXECUTE in `s` ends with this error: its response is all that changes (R275). Without one, CODE is OK and DETAIL
is 0. -/
def EndsWith (s t : State) : Option CommandError → Prop
  | some e => ∃ op, t = s.respond (responseWord op e.code e.detail false 0)
  | none => ∃ op result value, t.pendingRsp = some (responseWord op codeOk 0 result value)

/-! EXECUTE ends with the failure of the current word. -/

section
variable {s t : State} {op : BitVec 4} {f : Option CommandError}

/-- An ending reports the CODE and DETAIL of its error. -/
theorem EndsWith.outcome {r : Response} (h : EndsWith s t f) (hr : t.pendingRsp = some r) :
    (r.extractLsb' 0 4, r.extractLsb' 4 4) = outcomeOf f := by
  cases f with
  | some e =>
    obtain ⟨op, rfl⟩ := h
    cases hr
    rw [responseWord_code, responseWord_detail, outcomeOf]
  | none =>
    obtain ⟨op, result, value, ht⟩ := h
    cases hr.symm.trans ht
    rw [responseWord_code, responseWord_detail, outcomeOf]

/-- A check before the rest of a command: its error when it applies, and what the rest ends with when it does not. -/
theorem endsWith_check {c : Prop} [Decidable c] {e : CommandError} {x : Host.Outcome State Fault Refusal}
    (h : (if c then raise op e s else x) = .next t) (hx : x = .next t → EndsWith s t f) :
    EndsWith s t (if c then some e else f) := by
  split_ifs at h ⊢
  · exact ⟨op, raise_next h⟩
  · exact hx h

theorem endsWith_of_succeed {s' : State} {result : Bool} {value : Word} (h : succeed op result value s' = .next t) :
    EndsWith s t none := by
  cases h
  exact ⟨_, _, _, rfl⟩

theorem endsWith_of_insertUnit {d : Digest} (h : insertUnit op d s = .next t) : EndsWith s t none := by
  obtain ⟨a, -, rfl⟩ := insertUnit_next h
  exact ⟨_, _, _, rfl⟩

theorem endsWith_of_queryUnit {d : Digest} (h : queryUnit op d s = .next t) : EndsWith s t none := by
  obtain ⟨r, -, rfl⟩ := queryUnit_next h
  exact ⟨_, _, _, rfl⟩

theorem execConstruct_endsWith {sz kf : Nat} (h : execConstruct sz kf s = .next t) :
    EndsWith s t (s.commandFailure (.construct sz kf)) :=
  endsWith_check h fun h => endsWith_check h fun h => endsWith_check h endsWith_of_succeed

theorem execInsert_endsWith {len : Nat} (h : execInsert len s = .next t) :
    EndsWith s t (s.commandFailure (.insert len)) :=
  endsWith_check h fun h => by
    split at h
    · cases h
    · exact endsWith_of_insertUnit h

theorem execQuery_endsWith {len : Nat} (h : execQuery len s = .next t) :
    EndsWith s t (s.commandFailure (.query len)) :=
  endsWith_check h fun h => by
    split at h
    · cases h
    · exact endsWith_of_queryUnit h

theorem execInsertDigest_endsWith (h : execInsertDigest s = .next t) : EndsWith s t (s.commandFailure .insertDigest) :=
  endsWith_check h fun h => by
    split at h
    · cases h
    · exact endsWith_of_insertUnit h

theorem execQueryDigest_endsWith (h : execQueryDigest s = .next t) : EndsWith s t (s.commandFailure .queryDigest) :=
  endsWith_check h fun h => by
    split at h
    · cases h
    · exact endsWith_of_queryUnit h

theorem execEncode_endsWith (h : execEncode s = .next t) : EndsWith s t (s.commandFailure .encode) :=
  endsWith_check h fun h => by
    cases h
    exact ⟨_, _, _, rfl⟩

/-- The k byte of DECODE is the last byte of the blob, read once its length has passed (R231, R233). -/
theorem execDecode_endsWith {len : Nat} (h : execDecode len s = .next t) :
    EndsWith s t (s.commandFailure (.decode len)) :=
  endsWith_check h fun h => endsWith_check h fun h => by
    split at h
    · cases h
    next bits kb hblob =>
    obtain ⟨hs, rfl⟩ := State.payloadBlob_eq_some hblob
    have hkb : s.stage.getD (bits.length + 1 - 1) 0 = kb := by simp [hs]
    rw [hkb]
    exact endsWith_check h endsWith_of_succeed

theorem execReadReg_endsWith {sel : Nat} (h : execReadReg sel s = .next t) :
    EndsWith s t (s.commandFailure (.readReg sel)) := by
  rw [execReadReg, execReadRegFor] at h
  match sel, h with
  | 0, h => exact endsWith_of_succeed h
  | 1, h => exact endsWith_of_succeed h
  | 2, h => exact endsWith_of_succeed h
  | n + 3, h =>
    rw [State.commandFailure, if_pos (by omega)]
    exact ⟨_, raise_next h⟩

/-- Every command ends with the first of its own checks that applies (R276). -/
theorem exec_endsWith {i : Instr} (h : exec i s = .next t) : EndsWith s t (s.commandFailure i) := by
  cases i with
  | nop => exact endsWith_of_succeed h
  | construct sz kf => exact execConstruct_endsWith h
  | insert len => exact execInsert_endsWith h
  | query len => exact execQuery_endsWith h
  | insertDigest => exact execInsertDigest_endsWith h
  | queryDigest => exact execQueryDigest_endsWith h
  | encode => exact execEncode_endsWith h
  | decode len => exact execDecode_endsWith h
  | readReg sel => exact execReadReg_endsWith h

/-- EXECUTE runs with the whole payload taken, and ends with the failure of the current word (R69, R276). -/
theorem step_execute_endsWith (hr : s.rst = false) (hp : s.phase = .execute) (h : step s = .next t) :
    s.remain = 0 ∧ EndsWith s t s.failure := by
  rw [step_execute hr hp] at h
  unfold State.failure
  obtain ⟨h0, ⟨i, hi, hexec⟩ | ⟨e, ⟨rfl, hd⟩ | ⟨rfl, hd⟩, ht⟩⟩ := stepExecute_next h
  · rw [hi]
    exact ⟨h0, exec_endsWith hexec⟩
  · rw [hd]
    exact ⟨h0, _, ht⟩
  · rw [hd]
    exact ⟨h0, _, ht⟩

end

/-- Settles O34: an ending with an error changes only the response, and an ending without one has CODE OK. -/
theorem errorChangesOnlyTheResponse : Obligations.ErrorChangesOnlyTheResponse := by
  intro s t r hr hp hstep hrsp hcode
  obtain ⟨h0, hend⟩ := step_execute_endsWith hr hp hstep
  cases hf : s.failure with
  | some e =>
    rw [hf] at hend
    obtain ⟨op, rfl⟩ := hend
    cases hrsp
    exact ⟨h0, rfl, responseWord_result .., responseWord_value ..⟩
  | none =>
    rw [hf] at hend
    exact absurd (congrArg Prod.fst (hend.outcome hrsp)) hcode

/-! The failure of the current word is the first check of the list of R276 that applies. -/

/-- The first check of a list that applies, or OK: `firstError` for any list of checks. -/
def firstOf (cs : List (Bool × BitVec 4 × BitVec 4)) : BitVec 4 × BitVec 4 :=
  match cs.find? (fun c => c.1) with
  | some c => c.2
  | none => (0, 0)

theorem firstError_eq_firstOf (s : State) : firstError s = firstOf (errorChecks s) := rfl

theorem firstOf_cons (b : Bool) (o : BitVec 4 × BitVec 4) (cs : List (Bool × BitVec 4 × BitVec 4)) :
    firstOf ((b, o) :: cs) = if b then o else firstOf cs := by
  cases b <;> rfl

/-- A check before the rest of a list: its error when it applies, and the outcome of the rest when it does not. -/
theorem firstOf_check {b : Bool} {c : Prop} [Decidable c] {e : CommandError} {f : Option CommandError}
    {cs : List (Bool × BitVec 4 × BitVec 4)} (hb : b = true ↔ c) (hcs : firstOf cs = outcomeOf f) :
    firstOf ((b, e.code, e.detail) :: cs) = outcomeOf (if c then some e else f) := by
  rw [firstOf_cons, hcs, apply_ite outcomeOf]
  exact if_congr hb rfl rfl

/-- The 16-bit powers of two are the legal sizes and the two above them (R200). -/
theorem pow2_iff_mem_legalSizes_or {sz : Nat} (h : sz < 65536) :
    pow2 sz = true ↔ sz ∈ legalSizes ∨ sz = 16384 ∨ sz = 32768 := by
  constructor
  · intro hp
    by_cases hle : sz ≤ 8192
    · exact .inl ((mem_legalSizes_iff sz).2 ⟨hp, hle⟩)
    obtain ⟨e, rfl⟩ := (pow2_iff sz).1 hp
    have hlo := (Nat.pow_lt_pow_iff_right (n := 13) Nat.one_lt_two).1 (Nat.not_le.1 hle)
    have hhi := (Nat.pow_lt_pow_iff_right (m := 16) Nat.one_lt_two).1 h
    obtain rfl | rfl : e = 14 ∨ e = 15 := by omega
    · exact .inr (.inl rfl)
    · exact .inr (.inr rfl)
  · rintro (hmem | rfl | rfl)
    · exact ((mem_legalSizes_iff sz).1 hmem).1
    · decide
    · decide

section
variable {s : State}

/-- A word that is no command fails one of the first two checks. -/
theorem firstError_of_error {e : DecodeError} (h : decodeWord s.curCmd = .error e) :
    firstError s = outcomeOf (some (rejection e)) := by
  rw [firstError_eq_firstOf, errorChecks, firstOf_cons, firstOf_cons]
  cases e with
  | undefinedOpcode => exact if_pos (decide_eq_true ((decodeWord_undefinedOpcode_iff _).1 h))
  | reservedBits =>
    have hres := (decodeWord_reservedBits_iff _).1 h
    have hdef : ¬ 9 ≤ opNum s.curCmd := fun h9 => by
      cases ((decodeWord_undefinedOpcode_iff _).2 h9).symm.trans h
    exact (if_neg (mt of_decide_eq_true hdef)).trans (if_pos hres)

/-- A command passes the first two checks, and of the others only its own opcode's can apply. -/
theorem firstError_of_ok {i : Instr} (h : decodeWord s.curCmd = .ok i) :
    firstError s = outcomeOf (s.commandFailure i) := by
  obtain ⟨hop, -, hreads⟩ := decodeWord_ok h
  have hres := (reservedSet_eq_false_iff hop).2 hreads.reservedZero
  have hop : s.curCmd.extractLsb' 28 4 = i.opcode := hop
  have hready : firstOf [(!s.arch.ready, 3, 0)] = outcomeOf (if s.arch.ready = false then some .notReady else none) :=
    firstOf_check (e := .notReady) (Iff.of_eq (Bool.not_eq_true' _)) rfl
  rw [firstError_eq_firstOf, errorChecks, hop, hres]
  cases i with
  | nop => rfl
  | construct sz kf =>
    obtain ⟨hsz, rfl, -⟩ := hreads
    have hpow : (!decide (sz ∈ legalSizes ∨ sz = 16384 ∨ sz = 32768)) = true ↔ pow2 sz = false := by
      rw [Bool.not_eq_true', decide_eq_false_iff_not, ← pow2_iff_mem_legalSizes_or (hsz ▸ szField_lt s.curCmd),
        Bool.not_eq_true]
    subst hsz
    exact firstOf_check (e := .sizeNotPow2) hpow (firstOf_check (e := .sizeRange) decide_eq_true_iff
      (firstOf_check (e := .kRange) decide_eq_true_iff rfl))
  | insert len | query len | insertDigest | queryDigest | encode => exact hready
  | decode len =>
    obtain ⟨rfl, -⟩ := hreads
    have hblob : (!decide (lenField s.curCmd - 1 ∈ legalSizes)) = true ↔ blobLenOk (lenField s.curCmd) = false := by
      rw [Bool.not_eq_true', decide_eq_false_iff_not, ← blobLenOk_iff_mem_legalSizes, Bool.not_eq_true]
    exact firstOf_check (e := .blobEmpty) decide_eq_true_iff (firstOf_check (e := .blobSize) hblob
      (firstOf_check (e := .blobK) decide_eq_true_iff rfl))
  | readReg sel =>
    obtain ⟨rfl, -⟩ := hreads
    exact firstOf_check (e := .badSelector) (cs := []) decide_eq_true_iff rfl

end

/-- Settles O35: EXECUTE ends with the failure of the current word, which is the first check that applies. -/
theorem firstErrorInOrderIsReported : Obligations.FirstErrorInOrderIsReported := by
  intro s t r hr hp hstep hrsp
  obtain ⟨-, hend⟩ := step_execute_endsWith hr hp hstep
  rw [hend.outcome hrsp, State.failure]
  cases h : decodeWord s.curCmd with
  | ok i => exact (firstError_of_ok h).symm
  | error e => exact (firstError_of_error h).symm

end Sys2Proof.Machine
end

/-! ### Reset abandons the command (R35, R300) -/
section
namespace Sys2Proof.Machine

section
variable {s : State}

/-! While `rst` = 1 the engine is neither ready nor valid on any channel (R300). -/

theorem State.cmdReady_of_rst (h : s.rst = true) : s.cmdReady = false :=
  Bool.eq_false_iff.2 fun hh => Bool.eq_false_iff.1 (s.cmdReady_iff.1 hh).1 h

theorem State.dinReadyAt_of_rst (moves : Bool) (h : s.rst = true) : s.dinReadyAt moves = false :=
  Bool.eq_false_iff.2 fun hh => Bool.eq_false_iff.1 ((s.dinReadyAt_iff moves).1 hh).1 h

theorem State.doutValidAt_of_rst (moves : Bool) (h : s.rst = true) : s.doutValidAt moves = false :=
  Bool.eq_false_iff.2 fun hh => Bool.eq_false_iff.1 ((s.doutValidAt_iff moves).1 hh).1 h

theorem State.rspValid_of_rst (h : s.rst = true) : s.rspValid = false :=
  Bool.eq_false_iff.2 fun hh => Bool.eq_false_iff.1 (s.rspValid_iff.1 hh).1 h

/-- After the reset edge the engine is ready for a command. -/
theorem State.cmdReady_resetEdge (s : State) : s.resetEdge.cmdReady = true :=
  s.resetEdge.cmdReady_iff.2 ⟨s.resetEdge_rst, s.resetEdge_phase⟩

/-- The reset edge reads the host's side and nothing else (R35): neither the filter nor any of the controller's registers. -/
theorem State.resetEdge_congr {u : State} (hcmd : u.cmdIn = s.cmdIn) (hdin : u.dinIn = s.dinIn)
    (htakes : u.doutTakes = s.doutTakes) (hrsp : u.rspTakes = s.rspTakes) (hout : u.doutSent = s.doutSent)
    (hsent : u.rspSent = s.rspSent) (hfree : u.freeCount = s.freeCount) : u.resetEdge = s.resetEdge := by
  unfold State.resetEdge
  rw [hcmd, hdin, htakes, hrsp, hout, hsent, hfree]

end

/-- Settles O46: the step is the reset edge, whose fields are the reset values and the host's side. -/
theorem resetAbandonsEverything : Obligations.ResetAbandonsEverything := by
  intro s hr
  refine ⟨s.cmdReady_of_rst hr, s.dinReadyAt_of_rst true hr, s.doutValidAt_of_rst true hr, s.rspValid_of_rst hr,
    s.resetEdge, step_of_rst hr, rfl, rfl, rfl, rfl, s.resetEdge_phase, s.resetEdge_pendingRsp, s.resetEdge_doutSent,
    s.resetEdge_rspSent, s.cmdReady_resetEdge, ?_⟩
  intro u hru hcmd hdin htakes hrsp hout hsent hfree
  rw [step_of_rst hru, State.resetEdge_congr hcmd hdin htakes hrsp hout hsent hfree]

end Sys2Proof.Machine
end
